-- ==== Sys2Proof/Word.lean ====
section
/-! DEFINITION. The word types and the two word sizes of the card, with narrowing to N bits.
A register, an address, a port number and an extension word are all held in a 32-bit container `Word`; at N = 16 the
machine keeps the value in bits 15..0 (log entry 1). -/

namespace Sys2Proof

/-- The container of an N-bit value, N = 16 or 32 (R1, R20). -/
abbrev Word := BitVec 32

/-- One byte of memory (R50). -/
abbrev Byte := BitVec 8

/-- A 16-bit instruction word (R80). -/
abbrev Code := BitVec 16

/-- A register code, 0 to 15 (R21). -/
abbrev Reg := Fin 16

/-- R15, the stack pointer (R22). -/
def sp : Reg := 15

/-- The two word sizes of the card: N = 16 and N = 32 (R1, R5). -/
inductive WordSize where
  | n16
  | n32
  deriving DecidableEq, Repr

/-- N, the width of the CPU word in bits. -/
def WordSize.bits : WordSize → Nat
  | .n16 => 16
  | .n32 => 32

/-- T = N/8, the size of the CPU word in bytes. -/
def WordSize.bytes : WordSize → Nat
  | .n16 => 2
  | .n32 => 4

/-- 2^N. -/
def WordSize.modulus : WordSize → Nat
  | .n16 => 65536
  | .n32 => 4294967296

/-- 2^(N-1), the weight of the sign bit. -/
def WordSize.half : WordSize → Nat
  | .n16 => 32768
  | .n32 => 2147483648

/-- A number reduced modulo 2^N: addition is "fixée sur N bits" (R7, R58). -/
def WordSize.narrow (ws : WordSize) (k : Nat) : Word :=
  BitVec.ofNat 32 (k % ws.modulus)

/-- An integer reduced modulo 2^N. -/
def WordSize.narrowInt (ws : WordSize) (k : Int) : Word :=
  ws.narrow (k % (ws.modulus : Int)).toNat

end Sys2Proof
end

