-- ==== Sys2Proof/Machine/Memory.lean ====
section
/-! DEFINITION. Memory as plain data: a list of (address, byte) pairs in one canonical form, read and written a byte at a time,
and the big-endian values made of bytes (R50 to R53). Nothing here knows alignment or which addresses are populated. -/

namespace Sys2Proof.Machine

/-- The bytes of memory that differ from `blankByte`, at strictly rising addresses (R50). -/
abbrev Memory := List Host.Cell

/-- What an address that is not listed reads as. DESIGN CHOICE, unsafe: the spec gives memory no content (log entry 4). -/
def blankByte : Byte := 0

/-- The byte at address `a`. -/
def Memory.read : Memory → Nat → Byte
  | [], _ => blankByte
  | (k, b) :: m, a => if k = a then b else Memory.read m a

/-- Memory with the byte at address `a` replaced; a blank byte is not listed. -/
def Memory.write : Memory → Nat → Byte → Memory
  | [], a, v => if v = blankByte then [] else [(a, v)]
  | (k, b) :: m, a, v =>
    if a < k then
      if v = blankByte then (k, b) :: m else (a, v) :: (k, b) :: m
    else if a = k then
      if v = blankByte then m else (a, v) :: m
    else (k, b) :: Memory.write m a v

/-- Every listed address is at least `lo`, addresses rise strictly, and no listed byte is blank. -/
def Memory.wfFrom : Nat → Memory → Bool
  | _, [] => true
  | lo, (k, b) :: m => decide (lo ≤ k) && decide (b ≠ blankByte) && Memory.wfFrom (k + 1) m

/-- The canonical form. -/
def Memory.wf (m : Memory) : Bool :=
  Memory.wfFrom 0 m

/-- The `n` bytes from address `a` on, as one number, the byte at the lowest address first (R51, R52). Addresses are taken
modulo `size` (R58). -/
def Memory.readBig (size : Nat) (m : Memory) (a : Nat) : Nat → Nat
  | 0 => 0
  | n + 1 => Memory.readBig size m a n * 256 + (m.read ((a + n) % size)).toNat

/-- Memory with the low `8 n` bits of `v` stored from address `a` on, most significant byte first (R51, R53). -/
def Memory.writeBig (size : Nat) (m : Memory) (a : Nat) : Nat → Nat → Memory
  | 0, _ => m
  | n + 1, v => (Memory.writeBig size m a n (v / 256)).write ((a + n) % size) (BitVec.ofNat 8 v)

end Sys2Proof.Machine
end

