-- ==== Sys2Proof/Config.lean ====
section
/-! DEFINITION. What an implementation fixes: the parameters of a machine (R5), and the free values, which are opaque
constants that no proof can look into. -/

namespace Sys2Proof

/-- A stretch of populated memory: `len` bytes from address `base`, read-only or not (R61). -/
structure Region where
  base : Nat
  len : Nat
  readOnly : Bool
  deriving DecidableEq, Repr

/-- The two assignments of the leading bits of groups III, VII and VIII (R81, D2). -/
inductive EncVariant where
  | a
  | b
  deriving DecidableEq, Repr

/-- How a transfer narrower than N bits fills the upper bits of a register (R183, D12). -/
inductive NarrowExt where
  /-- the upper bits are cleared: the spec's own choice -/
  | zero
  /-- the upper bits repeat the datum's sign bit -/
  | sign
  /-- the upper bits keep what the register held -/
  | merge
  deriving DecidableEq, Repr

/-- Rounding of the quotient of signed division (R123, D14). Only `truncate` is named by the spec (log entry 11). -/
inductive DivRound where
  | truncate
  | floor
  deriving DecidableEq, Repr

/-- The parameters of one machine (R5). A state carries them and no step changes them. -/
structure Params where
  wordSize : WordSize
  /-- NIRQ: lines 0 .. nirq - 1 exist (R309). -/
  nirq : Nat
  /-- IRQ_PRIORITY: the lines preferred, first one first; the lines not named here come after them, lowest first (R310). -/
  irqPriority : List Nat
  encVariant : EncVariant
  narrowExt : NarrowExt
  divRound : DivRound
  /-- HAS_RLB_EXT: RLB and EXT are implemented (R152, R154). -/
  hasRlbExt : Bool
  /-- Where memory is, and which of it is read-only (R61). -/
  regions : List Region
  deriving DecidableEq, Repr

/-- The spec's own values of the parameters (R5) for a word size. Eight lines and memory everywhere are the model's
choices (log entries 5 and 14). -/
def Params.standard (ws : WordSize) : Params :=
  { wordSize := ws
    nirq := 8
    irqPriority := []
    encVariant := .a
    narrowExt := .zero
    divRound := .truncate
    hasRlbExt := true
    regions := [{ base := 0, len := ws.modulus, readOnly := false }] }

/-- The value CF takes after MUL or DIV, at the given draw: `draw(1)` (R123, R124). Nothing constrains it. -/
opaque Config.freeCarry : Nat → Bool

/-- What the environment answers to the read of a port, at the given draw (R60). Nothing constrains it. -/
opaque Config.portAnswer : Nat → Word → Word

/-- What a general register holds after a Reset event, at the given draw (R34: unspecified). Nothing constrains it. -/
opaque Config.resetRegister : Nat → Reg → Word

/-- START of the machine with N = 32: OPEN (R5, D25). -/
opaque Config.start32 : Word

/-- Whether an Error pushes PC: not stated (R308). Nothing constrains it. -/
opaque Config.errorPushesPc : Bool

end Sys2Proof
end

