-- ==== Sys2Proof/Syntax.lean ====
section
/-! DEFINITION. The instructions of the card as a reader of spec/opcode_table.json sees them: one constructor per row, operands
already taken out of the instruction word. -/

namespace Sys2Proof

/-- An operand found through a Mode field (R92). `ie` is the extension word, `r` the register code of the form. Modes 000
and 101 carry no register: their register code must be 0000. -/
inductive Operand where
  /-- 000 Immédiat: the extension word itself -/
  | imm (ie : Word)
  /-- 001 Registre -/
  | reg (r : Reg)
  /-- 010 Indirect -/
  | ind (r : Reg)
  /-- 011 Indirect-Post-incrémenté -/
  | postInc (r : Reg)
  /-- 100 Indirect-Pré-décrémenté -/
  | preDec (r : Reg)
  /-- 101 Direct -/
  | direct (ie : Word)
  /-- 110 Indexé -/
  | indexed (ie : Word) (r : Reg)
  /-- 111 Indirect-pré-indexé -/
  | preIndexed (ie : Word) (r : Reg)
  deriving DecidableEq, Repr

/-- The conditions of groups IV and VIII (R201), `mp` being "no condition". -/
inductive Cond where
  | mp | eq | ne | ge | le | gt | lw | ae | be | ab | bl | vs | vc
  deriving DecidableEq, Repr

/-- Why an instruction word is refused by the decoder (R100). `truncated` is the decoder's own: a byte list too short. -/
inductive Reserved where
  /-- item 1: CC = 0000, 1110 or 1111 (R215) -/
  | conditionCode
  /-- item 2: OP1 = 000 in group V (R238) -/
  | operationZero
  /-- item 3: group VI with a bit of 6..0 set -/
  | groupSixLowBits
  /-- item 4: Type L when N = 16 (R173) -/
  | longOperand
  /-- item 5: mode 000 or 101 with a register code other than 0000 -/
  | registerField
  /-- item 6: an immediate as destination -/
  | immediateDestination
  /-- item 7: JEA or JSR in mode 000 or 001 -/
  | noEffectiveAddress
  /-- item 8: RLB or EXT when HAS_RLB_EXT is false -/
  | notImplemented
  /-- fewer bytes than the instruction has -/
  | truncated
  deriving DecidableEq, Repr

/-- The 73 instructions (R102). Fields stand in the order of the instruction word: sources before destination in groups I
and II, Ra before operand B in group III. -/
inductive Instr where
  -- group I
  | adc (sa sb d : Reg)
  | xor (sa sb d : Reg)
  | div (sa sb d : Reg)
  | mul (sa sb d : Reg)
  | and (sa sb d : Reg)
  | or (sa sb d : Reg)
  | add (sa sb d : Reg)
  | sub (sa sb d : Reg)
  -- group II
  | rlc (s d : Reg)
  | rrc (s d : Reg)
  | srl (s d : Reg)
  | sra (s d : Reg)
  | not (s d : Reg)
  | sbb (s d : Reg)
  | shl (s d : Reg)
  | neg (s d : Reg)
  | inp (s d : Reg)
  | out (s d : Reg)
  | swb (s d : Reg)
  | rlb (s d : Reg)
  | ani (s d : Reg) (ie : Word)
  | ext (s d : Reg)
  | adi (s d : Reg) (ie : Word)
  | cmp (s d : Reg)
  -- group III
  | ldB (ra : Reg) (b : Operand)
  | ldW (ra : Reg) (b : Operand)
  | ldL (ra : Reg) (b : Operand)
  | stB (ra : Reg) (b : Operand)
  | stW (ra : Reg) (b : Operand)
  | stL (ra : Reg) (b : Operand)
  -- group IV
  | jmp (disp : Operand)
  | jeq (disp : Operand)
  | jne (disp : Operand)
  | jge (disp : Operand)
  | jle (disp : Operand)
  | jgt (disp : Operand)
  | jlw (disp : Operand)
  | jae (disp : Operand)
  | jbe (disp : Operand)
  | jab (disp : Operand)
  | jbl (disp : Operand)
  | jvs (disp : Operand)
  | jvc (disp : Operand)
  -- group V
  | jea (a : Operand)
  | jsr (a : Operand)
  | trp (a : Operand)
  | tst (a : Operand)
  | tsr (a : Operand)
  | msr (a : Operand)
  | mpc (a : Operand)
  -- group VI
  | nop
  | hlt
  | rts
  | rti
  | clc
  | stc
  | dsi
  | eni
  -- group VII
  | ldq (value : BitVec 8) (r : Reg)
  | adq (value : BitVec 8) (r : Reg)
  -- group VIII
  | bmp (disp : BitVec 8)
  | beq (disp : BitVec 8)
  | bne (disp : BitVec 8)
  | bge (disp : BitVec 8)
  | ble (disp : BitVec 8)
  | bgt (disp : BitVec 8)
  | blw (disp : BitVec 8)
  | bae (disp : BitVec 8)
  | bbe (disp : BitVec 8)
  | bab (disp : BitVec 8)
  | bbl (disp : BitVec 8)
  | bvs (disp : BitVec 8)
  | bvc (disp : BitVec 8)
  deriving DecidableEq, Repr

/-- The extension word an operand carries, if its mode has one (R92). -/
def Operand.extension : Operand → Option Word
  | .imm ie => some ie
  | .reg _ => none
  | .ind _ => none
  | .postInc _ => none
  | .preDec _ => none
  | .direct ie => some ie
  | .indexed ie _ => some ie
  | .preIndexed ie _ => some ie

/-- The extension word of an instruction, if it has one (R98). -/
def Instr.extension : Instr → Option Word
  | .adc _ _ _ => none
  | .xor _ _ _ => none
  | .div _ _ _ => none
  | .mul _ _ _ => none
  | .and _ _ _ => none
  | .or _ _ _ => none
  | .add _ _ _ => none
  | .sub _ _ _ => none
  | .rlc _ _ => none
  | .rrc _ _ => none
  | .srl _ _ => none
  | .sra _ _ => none
  | .not _ _ => none
  | .sbb _ _ => none
  | .shl _ _ => none
  | .neg _ _ => none
  | .inp _ _ => none
  | .out _ _ => none
  | .swb _ _ => none
  | .rlb _ _ => none
  | .ani _ _ ie => some ie
  | .ext _ _ => none
  | .adi _ _ ie => some ie
  | .cmp _ _ => none
  | .ldB _ b => b.extension
  | .ldW _ b => b.extension
  | .ldL _ b => b.extension
  | .stB _ b => b.extension
  | .stW _ b => b.extension
  | .stL _ b => b.extension
  | .jmp disp => disp.extension
  | .jeq disp => disp.extension
  | .jne disp => disp.extension
  | .jge disp => disp.extension
  | .jle disp => disp.extension
  | .jgt disp => disp.extension
  | .jlw disp => disp.extension
  | .jae disp => disp.extension
  | .jbe disp => disp.extension
  | .jab disp => disp.extension
  | .jbl disp => disp.extension
  | .jvs disp => disp.extension
  | .jvc disp => disp.extension
  | .jea a => a.extension
  | .jsr a => a.extension
  | .trp a => a.extension
  | .tst a => a.extension
  | .tsr a => a.extension
  | .msr a => a.extension
  | .mpc a => a.extension
  | .nop => none
  | .hlt => none
  | .rts => none
  | .rti => none
  | .clc => none
  | .stc => none
  | .dsi => none
  | .eni => none
  | .ldq _ _ => none
  | .adq _ _ => none
  | .bmp _ => none
  | .beq _ => none
  | .bne _ => none
  | .bge _ => none
  | .ble _ => none
  | .bgt _ => none
  | .blw _ => none
  | .bae _ => none
  | .bbe _ => none
  | .bab _ => none
  | .bbl _ => none
  | .bvs _ => none
  | .bvc _ => none

end Sys2Proof
end

