-- ==== Sys2Proof/Machine/State.lean ====
section
/-! DEFINITION. The state of the machine, the reasons a step can stop, and the state right after reset. -/

namespace Sys2Proof.Machine

/-- The six flags of the status register (R25, R26). Bits 15..6 of SR are hardwired 0 and are held nowhere. -/
structure SR where
  /-- Wait Flag: the CPU is stopped and waits for an interrupt -/
  WF : Bool
  /-- Interrupt Flag: interrupts are enabled -/
  IF : Bool
  /-- Zero Flag -/
  ZF : Bool
  /-- oVerflow Flag -/
  VF : Bool
  /-- Carry Flag: carry of an addition, borrow of a subtraction -/
  CF : Bool
  /-- Negative Flag -/
  NF : Bool
  deriving DecidableEq, Repr

/-- Why the machine stops on an access to memory that is not there. The spec gives such an access no meaning (R52, R53). -/
inductive Fault where
  /-- Raised by any fetch, load, store, push, pop or vector read with a byte outside the populated addresses (R52). Safe: the
  model stops where the hardware may go on. -/
  | unmapped
  /-- Raised by any store or push with a byte in read-only memory (R53). Safe: the model stops where the hardware may go
  on. -/
  | readOnly
  deriving DecidableEq, Repr

/-- Why an instruction has no meaning: the spec's `refuse` (R8). Every one is safe: the model stops where the hardware may
go on. -/
inductive Refusal where
  /-- Raised by an arm of `exec` that has no meaning yet. No arm is left so. -/
  | notModelled (mnemonic : String)
  /-- Raised by the fetch of a reserved instruction word (R100), and by LD.L, ST.L, RLB and EXT on a machine that reserves
  them. -/
  | reservedEncoding (why : Reserved)
  /-- Raised by the fetch when bit 0 of PC is 1 (R56). -/
  | oddPc
  /-- Raised by a data access at an address that is no multiple of its size (R55). -/
  | misaligned
  /-- Raised by DIV when the divisor is 0 (R123). -/
  | divisionByZero
  /-- Raised by DIV of -2^(N-1) by -1 (R123). -/
  | divisionOverflow
  /-- Raised by DIV when Rd and Rsa are one register (R123). -/
  | divisionOverlap
  /-- Raised by LD and ST when Ra and Rb are one register that the mode also modifies (R182). -/
  | transferOverlap
  /-- Raised by JSR and TRP when the operand's mode modifies SP (R232, R233). -/
  | autoModifiedSp
  /-- Raised by ST, TSR, MSR and MPC on an immediate operand (R93). The decoder never answers such a form. -/
  | immediateDestination
  /-- Raised by JEA and JSR on an operand without an address (R93). The decoder never answers such a form. -/
  | noEffectiveAddress
  deriving DecidableEq, Repr

/-- The whole state of the machine. -/
structure State where
  /-- the parameters of this machine (R5), which no step changes -/
  params : Params
  /-- R0 .. R15, R15 being SP (R20, R22) -/
  regs : Vector Word 16
  /-- the program counter (R24) -/
  pc : Word
  /-- the status register (R25) -/
  sr : SR
  /-- memory (R30) -/
  mem : Memory
  /-- the interrupt lines whose pending bit is set, lowest first (R32, R309) -/
  pending : List Nat
  /-- the line /RST is at level 0 (R304) -/
  rstLow : Bool
  /-- the model's own: what OUT handed to the I/O space, newest first, as (port, datum) (R60, R150; log entry 13) -/
  outputs : List (Word × Word)
  /-- the model's own: how many free values have been drawn (R8; log entry 10) -/
  draws : Nat
  deriving DecidableEq, Repr

/-- SR with all six flags 0 (R304). -/
def SR.cleared : SR :=
  { WF := false, IF := false, ZF := false, VF := false, CF := false, NF := false }

/-- START (R5, R304): 0xFFFA for N = 16, open for N = 32. -/
def startAddress : WordSize → Word
  | .n16 => 0xFFFA
  | .n32 => Config.start32

/-- A machine right after power-on reset with the line /RST released (R34, R340). The general registers are 0: DESIGN CHOICE,
unsafe, since R34 leaves them unspecified (log entry 2). -/
def State.resetWith (p : Params) : State :=
  { params := p
    regs := Vector.replicate 16 0
    pc := startAddress p.wordSize
    sr := SR.cleared
    mem := []
    pending := []
    rstLow := false
    outputs := []
    draws := 0 }

/-- The machine right after reset: N = 16 with the standard parameters (log entry 1). -/
def State.reset : State :=
  State.resetWith (Params.standard .n16)

end Sys2Proof.Machine
end

