-- ==== Sys2Proof/Machine/Flags.lean ====
section
/-! DEFINITION. Arithmetic on N-bit values and every flag computation of the spec (R25 to R27, R201). Operands are taken as
exact integers, the result is narrowed at the end, and the flags compare the two. -/

namespace Sys2Proof.Machine

/-- `signed(v)`: an N-bit value as a two's complement integer (R8). -/
def signed (ws : WordSize) (v : Word) : Int :=
  if v.toNat < ws.half then (v.toNat : Int) else (v.toNat : Int) - (ws.modulus : Int)

/-- The integer lies in [-2^(N-1), 2^(N-1)-1] (R26). -/
def inSignedRange (ws : WordSize) (k : Int) : Bool :=
  decide (-(ws.half : Int) ≤ k) && decide (k < (ws.half : Int))

/-- Bit N-1 of an N-bit value. -/
def signBit (ws : WordSize) (v : Word) : Bool :=
  decide (ws.half ≤ v.toNat)

/-- A flag as a number, 0 or 1. -/
def flagNat (b : Bool) : Nat :=
  if b then 1 else 0

/-- `sext_N` of an 8-bit code (R94, R95, R154). -/
def signExtend8 (ws : WordSize) (v : BitVec 8) : Word :=
  ws.narrowInt (if v.toNat < 128 then (v.toNat : Int) else (v.toNat : Int) - 256)

/-- ZF and NF from an N-bit result (R27). -/
def setZN (ws : WordSize) (sr : SR) (r : Word) : SR :=
  { sr with ZF := decide (r = 0), NF := signBit ws r }

/-- `add_flags(a, b, c)`: the N-bit sum and the flags (R27). -/
def addFlags (ws : WordSize) (sr : SR) (a b : Word) (c : Bool) : Word × SR :=
  let sum := a.toNat + b.toNat + flagNat c
  let r := ws.narrow sum
  (r, setZN ws
    { sr with
      CF := decide (ws.modulus ≤ sum)
      VF := !inSignedRange ws (signed ws a + signed ws b + (flagNat c : Int)) } r)

/-- `sub_flags(a, b, c)`: the N-bit difference and the flags, CF being the borrow (R27). -/
def subFlags (ws : WordSize) (sr : SR) (a b : Word) (c : Bool) : Word × SR :=
  let diff : Int := (a.toNat : Int) - (b.toNat : Int) - (flagNat c : Int)
  let r := ws.narrowInt diff
  (r, setZN ws
    { sr with
      CF := decide (diff < 0)
      VF := !inSignedRange ws (signed ws a - signed ws b - (flagNat c : Int)) } r)

/-- `logic_flags(r)`: VF and CF cleared, ZF and NF from r (R27). -/
def logicFlags (ws : WordSize) (sr : SR) (r : Word) : SR :=
  setZN ws { sr with VF := false, CF := false } r

/-- The flags of a shift or rotate by one: VF cleared, CF the bit that leaves the register, ZF and NF from the result (R140). -/
def shiftFlags (ws : WordSize) (sr : SR) (r : Word) (out : Bool) : SR :=
  setZN ws { sr with VF := false, CF := out } r

/-- `sr16()`: the image of SR as a word (R25). -/
def SR.image (sr : SR) : Word :=
  BitVec.ofNat 32
    (flagNat sr.WF * 0x20 + flagNat sr.IF * 0x10 + flagNat sr.ZF * 0x08 + flagNat sr.VF * 0x04 + flagNat sr.CF * 0x02
      + flagNat sr.NF)

/-- The flags that bits 5..0 of a word give; the other bits are ignored (R25). -/
def SR.ofImage (w : Word) : SR :=
  { WF := w.getLsbD 5, IF := w.getLsbD 4, ZF := w.getLsbD 3, VF := w.getLsbD 2, CF := w.getLsbD 1, NF := w.getLsbD 0 }

/-- `cond(CC)`: the truth of a condition on the current flags (R201). -/
def SR.holds (sr : SR) : Cond → Bool
  | .mp => true
  | .eq => sr.ZF
  | .ne => !sr.ZF
  | .ge => !(Bool.xor sr.NF sr.VF)
  | .le => Bool.xor sr.NF sr.VF || sr.ZF
  | .gt => !(Bool.xor sr.NF sr.VF) && !sr.ZF
  | .lw => Bool.xor sr.NF sr.VF
  | .ae => !sr.CF
  | .be => sr.CF || sr.ZF
  | .ab => !sr.CF && !sr.ZF
  | .bl => sr.CF
  | .vs => sr.VF
  | .vc => !sr.VF

/-! ## One-register results (group II) -/

/-- `a[N-2:0] ‖ c`: one place to the left, `c` entering bit 0 (R141, R147). -/
def shiftLeft1 (ws : WordSize) (a : Word) (c : Bool) : Word :=
  ws.narrow (a.toNat * 2 + flagNat c)

/-- `c ‖ a[N-1:1]`: one place to the right, `c` entering bit N-1 (R142 to R144). -/
def shiftRight1 (ws : WordSize) (a : Word) (c : Bool) : Word :=
  ws.narrow (a.toNat / 2 + flagNat c * ws.half)

/-- Bit 0. -/
def lowBit (a : Word) : Bool :=
  decide (a.toNat % 2 = 1)

/-- `not a` on N bits (R145). -/
def complement (ws : WordSize) (a : Word) : Word :=
  ws.narrow (ws.modulus - 1 - a.toNat)

/-- The outer bytes exchanged, the bytes between them kept (R151, D38). -/
def swapBytes (ws : WordSize) (a : Word) : Word :=
  match ws with
  | .n16 => ws.narrow (a.toNat % 0x100 * 0x100 + a.toNat / 0x100)
  | .n32 => ws.narrow (a.toNat % 0x100 * 0x1000000 + a.toNat / 0x100 % 0x10000 * 0x100 + a.toNat / 0x1000000)

/-- `a[N-5:0] ‖ a[N-1:N-4]`: rotation by four places to the left (R152). -/
def rotateLeft4 (ws : WordSize) (a : Word) : Word :=
  ws.narrow (a.toNat * 16 + a.toNat / (ws.modulus / 16))

/-- The quotient of signed division in the machine's rounding (R123, D14). -/
def quotient (round : DivRound) (a b : Int) : Int :=
  match round with
  | .truncate => Int.tdiv a b
  | .floor => Int.fdiv a b

/-- The low `n` bytes of a value (R93). -/
def lowBytes (n : Nat) (v : Word) : Word :=
  BitVec.ofNat 32 (v.toNat % 256 ^ n)

/-- What a register that held `old` holds after a transfer of the `n`-byte datum `v` into it (R183, NARROW_EXT). For a datum of
N bits it is the datum, whatever the parameter. -/
def fillRegister (p : Params) (n : Nat) (old v : Word) : Word :=
  match p.narrowExt with
  | .zero => p.wordSize.narrow v.toNat
  | .sign => if v.toNat * 2 < 256 ^ n then p.wordSize.narrow v.toNat else p.wordSize.narrow (v.toNat + (p.wordSize.modulus - 256 ^ n))
  | .merge => p.wordSize.narrow (old.toNat / 256 ^ n * 256 ^ n + v.toNat)

end Sys2Proof.Machine
end

