-- ==== Sys2Proof/Machine/Ops.lean ====
section
/-! DEFINITION. The named operations over registers, memory, the stack, the I/O space and exceptions, which every instruction
is written from. -/

namespace Sys2Proof.Machine

/-- What an operation answers: a value, a fault or a refusal. -/
abbrev Answer (α : Type) := Host.Outcome α Fault Refusal

/-- One operation after another: a stop of the first is the stop of both. -/
def andThen {α β : Type} (o : Answer α) (f : α → Answer β) : Answer β :=
  match o with
  | .next a => f a
  | .fault r => .fault r
  | .refused r => .refused r

/-- The word size of the machine. -/
def State.ws (s : State) : WordSize :=
  s.params.wordSize

/-! ## Registers, PC and SR -/

/-- `x[r]` (R8, R20): N bits. -/
def State.reg (s : State) (r : Reg) : Word :=
  s.ws.narrow s.regs[r.val].toNat

/-- `x[r] <- v` (R8, R20). No register is hardwired. -/
def State.setReg (s : State) (r : Reg) (v : Word) : State :=
  { s with regs := s.regs.set r.val (s.ws.narrow v.toNat) r.isLt }

/-- `pc <- v` modulo 2^N (R24, R58). -/
def State.setPc (s : State) (v : Nat) : State :=
  { s with pc := s.ws.narrow v }

/-- The flags replaced. -/
def State.setSR (s : State) (sr : SR) : State :=
  { s with sr := sr }

/-- One more free value has been drawn (R8 `draw`). -/
def State.drawn (s : State) : State :=
  { s with draws := s.draws + 1 }

/-! ## Memory -/

/-- The byte address is populated (R61). -/
def populated (p : Params) (a : Nat) : Bool :=
  p.regions.any fun r => decide (r.base ≤ a) && decide (a < r.base + r.len)

/-- The byte address is populated and not read-only (R61). -/
def writable (p : Params) (a : Nat) : Bool :=
  populated p a &&
    !(p.regions.any fun r => r.readOnly && decide (r.base ≤ a) && decide (a < r.base + r.len))

/-- The `n` byte addresses from `a` on, modulo 2^N (R52, R58). -/
def State.span (s : State) (a : Word) (n : Nat) : List Nat :=
  (List.range n).map fun k => (a.toNat + k) % s.ws.modulus

/-- The byte at an address. -/
def State.byteAt (s : State) (a : Nat) : Byte :=
  s.mem.read a

/-- `MemRead(a, n)` with the address a multiple of `align` (R52, R55, R56). -/
def memReadAligned (align : Nat) (s : State) (a : Word) (n : Nat) : Answer Word :=
  if a.toNat % align ≠ 0 then .refused .misaligned
  else if (s.span a n).all (populated s.params) then
    .next (BitVec.ofNat 32 (Memory.readBig s.ws.modulus s.mem a.toNat n))
  else .fault .unmapped

/-- `MemRead(a, n)` of data: the address a multiple of the size (R52, R55). -/
def memRead (s : State) (a : Word) (n : Nat) : Answer Word :=
  memReadAligned n s a n

/-- `MemWrite(a, n, v)` (R53, R55). -/
def memWrite (s : State) (a : Word) (n : Nat) (v : Word) : Answer State :=
  if a.toNat % n ≠ 0 then .refused .misaligned
  else if (s.span a n).all (populated s.params) then
    if (s.span a n).all (writable s.params) then
      .next { s with mem := Memory.writeBig s.ws.modulus s.mem a.toNat n v.toNat }
    else .fault .readOnly
  else .fault .unmapped

/-! ## Stack -/

/-- SP - T (R23). -/
def State.pushAddress (s : State) : Word :=
  s.ws.narrow ((s.reg sp).toNat + (s.ws.modulus - s.ws.bytes))

/-- `push(v)`: `x[15] <- x[15] - T; MemWrite(x[15], T, v)` (R23). -/
def push (s : State) (v : Word) : Answer State :=
  memWrite (s.setReg sp s.pushAddress) s.pushAddress s.ws.bytes v

/-- `pop()`: `v = MemRead(x[15], T); x[15] <- x[15] + T` (R23). -/
def pop (s : State) : Answer (Word × State) :=
  andThen (memRead s (s.reg sp) s.ws.bytes) fun v =>
    .next (v, s.setReg sp (s.ws.narrow ((s.reg sp).toNat + s.ws.bytes)))

/-! ## I/O space -/

/-- `IORead(port)`: whatever the environment answers (R60). The value is free and is drawn anew at every read. -/
def ioRead (s : State) (port : Word) : Word × State :=
  (s.ws.narrow (Config.portAnswer s.draws port).toNat, s.drawn)

/-- `IOWrite(port, v)`: the datum is handed to the port (R60). -/
def ioWrite (s : State) (port v : Word) : State :=
  { s with outputs := (port, v) :: s.outputs }

/-! ## Exceptions -/

/-- The address of the vector of exception number `n`: 4 × n modulo 2^N (R301). -/
def vectorAddress (ws : WordSize) (n : Nat) : Word :=
  ws.narrow (4 * n)

/-- The handler address a vector word gives: bit 0 cleared (R302). -/
def handlerOf (v : Word) : Nat :=
  v.toNat / 2 * 2

/-- Taking an exception: the common entry sequence `enter(n, ret)` of Interrupt, Trap and Fault (R303). SR is pushed as it
was, IF is cleared, the return address is pushed, and PC goes where vector `n` says. -/
def enter (s : State) (n : Nat) (ret : Word) : Answer State :=
  andThen (push s s.sr.image) fun s1 =>
  andThen (push (s1.setSR { s1.sr with IF := false }) ret) fun s2 =>
  andThen (memRead s2 (vectorAddress s2.ws n) s2.ws.bytes) fun v =>
    .next (s2.setPc (handlerOf v))

/-- Returning from an exception: PC is popped, then SR (R254, R312). -/
def returnFromException (s : State) : Answer State :=
  andThen (pop s) fun r1 =>
  andThen (pop r1.2) fun r2 =>
    .next ((r2.2.setPc r1.1.toNat).setSR (SR.ofImage r2.1))

/-- The line an interrupt is taken from: the first preferred line that is pending, else the lowest pending one (R310). -/
def selectLine (priority pending : List Nat) : Option Nat :=
  match priority.find? fun i => pending.contains i with
  | some i => some i
  | none => pending.min?

/-- The interrupt accepted at this boundary, if any: IF must be 1 (R305, R309, R310). -/
def State.acceptable (s : State) : Option Nat :=
  if s.sr.IF then selectLine s.params.irqPriority s.pending else none

/-- Taking the interrupt of line `i`: its pending bit and WF are cleared, then exception i + 32 is entered with the address of
the next instruction (R305). -/
def takeInterrupt (s : State) (i : Nat) : Answer State :=
  enter { s with pending := s.pending.erase i, sr := { s.sr with WF := false } } (i + 32) s.pc

/-- Taking a Fault of vector `n` in the instruction at address `a`: the common entry, so that RTI runs that instruction again
(R307). No step calls it: the spec names no cause and raises no Fault (R320, D34; log entry 19). -/
def takeFault (s : State) (n : Nat) (a : Word) : Answer State :=
  enter s n a

/-- Taking an Error of vector `n`: IF is cleared, SR is not pushed, PC goes where the vector says (R308). Whether PC is pushed is
not stated: `Config.errorPushesPc`. No step calls it: the spec names no cause and raises no Error (R320, D34; log entry 19). -/
def takeError (s : State) (n : Nat) : Answer State :=
  let s1 := s.setSR { s.sr with IF := false }
  andThen (if Config.errorPushesPc then push s1 s1.pc else .next s1) fun s2 =>
  andThen (memRead s2 (vectorAddress s2.ws n) s2.ws.bytes) fun v =>
    .next (s2.setPc (handlerOf v))

/-- Taking Reset (R304): SR and the pending bits are cleared, PC is START, memory is as it was. The general registers hold
free values, since R34 leaves them unspecified (log entry 3). -/
def takeReset (s : State) : State :=
  { s with
    regs := Vector.ofFn fun r => s.ws.narrow (Config.resetRegister s.draws r).toNat
    pc := startAddress s.ws
    sr := SR.cleared
    pending := []
    draws := s.draws + 1 }

end Sys2Proof.Machine
end

