-- ==== Sys2Proof/Machine/Branch.lean ====
section
/-! DEFINITION. Group VIII: the short relative branches Bcc (R280 to R293). -/

namespace Sys2Proof.Machine

/-- Bcc (R280): PC plus the sign-extended displacement when the condition holds. -/
def branchIf (cc : Cond) (disp : BitVec 8) (s : State) : Answer State :=
  .next (if s.sr.holds cc then s.setPc (s.pc.toNat + (signExtend8 s.ws disp).toNat) else s)

/-- BMP (R281). -/
def execBmp (disp : BitVec 8) (s : State) : Answer State :=
  branchIf .mp disp s

/-- BEQ (R282). -/
def execBeq (disp : BitVec 8) (s : State) : Answer State :=
  branchIf .eq disp s

/-- BNE (R283). -/
def execBne (disp : BitVec 8) (s : State) : Answer State :=
  branchIf .ne disp s

/-- BGE (R284). -/
def execBge (disp : BitVec 8) (s : State) : Answer State :=
  branchIf .ge disp s

/-- BLE (R285). -/
def execBle (disp : BitVec 8) (s : State) : Answer State :=
  branchIf .le disp s

/-- BGT (R286). -/
def execBgt (disp : BitVec 8) (s : State) : Answer State :=
  branchIf .gt disp s

/-- BLW (R287). -/
def execBlw (disp : BitVec 8) (s : State) : Answer State :=
  branchIf .lw disp s

/-- BAE (R288). -/
def execBae (disp : BitVec 8) (s : State) : Answer State :=
  branchIf .ae disp s

/-- BBE (R289). -/
def execBbe (disp : BitVec 8) (s : State) : Answer State :=
  branchIf .be disp s

/-- BAB (R290). -/
def execBab (disp : BitVec 8) (s : State) : Answer State :=
  branchIf .ab disp s

/-- BBL (R291). -/
def execBbl (disp : BitVec 8) (s : State) : Answer State :=
  branchIf .bl disp s

/-- BVS (R292). -/
def execBvs (disp : BitVec 8) (s : State) : Answer State :=
  branchIf .vs disp s

/-- BVC (R293). -/
def execBvc (disp : BitVec 8) (s : State) : Answer State :=
  branchIf .vc disp s

end Sys2Proof.Machine
end

