-- ==== Sys2Proof/Machine/Operands.lean ====
section
/-! DEFINITION. Operands found through a Mode field: resolution, reading, writing, effective address and the post-increment
(R92, R93). -/

namespace Sys2Proof.Machine

/-- What resolution yields (R93). -/
inductive Resolved where
  | imm (v : Word)
  | reg (r : Reg)
  | mem (ea : Word)
  deriving DecidableEq, Repr

/-- IE + x[r] modulo 2^N (R92, R58). -/
def State.indexAddress (s : State) (ie : Word) (r : Reg) : Word :=
  s.ws.narrow (ie.toNat + (s.reg r).toNat)

/-- x[r] - size modulo 2^N (R92, R58). -/
def State.decremented (s : State) (r : Reg) (size : Nat) : Word :=
  s.ws.narrow ((s.reg r).toNat + (s.ws.modulus - size))

/-- `resolve(mode, r, size)`, with the state after a pre-decrement (R93). -/
def resolve (s : State) (op : Operand) (size : Nat) : Answer (Resolved × State) :=
  match op with
  | .imm ie => .next (.imm (lowBytes size ie), s)
  | .reg r => .next (.reg r, s)
  | .ind r => .next (.mem (s.reg r), s)
  | .postInc r => .next (.mem (s.reg r), s)
  | .preDec r => .next (.mem (s.decremented r size), s.setReg r (s.decremented r size))
  | .direct ie => .next (.mem (s.ws.narrow ie.toNat), s)
  | .indexed ie r => .next (.mem (s.indexAddress ie r), s)
  | .preIndexed ie r => andThen (memRead s (s.indexAddress ie r) s.ws.bytes) fun ea => .next (.mem ea, s)

/-- The post-increment of mode 011, if the operand is of that mode (R93). -/
def postIncrement (s : State) (op : Operand) (size : Nat) : State :=
  match op with
  | .imm _ => s
  | .reg _ => s
  | .ind _ => s
  | .postInc r => s.setReg r (s.ws.narrow ((s.reg r).toNat + size))
  | .preDec _ => s
  | .direct _ => s
  | .indexed _ _ => s
  | .preIndexed _ _ => s

/-- `readop(op, size)`: the datum of `size` bytes, its upper bits zero (R93). -/
def readOperand (s : State) (loc : Resolved) (size : Nat) : Answer Word :=
  match loc with
  | .imm v => .next v
  | .reg r => .next (lowBytes size (s.reg r))
  | .mem ea => memRead s ea size

/-- `writeop(op, size, v)` (R93). -/
def writeOperand (s : State) (loc : Resolved) (size : Nat) (v : Word) : Answer State :=
  match loc with
  | .imm _ => .refused .immediateDestination
  | .reg r => .next (s.setReg r (fillRegister s.params size (s.reg r) (lowBytes size v)))
  | .mem ea => memWrite s ea size v

/-- `ea_of(op)` (R93). -/
def addressOf (loc : Resolved) : Answer Word :=
  match loc with
  | .imm _ => .refused .noEffectiveAddress
  | .reg _ => .refused .noEffectiveAddress
  | .mem ea => .next ea

/-- The register the operand's mode modifies, if any: modes 011 and 100 (R92). -/
def modifiedRegister : Operand → Option Reg
  | .imm _ => none
  | .reg _ => none
  | .ind _ => none
  | .postInc r => some r
  | .preDec r => some r
  | .direct _ => none
  | .indexed _ _ => none
  | .preIndexed _ _ => none

end Sys2Proof.Machine
end

