-- ==== Sys2Proof/Machine/Jump.lean ====
section
/-! DEFINITION. Group IV: the long relative jumps Jcc (R200 to R215). -/

namespace Sys2Proof.Machine

/-- Jcc (R200): the displacement is read, and the mode's effect on its register happens, whether or not the condition holds. -/
def jumpIf (cc : Cond) (disp : Operand) (s : State) : Answer State :=
  andThen (resolve s disp s.ws.bytes) fun (loc, s1) =>
  andThen (readOperand s1 loc s1.ws.bytes) fun d =>
    let s2 := postIncrement s1 disp s1.ws.bytes
    .next (if s2.sr.holds cc then s2.setPc (s2.pc.toNat + d.toNat) else s2)

/-- JMP (R202). -/
def execJmp (disp : Operand) (s : State) : Answer State :=
  jumpIf .mp disp s

/-- JEQ (R203). -/
def execJeq (disp : Operand) (s : State) : Answer State :=
  jumpIf .eq disp s

/-- JNE (R204). -/
def execJne (disp : Operand) (s : State) : Answer State :=
  jumpIf .ne disp s

/-- JGE (R205). -/
def execJge (disp : Operand) (s : State) : Answer State :=
  jumpIf .ge disp s

/-- JLE (R206). -/
def execJle (disp : Operand) (s : State) : Answer State :=
  jumpIf .le disp s

/-- JGT (R207). -/
def execJgt (disp : Operand) (s : State) : Answer State :=
  jumpIf .gt disp s

/-- JLW (R208). -/
def execJlw (disp : Operand) (s : State) : Answer State :=
  jumpIf .lw disp s

/-- JAE (R209). -/
def execJae (disp : Operand) (s : State) : Answer State :=
  jumpIf .ae disp s

/-- JBE (R210). -/
def execJbe (disp : Operand) (s : State) : Answer State :=
  jumpIf .be disp s

/-- JAB (R211). -/
def execJab (disp : Operand) (s : State) : Answer State :=
  jumpIf .ab disp s

/-- JBL (R212). -/
def execJbl (disp : Operand) (s : State) : Answer State :=
  jumpIf .bl disp s

/-- JVS (R213). -/
def execJvs (disp : Operand) (s : State) : Answer State :=
  jumpIf .vs disp s

/-- JVC (R214). -/
def execJvc (disp : Operand) (s : State) : Answer State :=
  jumpIf .vc disp s

end Sys2Proof.Machine
end

