-- ==== Sys2Proof/Machine/NoOperand.lean ====
section
/-! DEFINITION. Group VI: NOP, HLT, RTS, RTI, CLC, STC, DSI, ENI (R250 to R258). -/

namespace Sys2Proof.Machine

/-- NOP (R251): PC has already advanced. -/
def execNop (s : State) : Answer State :=
  .next s

/-- HLT (R252): the CPU is stopped from the next boundary on. -/
def execHlt (s : State) : Answer State :=
  .next (s.setSR { s.sr with WF := true })

/-- RTS (R253). -/
def execRts (s : State) : Answer State :=
  andThen (pop s) fun (v, s1) => .next (s1.setPc v.toNat)

/-- RTI (R254). -/
def execRti (s : State) : Answer State :=
  returnFromException s

/-- CLC (R255). -/
def execClc (s : State) : Answer State :=
  .next (s.setSR { s.sr with CF := false })

/-- STC (R256). -/
def execStc (s : State) : Answer State :=
  .next (s.setSR { s.sr with CF := true })

/-- DSI (R257). -/
def execDsi (s : State) : Answer State :=
  .next (s.setSR { s.sr with IF := false })

/-- ENI (R258). -/
def execEni (s : State) : Answer State :=
  .next (s.setSR { s.sr with IF := true })

end Sys2Proof.Machine
end

