-- ==== Sys2Proof/Machine/OneOperand.lean ====
section
/-! DEFINITION. Group V: JEA, JSR, TRP, TST, TSR, MSR, MPC (R230 to R238). The operand has T bytes (R230). -/

namespace Sys2Proof.Machine

/-- The flags of TST and TSR: CF and VF cleared, ZF and NF from A (R234, R235). -/
def State.testFlags (s : State) (a : Word) : State :=
  s.setSR (logicFlags s.ws s.sr a)

/-- The operand as a destination: `writeop(op, T, v)` and then the post-increment (R230). -/
def storeOperand (op : Operand) (v : State → Word) (s : State) : Answer State :=
  andThen (resolve s op s.ws.bytes) fun (loc, s1) =>
  andThen (writeOperand s1 loc s1.ws.bytes (v s1)) fun s2 =>
    .next (postIncrement s2 op s2.ws.bytes)

/-- JEA (R231): only the operand's address is used. -/
def execJea (a : Operand) (s : State) : Answer State :=
  andThen (resolve s a s.ws.bytes) fun (loc, s1) =>
  andThen (addressOf loc) fun ea =>
    .next (postIncrement (s1.setPc ea.toNat) a s1.ws.bytes)

/-- JSR (R232): the target is computed before the return address is pushed. -/
def execJsr (a : Operand) (s : State) : Answer State :=
  if modifiedRegister a = some sp then .refused .autoModifiedSp
  else
    andThen (resolve s a s.ws.bytes) fun (loc, s1) =>
    andThen (addressOf loc) fun target =>
    andThen (push s1 s1.pc) fun s2 =>
      .next (postIncrement (s2.setPc target.toNat) a s2.ws.bytes)

/-- TRP (R233, R306): the operand is the number of the trap, which is entered with the address of the next instruction. -/
def execTrp (a : Operand) (s : State) : Answer State :=
  if modifiedRegister a = some sp then .refused .autoModifiedSp
  else
    andThen (resolve s a s.ws.bytes) fun (loc, s1) =>
    andThen (readOperand s1 loc s1.ws.bytes) fun n =>
      let s2 := postIncrement s1 a s1.ws.bytes
      enter s2 n.toNat s2.pc

/-- TST (R234). -/
def execTst (a : Operand) (s : State) : Answer State :=
  andThen (resolve s a s.ws.bytes) fun (loc, s1) =>
  andThen (readOperand s1 loc s1.ws.bytes) fun v =>
    .next ((postIncrement s1 a s1.ws.bytes).testFlags v)

/-- TSR (R235): the flags come from the old value, then the operand is cleared. -/
def execTsr (a : Operand) (s : State) : Answer State :=
  andThen (resolve s a s.ws.bytes) fun (loc, s1) =>
  andThen (readOperand s1 loc s1.ws.bytes) fun v =>
  andThen (writeOperand (s1.testFlags v) loc s1.ws.bytes 0) fun s2 =>
    .next (postIncrement s2 a s2.ws.bytes)

/-- MSR (R236): A takes the image of SR. -/
def execMsr (a : Operand) (s : State) : Answer State :=
  storeOperand a (fun s1 => s1.sr.image) s

/-- MPC (R237): A takes the address of the next instruction. -/
def execMpc (a : Operand) (s : State) : Answer State :=
  storeOperand a (fun s1 => s1.pc) s

end Sys2Proof.Machine
end

