-- ==== Sys2Proof/Machine/ThreeRegister.lean ====
section
/-! DEFINITION. Group I: ADC, XOR, DIV, MUL, AND, OR, ADD, SUB (R120 to R128). Every meaning reads its sources before it
writes. -/

namespace Sys2Proof.Machine

/-- A result and its flags written: `x[d] <- r` and SR (R120, R140). -/
def State.finish (s : State) (d : Reg) (out : Word × SR) : State :=
  (s.setReg d out.1).setSR out.2

/-- A logic result written with its flags (R27, R120, R140). -/
def State.finishLogic (s : State) (d : Reg) (r : Word) : State :=
  s.finish d (r, logicFlags s.ws s.sr r)

/-- ADC (R121). -/
def execAdc (sa sb d : Reg) (s : State) : Answer State :=
  .next (s.finish d (addFlags s.ws s.sr (s.reg sa) (s.reg sb) s.sr.CF))

/-- XOR (R122). -/
def execXor (sa sb d : Reg) (s : State) : Answer State :=
  .next (s.finishLogic d (s.reg sa ^^^ s.reg sb))

/-- DIV (R123): quotient to Rd, remainder to Rsa, CF a free value. -/
def execDiv (sa sb d : Reg) (s : State) : Answer State :=
  let a := signed s.ws (s.reg sa)
  let b := signed s.ws (s.reg sb)
  if b = 0 then .refused .divisionByZero
  else if a = -(s.ws.half : Int) ∧ b = -1 then .refused .divisionOverflow
  else if d = sa then .refused .divisionOverlap
  else
    let q := quotient s.params.divRound a b
    let r := s.ws.narrowInt q
    let s1 := (s.setReg d r).setReg sa (s.ws.narrowInt (a - q * b))
    .next (s1.setSR (setZN s.ws { s.sr with VF := false, CF := Config.freeCarry s.draws } r)).drawn

/-- MUL (R124): the low N bits of the signed product, VF from the exact product, CF a free value. -/
def execMul (sa sb d : Reg) (s : State) : Answer State :=
  let p := signed s.ws (s.reg sa) * signed s.ws (s.reg sb)
  let r := s.ws.narrowInt p
  .next (s.finish d (r, setZN s.ws { s.sr with VF := !inSignedRange s.ws p, CF := Config.freeCarry s.draws } r)).drawn

/-- AND (R125). -/
def execAnd (sa sb d : Reg) (s : State) : Answer State :=
  .next (s.finishLogic d (s.reg sa &&& s.reg sb))

/-- OR (R126). -/
def execOr (sa sb d : Reg) (s : State) : Answer State :=
  .next (s.finishLogic d (s.reg sa ||| s.reg sb))

/-- ADD (R127). -/
def execAdd (sa sb d : Reg) (s : State) : Answer State :=
  .next (s.finish d (addFlags s.ws s.sr (s.reg sa) (s.reg sb) false))

/-- SUB (R128). -/
def execSub (sa sb d : Reg) (s : State) : Answer State :=
  .next (s.finish d (subFlags s.ws s.sr (s.reg sa) (s.reg sb) false))

end Sys2Proof.Machine
end

