-- ==== Sys2Proof/Machine/Quick.lean ====
section
/-! DEFINITION. Group VII: LDQ and ADQ (R270 to R272). -/

namespace Sys2Proof.Machine

/-- LDQ (R271). -/
def execLdq (value : BitVec 8) (r : Reg) (s : State) : Answer State :=
  .next (s.finishLogic r (signExtend8 s.ws value))

/-- ADQ (R272). -/
def execAdq (value : BitVec 8) (r : Reg) (s : State) : Answer State :=
  .next (s.finish r (addFlags s.ws s.sr (s.reg r) (signExtend8 s.ws value) false))

end Sys2Proof.Machine
end

