-- ==== Sys2Proof/Machine/Transfer.lean ====
section
/-! DEFINITION. Group III: LD and ST in sizes B, W and L, eight addressing modes (R170 to R190). -/

namespace Sys2Proof.Machine

/-- LD of `size` bytes (R171). Ra = Rb under auto-modification is refused first (R182). The flags describe what Ra then holds,
under sign and merge too: DESIGN CHOICE (log entry 12). -/
def load (size : Nat) (ra : Reg) (b : Operand) (s : State) : Answer State :=
  if modifiedRegister b = some ra then .refused .transferOverlap
  else
    andThen (resolve s b size) fun (loc, s1) =>
    andThen (readOperand s1 loc size) fun datum =>
      let v := fillRegister s1.params size (s1.reg ra) datum
      let s2 := postIncrement (s1.setReg ra v) b size
      .next (s2.setSR (logicFlags s2.ws s2.sr v))

/-- ST of `size` bytes (R172). Ra = Rb under auto-modification is refused first (R182). -/
def store (size : Nat) (ra : Reg) (b : Operand) (s : State) : Answer State :=
  if modifiedRegister b = some ra then .refused .transferOverlap
  else
    andThen (resolve s b size) fun (loc, s1) =>
      let v := lowBytes size (s1.reg ra)
      andThen (writeOperand s1 loc size v) fun s2 =>
        let s3 := postIncrement s2 b size
        .next (s3.setSR (logicFlags s3.ws s3.sr v))

/-- Type L exists at N = 32 only (R173). -/
def onlyLong (s : State) (meaning : Answer State) : Answer State :=
  if s.ws = .n32 then meaning else .refused (.reservedEncoding .longOperand)

/-- LD.B (R185). -/
def execLdB (ra : Reg) (b : Operand) (s : State) : Answer State :=
  load 1 ra b s

/-- LD.W (R186). -/
def execLdW (ra : Reg) (b : Operand) (s : State) : Answer State :=
  load 2 ra b s

/-- LD.L (R187). -/
def execLdL (ra : Reg) (b : Operand) (s : State) : Answer State :=
  onlyLong s (load 4 ra b s)

/-- ST.B (R188). -/
def execStB (ra : Reg) (b : Operand) (s : State) : Answer State :=
  store 1 ra b s

/-- ST.W (R189). -/
def execStW (ra : Reg) (b : Operand) (s : State) : Answer State :=
  store 2 ra b s

/-- ST.L (R190). -/
def execStL (ra : Reg) (b : Operand) (s : State) : Answer State :=
  onlyLong s (store 4 ra b s)

end Sys2Proof.Machine
end

