-- ==== Sys2Proof/Machine/TwoRegister.lean ====
section
/-! DEFINITION. Group II: shifts, rotates, NOT, SBB, NEG, INP, OUT, SWB, RLB, ANI, EXT, ADI, CMP (R140 to R156). -/

namespace Sys2Proof.Machine

/-- A shift or rotate by one: `out` is the bit that leaves the register (R140). -/
def State.finishShift (s : State) (d : Reg) (r : Word) (out : Bool) : State :=
  s.finish d (r, shiftFlags s.ws s.sr r out)

/-- RLC (R141). -/
def execRlc (src d : Reg) (s : State) : Answer State :=
  .next (s.finishShift d (shiftLeft1 s.ws (s.reg src) s.sr.CF) (signBit s.ws (s.reg src)))

/-- RRC (R142). -/
def execRrc (src d : Reg) (s : State) : Answer State :=
  .next (s.finishShift d (shiftRight1 s.ws (s.reg src) s.sr.CF) (lowBit (s.reg src)))

/-- SRL (R143). -/
def execSrl (src d : Reg) (s : State) : Answer State :=
  .next (s.finishShift d (shiftRight1 s.ws (s.reg src) false) (lowBit (s.reg src)))

/-- SRA (R144): the sign bit is kept. -/
def execSra (src d : Reg) (s : State) : Answer State :=
  .next (s.finishShift d (shiftRight1 s.ws (s.reg src) (signBit s.ws (s.reg src))) (lowBit (s.reg src)))

/-- NOT (R145). -/
def execNot (src d : Reg) (s : State) : Answer State :=
  .next (s.finishLogic d (complement s.ws (s.reg src)))

/-- SBB (R146): the borrow in CF is subtracted. -/
def execSbb (src d : Reg) (s : State) : Answer State :=
  .next (s.finish d (subFlags s.ws s.sr (s.reg src) 0 s.sr.CF))

/-- SHL (R147). -/
def execShl (src d : Reg) (s : State) : Answer State :=
  .next (s.finishShift d (shiftLeft1 s.ws (s.reg src) false) (signBit s.ws (s.reg src)))

/-- NEG (R148): the subtraction 0 - Rs. -/
def execNeg (src d : Reg) (s : State) : Answer State :=
  .next (s.finish d (subFlags s.ws s.sr 0 (s.reg src) false))

/-- INP (R149): the port is named by Rs. -/
def execInp (src d : Reg) (s : State) : Answer State :=
  let (r, s1) := ioRead s (s.reg src)
  .next (s1.finishLogic d r)

/-- OUT (R150): the port is named by Rd, the datum is Rs, no register is written. -/
def execOut (src d : Reg) (s : State) : Answer State :=
  let v := s.reg src
  .next ((ioWrite s (s.reg d) v).setSR (logicFlags s.ws s.sr v))

/-- SWB (R151). -/
def execSwb (src d : Reg) (s : State) : Answer State :=
  .next (s.finishLogic d (swapBytes s.ws (s.reg src)))

/-- RLB (R152), on a machine that has it. -/
def execRlb (src d : Reg) (s : State) : Answer State :=
  if s.params.hasRlbExt then .next (s.finishLogic d (rotateLeft4 s.ws (s.reg src)))
  else .refused (.reservedEncoding .notImplemented)

/-- ANI (R153). -/
def execAni (src d : Reg) (ie : Word) (s : State) : Answer State :=
  .next (s.finishLogic d (s.reg src &&& s.ws.narrow ie.toNat))

/-- EXT (R154), on a machine that has it: the low byte sign-extended. -/
def execExt (src d : Reg) (s : State) : Answer State :=
  if s.params.hasRlbExt then .next (s.finishLogic d (signExtend8 s.ws (BitVec.ofNat 8 (s.reg src).toNat)))
  else .refused (.reservedEncoding .notImplemented)

/-- ADI (R155). -/
def execAdi (src d : Reg) (ie : Word) (s : State) : Answer State :=
  .next (s.finish d (addFlags s.ws s.sr (s.reg src) (s.ws.narrow ie.toNat) false))

/-- CMP (R156): the flags of Rs - Rd, no register written. -/
def execCmp (src d : Reg) (s : State) : Answer State :=
  .next (s.setSR (subFlags s.ws s.sr (s.reg src) (s.reg d) false).2)

end Sys2Proof.Machine
end

