-- ==== Sys2Proof/Machine/Dispatch.lean ====
section
/-! DEFINITION. The meaning of each instruction, by constructor. `exec` is entered with PC already past the whole instruction
(R9, R96). -/

namespace Sys2Proof.Machine

def exec (i : Instr) (s : State) : Host.Outcome State Fault Refusal :=
  match i with
  -- group I
  | .adc sa sb d => Sys2Proof.Machine.execAdc sa sb d s
  | .xor sa sb d => Sys2Proof.Machine.execXor sa sb d s
  | .div sa sb d => Sys2Proof.Machine.execDiv sa sb d s
  | .mul sa sb d => Sys2Proof.Machine.execMul sa sb d s
  | .and sa sb d => Sys2Proof.Machine.execAnd sa sb d s
  | .or sa sb d => Sys2Proof.Machine.execOr sa sb d s
  | .add sa sb d => Sys2Proof.Machine.execAdd sa sb d s
  | .sub sa sb d => Sys2Proof.Machine.execSub sa sb d s
  -- group II
  | .rlc src d => Sys2Proof.Machine.execRlc src d s
  | .rrc src d => Sys2Proof.Machine.execRrc src d s
  | .srl src d => Sys2Proof.Machine.execSrl src d s
  | .sra src d => Sys2Proof.Machine.execSra src d s
  | .not src d => Sys2Proof.Machine.execNot src d s
  | .sbb src d => Sys2Proof.Machine.execSbb src d s
  | .shl src d => Sys2Proof.Machine.execShl src d s
  | .neg src d => Sys2Proof.Machine.execNeg src d s
  | .inp src d => Sys2Proof.Machine.execInp src d s
  | .out src d => Sys2Proof.Machine.execOut src d s
  | .swb src d => Sys2Proof.Machine.execSwb src d s
  | .rlb src d => Sys2Proof.Machine.execRlb src d s
  | .ani src d ie => Sys2Proof.Machine.execAni src d ie s
  | .ext src d => Sys2Proof.Machine.execExt src d s
  | .adi src d ie => Sys2Proof.Machine.execAdi src d ie s
  | .cmp src d => Sys2Proof.Machine.execCmp src d s
  -- group III
  | .ldB ra b => Sys2Proof.Machine.execLdB ra b s
  | .ldW ra b => Sys2Proof.Machine.execLdW ra b s
  | .ldL ra b => Sys2Proof.Machine.execLdL ra b s
  | .stB ra b => Sys2Proof.Machine.execStB ra b s
  | .stW ra b => Sys2Proof.Machine.execStW ra b s
  | .stL ra b => Sys2Proof.Machine.execStL ra b s
  -- group IV
  | .jmp disp => Sys2Proof.Machine.execJmp disp s
  | .jeq disp => Sys2Proof.Machine.execJeq disp s
  | .jne disp => Sys2Proof.Machine.execJne disp s
  | .jge disp => Sys2Proof.Machine.execJge disp s
  | .jle disp => Sys2Proof.Machine.execJle disp s
  | .jgt disp => Sys2Proof.Machine.execJgt disp s
  | .jlw disp => Sys2Proof.Machine.execJlw disp s
  | .jae disp => Sys2Proof.Machine.execJae disp s
  | .jbe disp => Sys2Proof.Machine.execJbe disp s
  | .jab disp => Sys2Proof.Machine.execJab disp s
  | .jbl disp => Sys2Proof.Machine.execJbl disp s
  | .jvs disp => Sys2Proof.Machine.execJvs disp s
  | .jvc disp => Sys2Proof.Machine.execJvc disp s
  -- group V
  | .jea a => Sys2Proof.Machine.execJea a s
  | .jsr a => Sys2Proof.Machine.execJsr a s
  | .trp a => Sys2Proof.Machine.execTrp a s
  | .tst a => Sys2Proof.Machine.execTst a s
  | .tsr a => Sys2Proof.Machine.execTsr a s
  | .msr a => Sys2Proof.Machine.execMsr a s
  | .mpc a => Sys2Proof.Machine.execMpc a s
  -- group VI
  | .nop => Sys2Proof.Machine.execNop s
  | .hlt => Sys2Proof.Machine.execHlt s
  | .rts => Sys2Proof.Machine.execRts s
  | .rti => Sys2Proof.Machine.execRti s
  | .clc => Sys2Proof.Machine.execClc s
  | .stc => Sys2Proof.Machine.execStc s
  | .dsi => Sys2Proof.Machine.execDsi s
  | .eni => Sys2Proof.Machine.execEni s
  -- group VII
  | .ldq value r => Sys2Proof.Machine.execLdq value r s
  | .adq value r => Sys2Proof.Machine.execAdq value r s
  -- group VIII
  | .bmp disp => Sys2Proof.Machine.execBmp disp s
  | .beq disp => Sys2Proof.Machine.execBeq disp s
  | .bne disp => Sys2Proof.Machine.execBne disp s
  | .bge disp => Sys2Proof.Machine.execBge disp s
  | .ble disp => Sys2Proof.Machine.execBle disp s
  | .bgt disp => Sys2Proof.Machine.execBgt disp s
  | .blw disp => Sys2Proof.Machine.execBlw disp s
  | .bae disp => Sys2Proof.Machine.execBae disp s
  | .bbe disp => Sys2Proof.Machine.execBbe disp s
  | .bab disp => Sys2Proof.Machine.execBab disp s
  | .bbl disp => Sys2Proof.Machine.execBbl disp s
  | .bvs disp => Sys2Proof.Machine.execBvs disp s
  | .bvc disp => Sys2Proof.Machine.execBvc disp s

end Sys2Proof.Machine
end

