-- ==== Sys2Proof/WellFormed.lean ====
section
/-! DEFINITION. Which instructions the encoding of a machine admits (R100): what the decoder never answers is ill-formed. -/

namespace Sys2Proof

/-- A value that fits the N bits of an extension word (R97). -/
def WordSize.fits (ws : WordSize) (v : Word) : Bool :=
  decide (v.toNat < ws.modulus)

/-- Every extension word of the operand has N bits. -/
def Operand.wf (p : Params) (op : Operand) : Bool :=
  match op.extension with
  | none => true
  | some ie => p.wordSize.fits ie

/-- The operand can be written: it is no immediate (R100 item 6). -/
def Operand.isDestination : Operand → Bool
  | .imm _ => false
  | .reg _ => true
  | .ind _ => true
  | .postInc _ => true
  | .preDec _ => true
  | .direct _ => true
  | .indexed _ _ => true
  | .preIndexed _ _ => true

/-- The operand has an effective address: it is neither an immediate nor a register (R100 item 7). -/
def Operand.hasAddress : Operand → Bool
  | .imm _ => false
  | .reg _ => false
  | .ind _ => true
  | .postInc _ => true
  | .preDec _ => true
  | .direct _ => true
  | .indexed _ _ => true
  | .preIndexed _ _ => true

/-- The instruction is one the machine's encoding admits: no reserved form of R100, and an extension word of N bits. -/
def Instr.wf (p : Params) : Instr → Bool
  | .adc _ _ _ => true
  | .xor _ _ _ => true
  | .div _ _ _ => true
  | .mul _ _ _ => true
  | .and _ _ _ => true
  | .or _ _ _ => true
  | .add _ _ _ => true
  | .sub _ _ _ => true
  | .rlc _ _ => true
  | .rrc _ _ => true
  | .srl _ _ => true
  | .sra _ _ => true
  | .not _ _ => true
  | .sbb _ _ => true
  | .shl _ _ => true
  | .neg _ _ => true
  | .inp _ _ => true
  | .out _ _ => true
  | .swb _ _ => true
  | .rlb _ _ => p.hasRlbExt
  | .ani _ _ ie => p.wordSize.fits ie
  | .ext _ _ => p.hasRlbExt
  | .adi _ _ ie => p.wordSize.fits ie
  | .cmp _ _ => true
  | .ldB _ b => b.wf p
  | .ldW _ b => b.wf p
  | .ldL _ b => b.wf p && decide (p.wordSize = .n32)
  | .stB _ b => b.wf p && b.isDestination
  | .stW _ b => b.wf p && b.isDestination
  | .stL _ b => b.wf p && b.isDestination && decide (p.wordSize = .n32)
  | .jmp disp => disp.wf p
  | .jeq disp => disp.wf p
  | .jne disp => disp.wf p
  | .jge disp => disp.wf p
  | .jle disp => disp.wf p
  | .jgt disp => disp.wf p
  | .jlw disp => disp.wf p
  | .jae disp => disp.wf p
  | .jbe disp => disp.wf p
  | .jab disp => disp.wf p
  | .jbl disp => disp.wf p
  | .jvs disp => disp.wf p
  | .jvc disp => disp.wf p
  | .jea a => a.wf p && a.hasAddress
  | .jsr a => a.wf p && a.hasAddress
  | .trp a => a.wf p
  | .tst a => a.wf p
  | .tsr a => a.wf p && a.isDestination
  | .msr a => a.wf p && a.isDestination
  | .mpc a => a.wf p && a.isDestination
  | .nop => true
  | .hlt => true
  | .rts => true
  | .rti => true
  | .clc => true
  | .stc => true
  | .dsi => true
  | .eni => true
  | .ldq _ _ => true
  | .adq _ _ => true
  | .bmp _ => true
  | .beq _ => true
  | .bne _ => true
  | .bge _ => true
  | .ble _ => true
  | .bgt _ => true
  | .blw _ => true
  | .bae _ => true
  | .bbe _ => true
  | .bab _ => true
  | .bbl _ => true
  | .bvs _ => true
  | .bvc _ => true

end Sys2Proof
end

