-- ==== Sys2Proof/Decode.lean ====
section
/-! DEFINITION. The decoder (R99, R100), total on every word and every list of bytes, and the encoder written from the same
formats (R82 to R89). Fields are taken as numbers, as R6 writes them: `v[hi:lo]` is v / 2^lo mod 2^(hi-lo+1). -/

namespace Sys2Proof

/-- The field `w[hi:lo]` as an unsigned number (R6). -/
def field (w : Nat) (hi lo : Nat) : Nat :=
  w / 2 ^ lo % 2 ^ (hi - lo + 1)

/-- The register code that stands in bits lo+3 .. lo (R90). -/
def regField (w : Nat) (lo : Nat) : Reg :=
  Fin.ofNat 16 (field w (lo + 3) lo)

/-- The 8-bit code that stands in bits lo+7 .. lo (R94, R95). -/
def byteField (w : Nat) (lo : Nat) : BitVec 8 :=
  BitVec.ofNat 8 (field w (lo + 7) lo)

/-- An instruction word read as the same word of variant A (R81, D2). The two variants exchange the prefixes of the groups
whose figures are lost: 0001, 0010, 0011 with 0101, 0110, 0111. Doing it twice gives the word back. -/
def EncVariant.normalise (v : EncVariant) (w : Nat) : Nat :=
  match v with
  | .a => w
  | .b =>
    if field w 15 15 = 1 then w
    else if field w 13 12 = 0 then w
    else if field w 14 14 = 0 then w + 0x4000
    else w - 0x4000

/-- The condition a CC code names (R201), if any (R215). -/
def Cond.ofCode : Nat → Option Cond
  | 1 => some .mp
  | 2 => some .eq
  | 3 => some .ne
  | 4 => some .ge
  | 5 => some .le
  | 6 => some .gt
  | 7 => some .lw
  | 8 => some .ae
  | 9 => some .be
  | 10 => some .ab
  | 11 => some .bl
  | 12 => some .vs
  | 13 => some .vc
  | _ => none

/-- The CC code of a condition (R201). -/
def Cond.code : Cond → Nat
  | .mp => 1
  | .eq => 2
  | .ne => 3
  | .ge => 4
  | .le => 5
  | .gt => 6
  | .lw => 7
  | .ae => 8
  | .be => 9
  | .ab => 10
  | .bl => 11
  | .vs => 12
  | .vc => 13

/-- The Jcc instruction of a condition (R202 to R214). -/
def Instr.jcc (disp : Operand) : Cond → Instr
  | .mp => .jmp disp
  | .eq => .jeq disp
  | .ne => .jne disp
  | .ge => .jge disp
  | .le => .jle disp
  | .gt => .jgt disp
  | .lw => .jlw disp
  | .ae => .jae disp
  | .be => .jbe disp
  | .ab => .jab disp
  | .bl => .jbl disp
  | .vs => .jvs disp
  | .vc => .jvc disp

/-- The Bcc instruction of a condition (R281 to R293). -/
def Instr.bcc (disp : BitVec 8) : Cond → Instr
  | .mp => .bmp disp
  | .eq => .beq disp
  | .ne => .bne disp
  | .ge => .bge disp
  | .le => .ble disp
  | .gt => .bgt disp
  | .lw => .blw disp
  | .ae => .bae disp
  | .be => .bbe disp
  | .ab => .bab disp
  | .bl => .bbl disp
  | .vs => .bvs disp
  | .vc => .bvc disp

/-! ## Decoding

A decoded word is an instruction that awaits its extension word: a function of IE, constant for the forms that have none. -/

/-- An operand awaiting its extension word: mode and register code (R92), with the reservation of R100 item 5. -/
def decodeOperand (mode : Nat) (r : Reg) : Except Reserved (Word → Operand) :=
  match mode with
  | 0 => if r = 0 then .ok fun ie => .imm ie else .error .registerField
  | 1 => .ok fun _ => .reg r
  | 2 => .ok fun _ => .ind r
  | 3 => .ok fun _ => .postInc r
  | 4 => .ok fun _ => .preDec r
  | 5 => if r = 0 then .ok fun ie => .direct ie else .error .registerField
  | 6 => .ok fun ie => .indexed ie r
  | _ => .ok fun ie => .preIndexed ie r

/-- A decoded operand that may be written: no immediate (R100 item 6). -/
def needDestination (op : Except Reserved (Word → Operand)) : Except Reserved (Word → Operand) :=
  match op with
  | .error e => .error e
  | .ok f => if (f 0).isDestination then .ok f else .error .immediateDestination

/-- A decoded operand that has an address: neither immediate nor register (R100 item 7). -/
def needAddress (op : Except Reserved (Word → Operand)) : Except Reserved (Word → Operand) :=
  match op with
  | .error e => .error e
  | .ok f => if (f 0).hasAddress then .ok f else .error .noEffectiveAddress

/-- An instruction with one decoded operand. -/
def withOperand (op : Except Reserved (Word → Operand)) (i : Operand → Instr) : Except Reserved (Word → Instr) :=
  match op with
  | .error e => .error e
  | .ok f => .ok fun ie => i (f ie)

/-- Group I (R82): OP3, CRsa, CRsb, CRd. -/
def decodeGroup1 (w : Nat) : Instr :=
  match field w 14 12 with
  | 0 => .adc (regField w 8) (regField w 4) (regField w 0)
  | 1 => .xor (regField w 8) (regField w 4) (regField w 0)
  | 2 => .div (regField w 8) (regField w 4) (regField w 0)
  | 3 => .mul (regField w 8) (regField w 4) (regField w 0)
  | 4 => .and (regField w 8) (regField w 4) (regField w 0)
  | 5 => .or (regField w 8) (regField w 4) (regField w 0)
  | 6 => .add (regField w 8) (regField w 4) (regField w 0)
  | _ => .sub (regField w 8) (regField w 4) (regField w 0)

/-- Group II (R83): OP2, CRs, CRd. -/
def decodeGroup2 (p : Params) (w : Nat) : Except Reserved (Word → Instr) :=
  match field w 11 8 with
  | 0 => .ok fun _ => .rlc (regField w 4) (regField w 0)
  | 1 => .ok fun _ => .rrc (regField w 4) (regField w 0)
  | 2 => .ok fun _ => .srl (regField w 4) (regField w 0)
  | 3 => .ok fun _ => .sra (regField w 4) (regField w 0)
  | 4 => .ok fun _ => .not (regField w 4) (regField w 0)
  | 5 => .ok fun _ => .sbb (regField w 4) (regField w 0)
  | 6 => .ok fun _ => .shl (regField w 4) (regField w 0)
  | 7 => .ok fun _ => .neg (regField w 4) (regField w 0)
  | 8 => .ok fun _ => .inp (regField w 4) (regField w 0)
  | 9 => .ok fun _ => .out (regField w 4) (regField w 0)
  | 10 => .ok fun _ => .swb (regField w 4) (regField w 0)
  | 11 => if p.hasRlbExt then .ok fun _ => .rlb (regField w 4) (regField w 0) else .error .notImplemented
  | 12 => .ok fun ie => .ani (regField w 4) (regField w 0) ie
  | 13 => if p.hasRlbExt then .ok fun _ => .ext (regField w 4) (regField w 0) else .error .notImplemented
  | 14 => .ok fun ie => .adi (regField w 4) (regField w 0) ie
  | _ => .ok fun _ => .cmp (regField w 4) (regField w 0)

/-- Group III (R84, R91): Type, D, ModeB, CRa, CRb. Type 00 is group II's and does not come here. -/
def decodeGroup3 (p : Params) (w : Nat) : Except Reserved (Word → Instr) :=
  let ra := regField w 4
  let b := decodeOperand (field w 10 8) (regField w 0)
  match field w 13 12, field w 11 11 with
  | 1, 0 => withOperand (needDestination b) (.stB ra)
  | 1, _ => withOperand b (.ldB ra)
  | 2, 0 => withOperand (needDestination b) (.stW ra)
  | 2, _ => withOperand b (.ldW ra)
  | _, 0 => if p.wordSize = .n32 then withOperand (needDestination b) (.stL ra) else .error .longOperand
  | _, _ => if p.wordSize = .n32 then withOperand b (.ldL ra) else .error .longOperand

/-- Group IV (R85): CC, Mode, CR. -/
def decodeGroup4 (w : Nat) : Except Reserved (Word → Instr) :=
  match Cond.ofCode (field w 11 8) with
  | none => .error .conditionCode
  | some cc => withOperand (decodeOperand (field w 6 4) (regField w 0)) fun disp => .jcc disp cc

/-- Group V (R86): OP1, Mode, CR. -/
def decodeGroup5 (w : Nat) : Except Reserved (Word → Instr) :=
  let a := decodeOperand (field w 6 4) (regField w 0)
  match field w 10 8 with
  | 0 => .error .operationZero
  | 1 => withOperand (needAddress a) .jea
  | 2 => withOperand (needAddress a) .jsr
  | 3 => withOperand a .trp
  | 4 => withOperand a .tst
  | 5 => withOperand (needDestination a) .tsr
  | 6 => withOperand (needDestination a) .msr
  | _ => withOperand (needDestination a) .mpc

/-- Group VI (R87): OP0, bits 6..0 zero. -/
def decodeGroup6 (w : Nat) : Instr :=
  match field w 10 8 with
  | 0 => .nop
  | 1 => .hlt
  | 2 => .rts
  | 3 => .rti
  | 4 => .clc
  | 5 => .stc
  | 6 => .dsi
  | _ => .eni

/-- Group VII (R88): OPQ, ValueCode, CR. -/
def decodeGroup7 (w : Nat) : Instr :=
  if field w 12 12 = 0 then .ldq (byteField w 4) (regField w 0) else .adq (byteField w 4) (regField w 0)

/-- Group VIII (R89): CC, DispCode. -/
def decodeGroup8 (w : Nat) : Except Reserved (Word → Instr) :=
  match Cond.ofCode (field w 11 8) with
  | none => .error .conditionCode
  | some cc => .ok fun _ => .bcc (byteField w 0) cc

/-- The decoder of R99 on a word of variant A. -/
def decodeNormal (p : Params) (w : Nat) : Except Reserved (Word → Instr) :=
  if field w 15 15 = 1 then .ok fun _ => decodeGroup1 w
  else if field w 15 14 = 1 then
    if field w 13 12 = 0 then decodeGroup2 p w else decodeGroup3 p w
  else if field w 15 13 = 1 then .ok fun _ => decodeGroup7 w
  else if field w 15 12 = 1 then decodeGroup8 w
  else if field w 7 7 = 1 then decodeGroup4 w
  else if field w 11 11 = 1 then decodeGroup5 w
  else if field w 6 0 = 0 then .ok fun _ => decodeGroup6 w
  else .error .groupSixLowBits

/-- The instruction an instruction word stands for, awaiting its extension word, or the reason why the word is reserved. -/
def decodeWord (p : Params) (c : Code) : Except Reserved (Word → Instr) :=
  decodeNormal p (p.encVariant.normalise c.toNat)

/-- The mode has an extension word (R92). -/
def modeHasExtension (mode : Nat) : Bool :=
  mode == 0 || mode == 5 || mode == 6 || mode == 7

/-- A word of variant A is followed by an extension word (R98). -/
def extensionNormal (w : Nat) : Bool :=
  if field w 15 15 = 1 then false
  else if field w 15 14 = 1 then
    if field w 13 12 = 0 then field w 11 8 == 12 || field w 11 8 == 14 else modeHasExtension (field w 10 8)
  else if field w 15 13 = 1 then false
  else if field w 15 12 = 1 then false
  else if field w 7 7 = 1 then modeHasExtension (field w 6 4)
  else if field w 11 11 = 1 then modeHasExtension (field w 6 4)
  else false

/-- The instruction word is followed by an extension word: known from the word alone (R98). -/
def hasExtension (p : Params) (c : Code) : Bool :=
  extensionNormal (p.encVariant.normalise c.toNat)

/-- The instruction word whose bytes are `hi` (lower address) and `lo` (R51, R80). -/
def codeOfBytes (hi lo : Byte) : Code :=
  BitVec.ofNat 16 (hi.toNat * 256 + lo.toNat)

/-- The first `n` bytes as one big-endian number, with the bytes after them; none where the list is shorter. -/
def takeBigEndian : Nat → Nat → List Byte → Option (Nat × List Byte)
  | 0, acc, bs => some (acc, bs)
  | _ + 1, _, [] => none
  | n + 1, acc, b :: bs => takeBigEndian n (acc * 256 + b.toNat) bs

/-- The decoder on bytes: the first instruction and the bytes after it. The word is decoded before IE is taken (R96). -/
def decodeBytes (p : Params) : List Byte → Except Reserved (Instr × List Byte)
  | hi :: lo :: rest =>
    let c := codeOfBytes hi lo
    match decodeWord p c with
    | .error e => .error e
    | .ok f =>
      if hasExtension p c then
        match takeBigEndian p.wordSize.bytes 0 rest with
        | none => .error .truncated
        | some (ie, rest') => .ok (f (p.wordSize.narrow ie), rest')
      else .ok (f 0, rest)
  | _ => .error .truncated

/-! ## Encoding -/

/-- The Mode code of an operand (R92). -/
def Operand.mode : Operand → Nat
  | .imm _ => 0
  | .reg _ => 1
  | .ind _ => 2
  | .postInc _ => 3
  | .preDec _ => 4
  | .direct _ => 5
  | .indexed _ _ => 6
  | .preIndexed _ _ => 7

/-- The register code of an operand: 0000 for modes 000 and 101 (R92). -/
def Operand.code : Operand → Nat
  | .imm _ => 0
  | .reg r => r.val
  | .ind r => r.val
  | .postInc r => r.val
  | .preDec r => r.val
  | .direct _ => 0
  | .indexed _ r => r.val
  | .preIndexed _ r => r.val

/-- Format I (R82). -/
def word1 (op3 : Nat) (sa sb d : Reg) : Nat :=
  0x8000 + op3 * 0x1000 + sa.val * 0x100 + sb.val * 0x10 + d.val

/-- Format II (R83). -/
def word2 (op2 : Nat) (s d : Reg) : Nat :=
  0x4000 + op2 * 0x100 + s.val * 0x10 + d.val

/-- Format III (R84): `dir` is D, 0 = ST, 1 = LD. -/
def word3 (type dir : Nat) (ra : Reg) (b : Operand) : Nat :=
  0x4000 + type * 0x1000 + dir * 0x800 + b.mode * 0x100 + ra.val * 0x10 + b.code

/-- Format IV (R85). -/
def word4 (cc : Cond) (disp : Operand) : Nat :=
  cc.code * 0x100 + 0x80 + disp.mode * 0x10 + disp.code

/-- Format V (R86). -/
def word5 (op1 : Nat) (a : Operand) : Nat :=
  0x800 + op1 * 0x100 + a.mode * 0x10 + a.code

/-- Format VI (R87). -/
def word6 (op0 : Nat) : Nat :=
  op0 * 0x100

/-- Format VII (R88). -/
def word7 (opq : Nat) (value : BitVec 8) (r : Reg) : Nat :=
  0x2000 + opq * 0x1000 + value.toNat * 0x10 + r.val

/-- Format VIII (R89). -/
def word8 (cc : Cond) (disp : BitVec 8) : Nat :=
  0x1000 + cc.code * 0x100 + disp.toNat

/-- The instruction word of an instruction, in variant A. -/
def Instr.word : Instr → Nat
  | .adc sa sb d => word1 0 sa sb d
  | .xor sa sb d => word1 1 sa sb d
  | .div sa sb d => word1 2 sa sb d
  | .mul sa sb d => word1 3 sa sb d
  | .and sa sb d => word1 4 sa sb d
  | .or sa sb d => word1 5 sa sb d
  | .add sa sb d => word1 6 sa sb d
  | .sub sa sb d => word1 7 sa sb d
  | .rlc s d => word2 0 s d
  | .rrc s d => word2 1 s d
  | .srl s d => word2 2 s d
  | .sra s d => word2 3 s d
  | .not s d => word2 4 s d
  | .sbb s d => word2 5 s d
  | .shl s d => word2 6 s d
  | .neg s d => word2 7 s d
  | .inp s d => word2 8 s d
  | .out s d => word2 9 s d
  | .swb s d => word2 10 s d
  | .rlb s d => word2 11 s d
  | .ani s d _ => word2 12 s d
  | .ext s d => word2 13 s d
  | .adi s d _ => word2 14 s d
  | .cmp s d => word2 15 s d
  | .ldB ra b => word3 1 1 ra b
  | .ldW ra b => word3 2 1 ra b
  | .ldL ra b => word3 3 1 ra b
  | .stB ra b => word3 1 0 ra b
  | .stW ra b => word3 2 0 ra b
  | .stL ra b => word3 3 0 ra b
  | .jmp disp => word4 .mp disp
  | .jeq disp => word4 .eq disp
  | .jne disp => word4 .ne disp
  | .jge disp => word4 .ge disp
  | .jle disp => word4 .le disp
  | .jgt disp => word4 .gt disp
  | .jlw disp => word4 .lw disp
  | .jae disp => word4 .ae disp
  | .jbe disp => word4 .be disp
  | .jab disp => word4 .ab disp
  | .jbl disp => word4 .bl disp
  | .jvs disp => word4 .vs disp
  | .jvc disp => word4 .vc disp
  | .jea a => word5 1 a
  | .jsr a => word5 2 a
  | .trp a => word5 3 a
  | .tst a => word5 4 a
  | .tsr a => word5 5 a
  | .msr a => word5 6 a
  | .mpc a => word5 7 a
  | .nop => word6 0
  | .hlt => word6 1
  | .rts => word6 2
  | .rti => word6 3
  | .clc => word6 4
  | .stc => word6 5
  | .dsi => word6 6
  | .eni => word6 7
  | .ldq value r => word7 0 value r
  | .adq value r => word7 1 value r
  | .bmp disp => word8 .mp disp
  | .beq disp => word8 .eq disp
  | .bne disp => word8 .ne disp
  | .bge disp => word8 .ge disp
  | .ble disp => word8 .le disp
  | .bgt disp => word8 .gt disp
  | .blw disp => word8 .lw disp
  | .bae disp => word8 .ae disp
  | .bbe disp => word8 .be disp
  | .bab disp => word8 .ab disp
  | .bbl disp => word8 .bl disp
  | .bvs disp => word8 .vs disp
  | .bvc disp => word8 .vc disp

/-- The instruction word as the machine's variant writes it. -/
def encodeWord (p : Params) (i : Instr) : Code :=
  BitVec.ofNat 16 (p.encVariant.normalise i.word)

/-- The low `n` bytes of a number, most significant byte first (R51). -/
def bigEndian : Nat → Nat → List Byte
  | 0, _ => []
  | n + 1, v => bigEndian n (v / 256) ++ [BitVec.ofNat 8 v]

/-- The bytes of an instruction: its word, then its extension word of T bytes if it has one (R80, R97). -/
def encode (p : Params) (i : Instr) : List Byte :=
  bigEndian 2 (encodeWord p i).toNat ++
    match i.extension with
    | none => []
    | some ie => bigEndian p.wordSize.bytes ie.toNat

/-- The instruction the decoder reads from the table's bits `w` (bit 0 is the least significant bit of the first 16-bit word),
with every bit above `nbits` zero. The opcode table is one for both word sizes and has the rows of Type L, so it is read
with N = 32 (log entry 21). The extension word's two 16-bit words stand in the order of their addresses. -/
def decodeTableWord (nbits w : Nat) : Option Instr :=
  let v := w % 2 ^ nbits
  match decodeBytes (Params.standard .n32)
      (bigEndian 2 (v % 65536) ++ bigEndian 2 (v / 65536 % 65536) ++ bigEndian 2 (v / 65536 / 65536 % 65536)) with
  | .error _ => none
  | .ok (i, _) => some i

end Sys2Proof
end

