-- ==== Sys2Proof/Machine/Fetch.lean ====
section
/-! DEFINITION. Fetching one instruction (R96), and laying an instruction's words into memory. -/

namespace Sys2Proof.Machine

/-- Steps 1 to 4 of R96: the instruction at PC, with PC moved past all of it. The word is decoded before the extension word is
read, and an extension word needs only an even address (R56). -/
def fetch (s : State) : Answer (Instr × State) :=
  if s.pc.toNat % 2 = 1 then .refused .oddPc
  else
    andThen (memReadAligned 2 s s.pc 2) fun w =>
      let c : Code := BitVec.ofNat 16 w.toNat
      match decodeWord s.params c with
      | .error why => .refused (.reservedEncoding why)
      | .ok f =>
        let s1 := s.setPc (s.pc.toNat + 2)
        if hasExtension s.params c then
          andThen (memReadAligned 2 s1 s1.pc s1.ws.bytes) fun ie =>
            .next (f ie, s1.setPc (s1.pc.toNat + s1.ws.bytes))
        else .next (f 0, s1)

/-- Memory with bytes laid from an address on, whatever is populated: what a loader outside the machine does. -/
def layBytes (size : Nat) (m : Memory) (a : Nat) : List Byte → Memory
  | [] => m
  | b :: bs => layBytes size (m.write (a % size) b) (a + 1) bs

/-- The bytes of the instruction whose bits are `w`, bit 0 the least significant bit of the first 16-bit word, bits from
`nbits` on zero: 2 + T bytes, the length of the longest instruction (R80). -/
def instructionBytes (ws : WordSize) (nbits w : Nat) : List Byte :=
  let v := w % 2 ^ nbits
  (bigEndian 2 (v % 65536) ++ bigEndian 2 (v / 65536 % 65536) ++ bigEndian 2 (v / 65536 / 65536 % 65536)).take
    (2 + ws.bytes)

end Sys2Proof.Machine
end

