-- ==== Sys2Proof/Machine/Step.lean ====
section
/-! DEFINITION. One step of the machine: one instruction boundary (R310) and what follows it. -/

namespace Sys2Proof.Machine

/-- One boundary, in the order of R310: Reset while /RST is low, which holds the CPU (R304, R341); else one accepted interrupt; else, unless WF = 1, the next
instruction. A stopped CPU that accepts no interrupt stays as it is (R35). -/
def step (s : State) : Host.Outcome State Fault Refusal :=
  if s.rstLow then .next (takeReset s)
  else
    match s.acceptable with
    | some i => takeInterrupt s i
    | none =>
      if s.sr.WF then .next s
      else andThen (fetch s) fun (i, s1) => exec i s1

/-- The state with the instruction whose bits are `w` (log entry 22) laid at PC, and with nothing that would keep the next step
from fetching it: the CPU runs, no interrupt is pending and /RST is released. -/
def State.withFetchWord (s : State) (nbits w : Nat) : State :=
  { s with
    mem := layBytes s.ws.modulus s.mem s.pc.toNat (instructionBytes s.ws nbits w)
    sr := { s.sr with WF := false }
    pending := []
    rstLow := false }

end Sys2Proof.Machine
end

