-- ==== Sys2Proof/Machine/Environment.lean ====
section
/-! DEFINITION. What the environment may do between two steps of the CPU (R68, R309): drive the lines. It never writes memory.
Its other part, answering IORead, is `Config.portAnswer`. -/

namespace Sys2Proof.Machine

/-- One act of the environment. -/
inductive EnvEvent where
  /-- a falling edge of the line /IRQi -/
  | irqEdge (i : Nat)
  /-- the line /RST goes to level 0 -/
  | rstFalls
  /-- the line /RST goes back to level 1 -/
  | rstRises
  deriving DecidableEq, Repr

/-- A line number put into an ascending list without repeats. -/
def insertLine (i : Nat) : List Nat → List Nat
  | [] => [i]
  | j :: js => if i < j then i :: j :: js else if i = j then j :: js else j :: insertLine i js

/-- The line /RST released: the CPU takes Reset and is held no longer (R341), so that no fall of the line is lost, however soon
the line rises again, and no edge that came while it was 0 stays pending. How long /RST has to be 0, and what an edge during
Reset does, the spec leaves open: both are DESIGN CHOICE (log entry 29). -/
def State.released (s : State) : State :=
  { takeReset s with rstLow := false }

/-- The state after an act of the environment. An edge sets the pending bit of a line that exists; an edge on a line already
pending is lost (R309). An edge while /RST is 0 sets the bit too, and the Reset of the line's release clears it (DESIGN CHOICE,
log entry 29). /RST rises only from 0: a rise of a line that is at 1 is no act. -/
def State.afterEvent (s : State) : EnvEvent → State
  | .irqEdge i => if i < s.params.nirq then { s with pending := insertLine i s.pending } else s
  | .rstFalls => { s with rstLow := true }
  | .rstRises => if s.rstLow then s.released else s

/-- Several acts between two steps, in order. A fall of /RST with a rise after it is a whole Reset (R304, R341; DESIGN CHOICE, log
entry 29). -/
def State.afterEvents (s : State) (es : List EnvEvent) : State :=
  es.foldl State.afterEvent s

/-- A run in an environment: before each step, the acts of one list (R309: at any boundary). -/
def runUnder : List (List EnvEvent) → State → Host.Outcome State Fault Refusal
  | [], s => .next s
  | es :: rest, s => andThen (step (s.afterEvents es)) (runUnder rest)

end Sys2Proof.Machine
end

