-- ==== Sys2Proof/Safety.lean ====
section
/-! DEFINITION. What counts as a safe run and the terms the claims are stated in: the invariant of the machine, which accesses
have a meaning, what an instruction leaves alone, and the results and flags in the spec's own words. -/

namespace Sys2Proof.Machine

/-! ## Runs -/

/-- The step of this state has a meaning: no fault, no refusal. -/
def safeStep (s : State) : Bool :=
  match step s with
  | .next _ => true
  | .fault _ => false
  | .refused _ => false

/-- The end of a run (R345): the CPU is stopped and no interrupt is enabled. -/
def State.ended (s : State) : Bool :=
  s.sr.WF && !s.sr.IF

/-- The environment's act leaves /RST alone. -/
def EnvEvent.isEdge : EnvEvent → Bool
  | .irqEdge _ => true
  | .rstFalls => false
  | .rstRises => false

/-! ## The invariant -/

/-- What every step keeps: each register, PC, each address of memory and each output has N bits (R20, R24, R30, R31), memory is
in its canonical form, and the pending lines are an ascending list of lines that exist (R309). -/
structure State.Inv (s : State) : Prop where
  regs : ∀ r : Reg, s.regs[r.val].toNat < 2 ^ s.ws.bits
  pc : s.pc.toNat < 2 ^ s.ws.bits
  memForm : s.mem.wf = true
  memRange : ∀ c ∈ s.mem, c.1 < 2 ^ s.ws.bits
  pendingOrder : s.pending.Pairwise (· < ·)
  pendingLines : ∀ i ∈ s.pending, i < s.params.nirq
  outputs : ∀ o ∈ s.outputs, o.1.toNat < 2 ^ s.ws.bits ∧ o.2.toNat < 2 ^ s.ws.bits

/-! ## Accesses -/

/-- An `n`-byte read at `a` has a meaning: aligned, every byte populated (R52, R55). -/
def canRead (s : State) (a : Word) (n : Nat) : Bool :=
  decide (a.toNat % n = 0) && (s.span a n).all (populated s.params)

/-- An `n`-byte write at `a` has a meaning: aligned, every byte populated and not read-only (R53, R55). -/
def canWrite (s : State) (a : Word) (n : Nat) : Bool :=
  decide (a.toNat % n = 0) && (s.span a n).all (writable s.params)

/-- The big-endian value of the `n` bytes from `a` on (R51, R52). -/
def State.word (s : State) (a : Word) (n : Nat) : Nat :=
  Memory.readBig s.ws.modulus s.mem a.toNat n

/-- The resolved operand can be read. -/
def readable (s : State) (loc : Resolved) (n : Nat) : Bool :=
  match loc with
  | .imm _ => true
  | .reg _ => true
  | .mem ea => canRead s ea n

/-- The resolved operand can be written. -/
def writableLoc (s : State) (loc : Resolved) (n : Nat) : Bool :=
  match loc with
  | .imm _ => false
  | .reg _ => true
  | .mem ea => canWrite s ea n

/-- The datum of `n` bytes a resolved operand holds. -/
def State.datum (s : State) (loc : Resolved) (n : Nat) : Nat :=
  match loc with
  | .imm v => v.toNat
  | .reg r => (s.reg r).toNat % 256 ^ n
  | .mem ea => s.word ea n

/-- The bytes of memory an operand stands in: none for a register. -/
def State.locSpan (s : State) (loc : Resolved) (n : Nat) : List Nat :=
  match loc with
  | .imm _ => []
  | .reg _ => []
  | .mem ea => s.span ea n

/-- The stack slot `k` words below SP: SP - k × T modulo 2^N (R23). -/
def State.slotBelow (s : State) (k : Nat) : Word :=
  s.ws.narrow ((s.reg sp).toNat + (2 ^ s.ws.bits - k * s.ws.bytes))

/-- The bytes from an address on. -/
def State.bytesFrom (s : State) (a : Word) (n : Nat) : List Byte :=
  (s.span a n).map s.byteAt

/-- The next step fetches: /RST is released, no interrupt is accepted, the CPU is not stopped (R96, R310). -/
def State.fetches (s : State) : Prop :=
  s.rstLow = false ∧ s.acceptable = none ∧ s.sr.WF = false

/-! ## Stops -/

/-- `o` is the stop of an `n`-byte read at `a` (R52, R55): misaligned, or aligned and over an unpopulated byte. The kinds of
stop are log entry 6, their order is log entry 25. -/
def ReadStop {α : Type} (s : State) (a : Word) (n : Nat) (o : Answer α) : Prop :=
  (a.toNat % n ≠ 0 ∧ o = .refused .misaligned) ∨
  (a.toNat % n = 0 ∧ (∃ x ∈ s.span a n, populated s.params x = false) ∧ o = .fault .unmapped)

/-- `o` is the stop of an `n`-byte write at `a` (R53, R55): misaligned, or over an unpopulated byte, or else over a read-only
one. The kinds of stop are log entry 6, their order is log entry 25. -/
def WriteStop {α : Type} (s : State) (a : Word) (n : Nat) (o : Answer α) : Prop :=
  (a.toNat % n ≠ 0 ∧ o = .refused .misaligned) ∨
  (a.toNat % n = 0 ∧
    ((∃ x ∈ s.span a n, populated s.params x = false) ∧ o = .fault .unmapped ∨
      (∀ x ∈ s.span a n, populated s.params x = true) ∧ (∃ x ∈ s.span a n, writable s.params x = false) ∧
        o = .fault .readOnly))

/-- `o` is the stop of the entry of exception `n` from `s`, at the first of its two pushes and its vector read that has no
meaning (R303, R321). -/
def EntryStop (s : State) (n : Nat) (o : Answer State) : Prop :=
  WriteStop s (s.slotBelow 1) s.ws.bytes o ∨
  canWrite s (s.slotBelow 1) s.ws.bytes = true ∧ WriteStop s (s.slotBelow 2) s.ws.bytes o ∨
  canWrite s (s.slotBelow 1) s.ws.bytes = true ∧ canWrite s (s.slotBelow 2) s.ws.bytes = true ∧
    ReadStop s (s.ws.narrow (4 * n)) s.ws.bytes o

/-! ## What is left alone -/

/-- The machine's parameters, its pending bits and the level of /RST. -/
def SameLines (s t : State) : Prop :=
  t.params = s.params ∧ t.pending = s.pending ∧ t.rstLow = s.rstLow

/-- Every register outside `rs` is as it was. -/
def SameRegs (rs : List Reg) (s t : State) : Prop :=
  ∀ r : Reg, r ∉ rs → t.reg r = s.reg r

/-- Every byte of memory outside `addrs` is as it was. -/
def SameBytes (addrs : List Nat) (s t : State) : Prop :=
  ∀ a : Nat, a ∉ addrs → t.byteAt a = s.byteAt a

/-- WF and IF are as they were. -/
def SameModes (s t : State) : Prop :=
  t.sr.WF = s.sr.WF ∧ t.sr.IF = s.sr.IF

/-- What a register instruction leaves alone: the registers outside `rs`, all of memory, PC (which has already advanced), WF
and IF, the lines, and the I/O space. -/
def RegisterFrame (rs : List Reg) (s t : State) : Prop :=
  SameRegs rs s t ∧ SameBytes [] s t ∧ t.pc = s.pc ∧ SameModes s t ∧ SameLines s t ∧ t.outputs = s.outputs

/-- The register an operand's mode modifies, as a list. -/
def autoRegs (op : Operand) : List Reg :=
  (modifiedRegister op).toList

/-- The register an operand's mode modifies has moved by the operand size, up or down (R92), and no operand of another mode moves
one. -/
def AutoMoved (op : Operand) (size : Nat) (s t : State) : Prop :=
  match op with
  | .postInc r => (t.reg r).toNat = ((s.reg r).toNat + size) % 2 ^ s.ws.bits
  | .preDec r => (t.reg r).toNat = ((s.reg r).toNat + 2 ^ s.ws.bits - size) % 2 ^ s.ws.bits
  | _ => True

/-! ## Results and flags -/

/-- ZF is 1 exactly when the result is zero, NF is bit N-1 of the result (R26). -/
def ZeroNegative (s t : State) (r : Word) : Prop :=
  t.sr.ZF = decide (r.toNat = 0) ∧ t.sr.NF = r.getLsbD (s.ws.bits - 1)

/-- ZF and NF from the result, VF and CF cleared (R28). -/
def LogicOutcome (s t : State) (r : Word) : Prop :=
  ZeroNegative s t r ∧ t.sr.VF = false ∧ t.sr.CF = false

/-- The instruction word of `i` is `w` in both variants of the encoding. -/
def EncodedAs (i : Instr) (w : Nat) : Prop :=
  ∀ p : Params, (encodeWord p i).toNat = w

/-- The instruction completes as an addition `a + b + c` on N bits whose result goes to the registers `dest` (R27). VF is the
spec's bit formula. -/
def Adds (i : Instr) (s : State) (dest : List Reg) (a b : Word) (c : Bool) : Prop :=
  ∃ t r, exec i s = .next t ∧
    r.toNat = (a.toNat + b.toNat + c.toNat) % 2 ^ s.ws.bits ∧
    (∀ d ∈ dest, t.reg d = r) ∧
    ZeroNegative s t r ∧
    t.sr.CF = decide (2 ^ s.ws.bits ≤ a.toNat + b.toNat + c.toNat) ∧
    t.sr.VF = (a.getLsbD (s.ws.bits - 1) == b.getLsbD (s.ws.bits - 1) &&
      r.getLsbD (s.ws.bits - 1) != a.getLsbD (s.ws.bits - 1)) ∧
    RegisterFrame dest s t

/-- The instruction completes as a subtraction `a - b - c` on N bits whose result goes to the registers `dest`, CF being the
borrow (R27). VF is the spec's bit formula. -/
def Subtracts (i : Instr) (s : State) (dest : List Reg) (a b : Word) (c : Bool) : Prop :=
  ∃ t r, exec i s = .next t ∧
    (r.toNat : Int) = ((a.toNat : Int) - b.toNat - c.toNat) % 2 ^ s.ws.bits ∧
    (∀ d ∈ dest, t.reg d = r) ∧
    ZeroNegative s t r ∧
    t.sr.CF = decide (a.toNat < b.toNat + c.toNat) ∧
    t.sr.VF = (a.getLsbD (s.ws.bits - 1) != b.getLsbD (s.ws.bits - 1) &&
      r.getLsbD (s.ws.bits - 1) != a.getLsbD (s.ws.bits - 1)) ∧
    RegisterFrame dest s t

/-- The instruction completes with Rd holding, at each bit k below N, `bit k`, with ZF and NF from the result, VF cleared and CF
as given. -/
def PutsBits (i : Instr) (s : State) (d : Reg) (bit : Nat → Bool) (cf : Bool) : Prop :=
  ∃ t, exec i s = .next t ∧
    (∀ k, k < s.ws.bits → (t.reg d).getLsbD k = bit k) ∧
    ZeroNegative s t (t.reg d) ∧ t.sr.VF = false ∧ t.sr.CF = cf ∧
    RegisterFrame [d] s t

/-- Bit `k` of a register that held `old` after an `n`-byte transfer of `datum` into it: the datum below bit 8n, and above it
what NARROW_EXT says (R183). -/
def filledBit (p : Params) (n : Nat) (old : Word) (datum : Nat) (k : Nat) : Bool :=
  if k < 8 * n then datum.testBit k
  else
    match p.narrowExt with
    | .zero => false
    | .sign => datum.testBit (8 * n - 1)
    | .merge => old.getLsbD k

/-- The number SR reads as: WF, IF, ZF, VF, CF, NF with weights 0x20, 0x10, 8, 4, 2, 1 (R25). -/
def srNumber (f : SR) : Nat :=
  f.WF.toNat * 0x20 + f.IF.toNat * 0x10 + f.ZF.toNat * 8 + f.VF.toNat * 4 + f.CF.toNat * 2 + f.NF.toNat

/-- From `s` the exception `n` has been entered with return address `ret`, SR having been `saved` (R303): two words pushed, SR
above the return address, IF cleared, PC at the handler, and no other register, byte or line changed but the registers
`moved`. -/
def Entered (s t : State) (saved : SR) (n ret : Nat) (moved : List Reg) : Prop :=
  t.reg sp = s.slotBelow 2 ∧
    t.word (s.slotBelow 1) s.ws.bytes = srNumber saved ∧
    t.word (s.slotBelow 2) s.ws.bytes = ret % 2 ^ s.ws.bits ∧
    t.pc.toNat = t.word (s.ws.narrow (4 * n)) s.ws.bytes / 2 * 2 ∧
    t.sr = { saved with IF := false } ∧
    SameRegs (sp :: moved) s t ∧
    SameBytes (s.span (s.slotBelow 1) s.ws.bytes ++ s.span (s.slotBelow 2) s.ws.bytes) s t ∧
    t.params = s.params ∧ t.rstLow = s.rstLow ∧ t.outputs = s.outputs

/-- The two pushes and the vector read of the entry of exception `n` have a meaning (R303, R321). -/
def canEnter (s : State) (n : Nat) : Bool :=
  canWrite s (s.slotBelow 1) s.ws.bytes && canWrite s (s.slotBelow 2) s.ws.bytes &&
    canRead s (s.ws.narrow (4 * n)) s.ws.bytes

/-- The thirteen jumps with the truth of their conditions, as the card's table gives them (R201). -/
def jumpTable (f : SR) (disp : Operand) : List (Instr × Bool) :=
  [(.jmp disp, true),
   (.jeq disp, f.ZF == true),
   (.jne disp, f.ZF == false),
   (.jge disp, f.NF == f.VF),
   (.jle disp, f.NF != f.VF || f.ZF == true),
   (.jgt disp, f.NF == f.VF && f.ZF == false),
   (.jlw disp, f.NF != f.VF),
   (.jae disp, f.CF == false),
   (.jbe disp, f.CF == true || f.ZF == true),
   (.jab disp, f.CF == false && f.ZF == false),
   (.jbl disp, f.CF == true),
   (.jvs disp, f.VF == true),
   (.jvc disp, f.VF == false)]

/-- The thirteen branches with the truth of their conditions (R201, R280). -/
def branchTable (f : SR) (disp : BitVec 8) : List (Instr × Bool) :=
  [(.bmp disp, true),
   (.beq disp, f.ZF == true),
   (.bne disp, f.ZF == false),
   (.bge disp, f.NF == f.VF),
   (.ble disp, f.NF != f.VF || f.ZF == true),
   (.bgt disp, f.NF == f.VF && f.ZF == false),
   (.blw disp, f.NF != f.VF),
   (.bae disp, f.CF == false),
   (.bbe disp, f.CF == true || f.ZF == true),
   (.bab disp, f.CF == false && f.ZF == false),
   (.bbl disp, f.CF == true),
   (.bvs disp, f.VF == true),
   (.bvc disp, f.VF == false)]

/-- The loads with their sizes in bytes (R185 to R187). -/
def loadTable (ra : Reg) (b : Operand) : List (Nat × Instr) :=
  [(1, .ldB ra b), (2, .ldW ra b), (4, .ldL ra b)]

/-- The stores with their sizes in bytes (R188 to R190). -/
def storeTable (ra : Reg) (b : Operand) : List (Nat × Instr) :=
  [(1, .stB ra b), (2, .stW ra b), (4, .stL ra b)]

/-- `i` reads the datum of its operand `b`, of `n` bytes, and is none of the forms refused whatever the data: LD, Jcc, TRP, TST,
TSR. -/
def ReadsOperand (s : State) (b : Operand) (n : Nat) (i : Instr) : Prop :=
  (∃ ra, (n, i) ∈ loadTable ra b ∧ (n = 4 → s.ws = .n32) ∧ modifiedRegister b ≠ some ra) ∨
  (n = s.ws.bytes ∧
    ((∃ taken, (i, taken) ∈ jumpTable s.sr b) ∨ (i = .trp b ∧ modifiedRegister b ≠ some sp) ∨ i = .tst b ∨ i = .tsr b))

/-- `i` writes its operand `b`, of `n` bytes, and is none of the forms refused whatever the data: ST, TSR, MSR, MPC. -/
def WritesOperand (s : State) (b : Operand) (n : Nat) (i : Instr) : Prop :=
  (∃ ra, (n, i) ∈ storeTable ra b ∧ (n = 4 → s.ws = .n32) ∧ modifiedRegister b ≠ some ra) ∨
  (n = s.ws.bytes ∧ (i = .tsr b ∨ i = .msr b ∨ i = .mpc b))

/-! ## The words of the opcode table -/

/-- The words of group I with three register codes (R82, R121 to R128): 1, OP3, CRsa, CRsb, CRd. -/
def groupOneWords (sa sb d : Reg) : List (Instr × Nat) :=
  let codes := sa.val * 0x100 + sb.val * 0x10 + d.val
  [(.adc sa sb d, 0x8000 + codes),
   (.xor sa sb d, 0x9000 + codes),
   (.div sa sb d, 0xA000 + codes),
   (.mul sa sb d, 0xB000 + codes),
   (.and sa sb d, 0xC000 + codes),
   (.or sa sb d, 0xD000 + codes),
   (.add sa sb d, 0xE000 + codes),
   (.sub sa sb d, 0xF000 + codes)]

/-- The words of group II with two register codes (R83, R141 to R156): 0100, OP2, CRs, CRd. -/
def groupTwoWords (s d : Reg) (ie : Word) : List (Instr × Nat) :=
  let codes := s.val * 0x10 + d.val
  [(.rlc s d, 0x4000 + codes),
   (.rrc s d, 0x4100 + codes),
   (.srl s d, 0x4200 + codes),
   (.sra s d, 0x4300 + codes),
   (.not s d, 0x4400 + codes),
   (.sbb s d, 0x4500 + codes),
   (.shl s d, 0x4600 + codes),
   (.neg s d, 0x4700 + codes),
   (.inp s d, 0x4800 + codes),
   (.out s d, 0x4900 + codes),
   (.swb s d, 0x4A00 + codes),
   (.rlb s d, 0x4B00 + codes),
   (.ani s d ie, 0x4C00 + codes),
   (.ext s d, 0x4D00 + codes),
   (.adi s d ie, 0x4E00 + codes),
   (.cmp s d, 0x4F00 + codes)]

/-- The words of group IV on one operand (R85, R202 to R214): 0000, CC, 1, Mode, CR. -/
def groupFourWords (a : Operand) : List (Instr × Nat) :=
  let codes := a.mode * 0x10 + a.code
  [(.jmp a, 0x0180 + codes),
   (.jeq a, 0x0280 + codes),
   (.jne a, 0x0380 + codes),
   (.jge a, 0x0480 + codes),
   (.jle a, 0x0580 + codes),
   (.jgt a, 0x0680 + codes),
   (.jlw a, 0x0780 + codes),
   (.jae a, 0x0880 + codes),
   (.jbe a, 0x0980 + codes),
   (.jab a, 0x0A80 + codes),
   (.jbl a, 0x0B80 + codes),
   (.jvs a, 0x0C80 + codes),
   (.jvc a, 0x0D80 + codes)]

/-- The words of group V on one operand (R86, R231 to R237): 0000, 1, OP1, 0, Mode, CR. -/
def groupFiveWords (a : Operand) : List (Instr × Nat) :=
  let codes := a.mode * 0x10 + a.code
  [(.jea a, 0x0900 + codes),
   (.jsr a, 0x0A00 + codes),
   (.trp a, 0x0B00 + codes),
   (.tst a, 0x0C00 + codes),
   (.tsr a, 0x0D00 + codes),
   (.msr a, 0x0E00 + codes),
   (.mpc a, 0x0F00 + codes)]

/-- The words of group VI (R87, R251 to R258): 00000, OP0, 00000000. -/
def groupSixWords : List (Instr × Nat) :=
  [(.nop, 0x0000),
   (.hlt, 0x0100),
   (.rts, 0x0200),
   (.rti, 0x0300),
   (.clc, 0x0400),
   (.stc, 0x0500),
   (.dsi, 0x0600),
   (.eni, 0x0700)]

/-- The words of group III in variant A and in variant B (R84, R91, R185 to R190, D2): 01 or 00, Type, D, ModeB, CRa, CRb. -/
def groupThreeWords (ra : Reg) (b : Operand) : List (Instr × Nat × Nat) :=
  let codes := b.mode * 0x100 + ra.val * 0x10 + b.code
  [(.ldB ra b, 0x5800 + codes, 0x1800 + codes),
   (.ldW ra b, 0x6800 + codes, 0x2800 + codes),
   (.ldL ra b, 0x7800 + codes, 0x3800 + codes),
   (.stB ra b, 0x5000 + codes, 0x1000 + codes),
   (.stW ra b, 0x6000 + codes, 0x2000 + codes),
   (.stL ra b, 0x7000 + codes, 0x3000 + codes)]

/-- The words of group VII in variant A and in variant B (R88, R271, R272, D2): 001 or 011, OPQ, ValueCode, CR. -/
def groupSevenWords (v : BitVec 8) (r : Reg) : List (Instr × Nat × Nat) :=
  let codes := v.toNat * 0x10 + r.val
  [(.ldq v r, 0x2000 + codes, 0x6000 + codes),
   (.adq v r, 0x3000 + codes, 0x7000 + codes)]

/-- The words of group VIII in variant A and in variant B (R89, R201, R281 to R293, D2): 0001 or 0101, CC, DispCode. -/
def groupEightWords (disp : BitVec 8) : List (Instr × Nat × Nat) :=
  [(.bmp disp, 0x1100 + disp.toNat, 0x5100 + disp.toNat),
   (.beq disp, 0x1200 + disp.toNat, 0x5200 + disp.toNat),
   (.bne disp, 0x1300 + disp.toNat, 0x5300 + disp.toNat),
   (.bge disp, 0x1400 + disp.toNat, 0x5400 + disp.toNat),
   (.ble disp, 0x1500 + disp.toNat, 0x5500 + disp.toNat),
   (.bgt disp, 0x1600 + disp.toNat, 0x5600 + disp.toNat),
   (.blw disp, 0x1700 + disp.toNat, 0x5700 + disp.toNat),
   (.bae disp, 0x1800 + disp.toNat, 0x5800 + disp.toNat),
   (.bbe disp, 0x1900 + disp.toNat, 0x5900 + disp.toNat),
   (.bab disp, 0x1A00 + disp.toNat, 0x5A00 + disp.toNat),
   (.bbl disp, 0x1B00 + disp.toNat, 0x5B00 + disp.toNat),
   (.bvs disp, 0x1C00 + disp.toNat, 0x5C00 + disp.toNat),
   (.bvc disp, 0x1D00 + disp.toNat, 0x5D00 + disp.toNat)]

/-- The operand of each Mode code, with its register code and its extension word (R92). -/
def modeCodes (ie : Word) (r : Reg) : List (Operand × Nat × Nat × Option Word) :=
  [(.imm ie, 0, 0, some ie),
   (.reg r, 1, r.val, none),
   (.ind r, 2, r.val, none),
   (.postInc r, 3, r.val, none),
   (.preDec r, 4, r.val, none),
   (.direct ie, 5, 0, some ie),
   (.indexed ie r, 6, r.val, some ie),
   (.preIndexed ie r, 7, r.val, some ie)]

/-- The instruction word of `i` is `a` in variant A of the encoding and `b` in variant B (R81, D2). -/
def EncodedInVariants (i : Instr) (a b : Nat) : Prop :=
  ∀ p : Params, (p.encVariant = .a → (encodeWord p i).toNat = a) ∧ (p.encVariant = .b → (encodeWord p i).toNat = b)

/-- An instruction word read as the word of variant A (R81, D2): variant B exchanges the prefixes 0001, 0010, 0011 with 0101,
0110, 0111. -/
def asVariantA (v : EncVariant) (w : Nat) : Nat :=
  if v = .b ∧ w < 0x8000 ∧ w / 0x1000 % 4 ≠ 0 then (w + 0x4000) % 0x8000 else w

end Sys2Proof.Machine
end

