-- ==== Sys2Proof/Certificates/Slice0/Obligations.lean ====
section
/-! DEFINITION. The statements for the provers: what the spec's rules say, in terms of `exec`, `step` and the decoder. -/

open Sys2Proof Sys2Proof.Machine

/-! ## Decoding and encoding -/

/-- R82 to R89, R97, R99: decoding the bytes of a well-formed instruction, whatever follows them, gives that instruction and
what follows, on every machine and in both variants of the encoding. -/
def Obligations.DecodeOfEncode : Prop :=
  ∀ (p : Params) (i : Instr) (rest : List Byte), i.wf p = true →
    decodeBytes p (encode p i ++ rest) = .ok (i, rest)

/-- R99, R100: what the decoder answers is well formed, and its encoding is exactly the bytes that were read: no two words
stand for one instruction and no bit is dropped. -/
def Obligations.EncodeOfDecode : Prop :=
  ∀ (p : Params) (bytes rest : List Byte) (i : Instr), decodeBytes p bytes = .ok (i, rest) →
    i.wf p = true ∧ encode p i ++ rest = bytes

/-- R98: the length of an instruction is known from its instruction word alone: 2 + T bytes under the three tests of the rule
on the word (of variant A), otherwise 2. -/
def Obligations.LengthFromTheWord : Prop :=
  ∀ (p : Params) (i : Instr), i.wf p = true → p.encVariant = .a →
    let w := (encodeWord p i).toNat
    (encode p i).length =
      if (w / 0x1000 = 4 ∧ (w / 0x100 % 16 = 12 ∨ w / 0x100 % 16 = 14)) ∨
          ((w / 0x1000 = 5 ∨ w / 0x1000 = 6 ∨ w / 0x1000 = 7) ∧ w / 0x100 % 8 ∈ [0, 5, 6, 7]) ∨
          (w / 0x1000 = 0 ∧ (w / 0x80 % 2 = 1 ∨ w / 0x800 % 2 = 1) ∧ w / 0x10 % 8 ∈ [0, 5, 6, 7])
      then 2 + p.wordSize.bytes else 2

/-- R100: a word is reserved exactly where one of the rule's eight items holds of it, and the decoder's reason is that item's own.
Each item is written as the rule gives it, on the word as variant A has it (D2, log entry 9). That the reasons are told apart
(log entry 8), and that where two items hold the one that stands first in the rule's list is answered (log entry 25), are the
model's choices (DESIGN CHOICE). -/
def Obligations.ReservedWordsAreTheEightItems : Prop :=
  ∀ (p : Params) (c : Code),
    let w := asVariantA p.encVariant c.toNat
    let group4 := w / 0x1000 = 0 ∧ w / 0x80 % 2 = 1
    let group5 := w / 0x1000 = 0 ∧ w / 0x80 % 2 = 0 ∧ w / 0x800 % 2 = 1
    let group6 := w / 0x1000 = 0 ∧ w / 0x80 % 2 = 0 ∧ w / 0x800 % 2 = 0
    let group3 := w / 0x1000 = 5 ∨ w / 0x1000 = 6 ∨ w / 0x1000 = 7
    let item1 := (group4 ∨ w / 0x1000 = 1) ∧ w / 0x100 % 16 ∈ [0, 14, 15]
    let item2 := group5 ∧ w / 0x100 % 8 = 0
    let item3 := group6 ∧ w % 0x80 ≠ 0
    let item4 := w / 0x1000 = 7 ∧ p.wordSize = .n16
    let item5 := (group3 ∧ w / 0x100 % 8 ∈ [0, 5] ∨ (group4 ∨ group5) ∧ w / 0x10 % 8 ∈ [0, 5]) ∧ w % 16 ≠ 0
    let item6 :=
      group3 ∧ w / 0x800 % 2 = 0 ∧ w / 0x100 % 8 = 0 ∨ group5 ∧ w / 0x100 % 8 ∈ [5, 6, 7] ∧ w / 0x10 % 8 = 0
    let item7 := group5 ∧ w / 0x100 % 8 ∈ [1, 2] ∧ w / 0x10 % 8 ∈ [0, 1]
    let item8 := w / 0x100 ∈ [0x4B, 0x4D] ∧ p.hasRlbExt = false
    ((∃ e, decodeWord p c = .error e) ↔ item1 ∨ item2 ∨ item3 ∨ item4 ∨ item5 ∨ item6 ∨ item7 ∨ item8) ∧
    (decodeWord p c = .error .conditionCode ↔ item1) ∧
    (decodeWord p c = .error .operationZero ↔ item2) ∧
    (decodeWord p c = .error .groupSixLowBits ↔ item3) ∧
    (decodeWord p c = .error .longOperand ↔ item4) ∧
    (decodeWord p c = .error .registerField ↔ item5 ∧ ¬item1 ∧ ¬item2 ∧ ¬item4) ∧
    (decodeWord p c = .error .immediateDestination ↔ item6 ∧ ¬item4 ∧ ¬item5) ∧
    (decodeWord p c = .error .noEffectiveAddress ↔ item7 ∧ ¬item5) ∧
    (decodeWord p c = .error .notImplemented ↔ item8)

/-- R81 to R92, R97, R98: the instruction word of each of the 73 instructions, field by field, the eight Mode codes with their
register codes and extension words, which instructions have an extension word, and the order of an instruction's bytes: the
word, most significant byte first, then IE in the same order. Groups I, II, IV, V and VI have one word in both variants of the encoding; the words of groups III, VII and VIII are the
spec's own reconstruction (D2, D3), followed by log entry 9, variant B exchanging the prefixes. -/
def Obligations.EveryRowHasItsWord : Prop :=
  ∀ (sa sb d : Reg) (ie : Word) (a : Operand) (v : BitVec 8),
    (∀ e ∈ groupOneWords sa sb d ++ groupTwoWords sa d ie ++ groupFourWords a ++ groupFiveWords a ++ groupSixWords,
      EncodedAs e.1 e.2) ∧
    (∀ e ∈ groupThreeWords sa a ++ groupSevenWords v d ++ groupEightWords v, EncodedInVariants e.1 e.2.1 e.2.2) ∧
    (∀ e ∈ modeCodes ie d, e.1.mode = e.2.1 ∧ e.1.code = e.2.2.1 ∧ e.1.extension = e.2.2.2) ∧
    (∀ (p : Params) (i : Instr),
      (encode p i)[0]? = some (BitVec.ofNat 8 ((encodeWord p i).toNat / 256)) ∧
      (encode p i)[1]? = some (BitVec.ofNat 8 (encodeWord p i).toNat) ∧
      ∀ x k, i.extension = some x → k < p.wordSize.bytes →
        (encode p i)[2 + k]? = some (BitVec.ofNat 8 (x.toNat / 256 ^ (p.wordSize.bytes - 1 - k)))) ∧
    (∀ e ∈ groupThreeWords sa a, e.1.extension = a.extension) ∧
    (∀ e ∈ groupFourWords a ++ groupFiveWords a, e.1.extension = a.extension) ∧
    (∀ e ∈ groupTwoWords sa d ie,
      e.1.extension = if e.1 = .ani sa d ie ∨ e.1 = .adi sa d ie then some ie else none) ∧
    (∀ e ∈ groupOneWords sa sb d ++ groupSixWords, e.1.extension = none) ∧
    (∀ e ∈ groupSevenWords v d ++ groupEightWords v, e.1.extension = none)

/-- Twelve words that the spec prints decode to the instructions they stand beside (R121, R127, R156, R177, R178,
R187, R202, R235, R254, R271, R280; 0x0811 is the reserved OP1 = 000 of R238). They are read by decodeTableWord, so by the
machine with N = 32: the model's choice (DESIGN CHOICE, log entry 21). -/
def Obligations.ExampleWordsDecode : Prop :=
  decodeTableWord 16 0xEFA0 = some (.add 15 10 0) ∧
  decodeTableWord 16 0x8123 = some (.adc 1 2 3) ∧
  decodeTableWord 16 0x4F12 = some (.cmp 1 2) ∧
  decodeTableWord 16 0x6B1F = some (.ldW 1 (.postInc 15)) ∧
  decodeTableWord 16 0x5412 = some (.stB 1 (.preDec 2)) ∧
  decodeTableWord 16 0x7A12 = some (.ldL 1 (.ind 2)) ∧
  decodeTableWord 16 0x0193 = some (.jmp (.reg 3)) ∧
  decodeTableWord 16 0x0D22 = some (.tsr (.ind 2)) ∧
  decodeTableWord 16 0x0300 = some .rti ∧
  decodeTableWord 16 0x2FF1 = some (.ldq 0xFF 1) ∧
  decodeTableWord 16 0x11FE = some (.bmp 0xFE) ∧
  decodeTableWord 16 0x0811 = none

/-! ## Steps -/

/-- R96: where the bytes at an even PC are the encoding of a well-formed instruction and the step fetches, the step is exec of
that instruction, at the state whose PC has moved past all of it. -/
def Obligations.StepRunsTheDecodedInstruction : Prop :=
  ∀ (s : State) (i : Instr), s.fetches → i.wf s.params = true → s.pc.toNat % 2 = 0 →
    (s.span s.pc (encode s.params i).length).all (populated s.params) = true →
    s.bytesFrom s.pc (encode s.params i).length = encode s.params i →
    step s = exec i (s.setPc (s.pc.toNat + (encode s.params i).length))

/-- R310, R35: the order of events at a boundary: Reset, else one interrupt, else nothing while WF = 1, else the next
instruction. -/
def Obligations.BoundaryOrder : Prop :=
  ∀ s : State,
    (s.rstLow = true → step s = .next (takeReset s)) ∧
    (s.rstLow = false → ∀ i, s.acceptable = some i → step s = takeInterrupt s i) ∧
    (s.rstLow = false → s.acceptable = none → s.sr.WF = true → step s = .next s) ∧
    (s.fetches → step s = andThen (fetch s) fun r => exec r.1 r.2)

/-- R56: at an odd PC a step that would fetch is refused. -/
def Obligations.OddPcIsRefused : Prop :=
  ∀ s : State, s.fetches → s.pc.toNat % 2 = 1 → step s = .refused .oddPc

/-- R100, R96: a step that fetches a reserved word is refused, and the refusal carries the decoder's reason. The reasons are the
model's own names for the items of R100 (DESIGN CHOICE, log entry 8); ReservedWordsAreTheEightItems says which item has which. -/
def Obligations.ReservedWordIsRefused : Prop :=
  ∀ (s : State) (why : Reserved), s.fetches → s.pc.toNat % 2 = 0 → canRead s s.pc 2 = true →
    decodeWord s.params (BitVec.ofNat 16 (s.word s.pc 2)) = .error why →
    step s = .refused (.reservedEncoding why)

/-- R96, R52: at an even PC a step that fetches stops on an unpopulated byte of the instruction word, and where the word is there
and begins an instruction, on an unpopulated byte of that instruction's extension word. That the stop is a fault is the model's
choice (DESIGN CHOICE, log entry 6). -/
def Obligations.UnpopulatedFetchStops : Prop :=
  ∀ s : State, s.fetches → s.pc.toNat % 2 = 0 →
    ((∃ x ∈ s.span s.pc 2, populated s.params x = false) → step s = .fault .unmapped) ∧
    (∀ i : Instr, i.wf s.params = true → s.bytesFrom s.pc 2 = (encode s.params i).take 2 →
      (∃ x ∈ s.span s.pc (encode s.params i).length, populated s.params x = false) → step s = .fault .unmapped)

/-! ## Reset and interrupts -/

/-- The reset state: SR is 0, PC is 0xFFFA, no line is pending (R304, R340). The other three clauses are the model's choices: no
byte of memory is listed (DESIGN CHOICE, log entry 4: the spec states no content of memory), N is 16 (log entry 1), /RST is
released (log entry 16). -/
def Obligations.ResetState : Prop :=
  srNumber State.reset.sr = 0 ∧ State.reset.pc = 0xFFFA ∧ State.reset.pending = [] ∧ State.reset.mem = [] ∧
    State.reset.ws = .n16 ∧ State.reset.rstLow = false

/-- R304, R309: while /RST is 0 a step takes Reset: all six flags are cleared, PC is START, no line stays pending, memory, the level
of /RST and the parameters are unchanged. START is 0xFFFA for N = 16; for N = 32 the spec leaves it a parameter, the opaque
Config.start32 (log entry 18). Nothing is said of the general registers. -/
def Obligations.ResetEvent : Prop :=
  ∀ s : State, s.rstLow = true →
    ∃ t, step s = .next t ∧ t.sr = SR.cleared ∧ (s.ws = .n16 → t.pc = 0xFFFA) ∧ (s.ws = .n32 → t.pc = Config.start32) ∧
      t.pending = [] ∧ t.mem = s.mem ∧ t.params = s.params ∧ t.rstLow = true ∧ t.outputs = s.outputs

/-- R341, R304: whatever edges come between a fall of /RST and its rise, even where no step comes between them, the release
leaves the state right after Reset: all six flags cleared, so that even WF = 1 is overridden, PC at START (0xFFFA for N = 16,
the opaque Config.start32 for N = 32, log entry 18), no line pending, /RST at 1, one free value drawn, memory, the parameters
and the outputs unchanged; and the next step fetches. That no fall is too short and that no edge outlives the Reset are the
model's choices (DESIGN CHOICE, log entry 29); the count of draws is the model's own (log entry 10). Nothing is said of the
general registers. -/
def Obligations.ReleaseTakesReset : Prop :=
  ∀ (s : State) (edges : List EnvEvent), (∀ e ∈ edges, e.isEdge = true) → ∀ t : State,
    (t = s.afterEvents (.rstFalls :: edges ++ [.rstRises]) ∨ s.rstLow = true ∧ t = s.afterEvents (edges ++ [.rstRises])) →
    t.sr = SR.cleared ∧ (s.ws = .n16 → t.pc = 0xFFFA) ∧ (s.ws = .n32 → t.pc = Config.start32) ∧
      t.pending = [] ∧ t.rstLow = false ∧ t.mem = s.mem ∧
      t.params = s.params ∧ t.outputs = s.outputs ∧ t.draws = s.draws + 1 ∧ t.fetches ∧
      step t = andThen (fetch t) fun r => exec r.1 r.2

/-- R305, R303, R301, R302: an accepted interrupt of line i clears its pending bit and WF, and enters exception i + 32 with the
address of the next instruction. The saved SR has WF = 0 and IF = 1. -/
def Obligations.InterruptEntry : Prop :=
  ∀ (s : State) (i : Nat), s.rstLow = false → s.mem.wf = true → s.acceptable = some i → canEnter s (i + 32) = true →
    ∃ t, step s = .next t ∧ Entered s t { s.sr with WF := false } (i + 32) s.pc.toNat [] ∧
      t.pending = s.pending.erase i

/-- R309, R310: an interrupt is accepted exactly when IF = 1 and some line is pending, and its line is a pending one. Under the
default, empty IRQ_PRIORITY it is the lowest pending line. Under any IRQ_PRIORITY it is the first line of the list that is
pending, and where none of the list is, the lowest pending line: that form of the parameter is the model's choice (DESIGN
CHOICE, log entry 14). -/
def Obligations.LowestLineFirst : Prop :=
  ∀ s : State,
    (s.acceptable = none ↔ s.sr.IF = false ∨ s.pending = []) ∧
    (s.params.irqPriority = [] →
      ∀ i, s.acceptable = some i ↔ s.sr.IF = true ∧ i ∈ s.pending ∧ ∀ j ∈ s.pending, i ≤ j) ∧
    (∀ i, s.acceptable = some i ↔ s.sr.IF = true ∧ i ∈ s.pending ∧
      ((∃ before after, s.params.irqPriority = before ++ i :: after ∧ ∀ j ∈ before, j ∉ s.pending) ∨
        ((∀ j ∈ s.params.irqPriority, j ∉ s.pending) ∧ ∀ j ∈ s.pending, i ≤ j)))

/-- R309: a falling edge sets the pending bit of a line that exists and no other, changes nothing else, and a second edge is
lost. -/
def Obligations.EdgeSetsOnePendingBit : Prop :=
  ∀ (s : State) (i : Nat), i < s.params.nirq →
    (∀ j, j ∈ (s.afterEvent (.irqEdge i)).pending ↔ j = i ∨ j ∈ s.pending) ∧
    s.afterEvent (.irqEdge i) = { s with pending := (s.afterEvent (.irqEdge i)).pending } ∧
    (s.afterEvent (.irqEdge i)).afterEvent (.irqEdge i) = s.afterEvent (.irqEdge i)

/-- R302, R303: whatever was pushed and whatever the vector holds, PC is even after the common sequence has entered an exception. -/
def Obligations.HandlerAddressIsEven : Prop :=
  ∀ (s t : State) (n : Nat) (ret : Word), enter s n ret = .next t → t.pc.toNat % 2 = 0

/-- R312, R254: RTI in the state an exception was entered into gives back the return address, all six flags and every
register. -/
def Obligations.RtiUndoesEntry : Prop :=
  ∀ (s t : State) (n : Nat) (ret : Word), s.mem.wf = true → enter s n ret = .next t →
    ∃ u, exec .rti t = .next u ∧ u.pc.toNat = ret.toNat % 2 ^ s.ws.bits ∧ u.sr = s.sr ∧ SameRegs [] s u ∧
      SameLines s u ∧ u.mem = t.mem

/-- R345, R252, R309: once WF = 1 and IF = 0, whatever edges arrive and however many steps follow, the state stays as it is but
for the pending bits. -/
def Obligations.EndedRunStaysEnded : Prop :=
  ∀ (events : List (List EnvEvent)) (s : State), s.ended = true → s.rstLow = false →
    (∀ es ∈ events, ∀ e ∈ es, e.isEdge = true) →
    ∃ t, runUnder events s = .next t ∧ t = { s with pending := t.pending }

/-! ## Invariants and whole-machine rules -/

/-- Every step keeps the invariant, from every state that has it (R20, R24, R30, R58, R309). -/
def Obligations.StepKeepsInvariant : Prop :=
  ∀ s t : State, s.Inv → step s = .next t → t.Inv

/-- The state after reset has the invariant, on every machine (N = 16 and N = 32). -/
def Obligations.ResetHasInvariant : Prop :=
  State.reset.Inv ∧ ∀ p : Params, (State.resetWith p).Inv

/-- R68, R341: an act of the environment keeps the invariant, memory, the parameters and the outputs. An edge changes pending bits
only and a fall of /RST the level of that line only; so does a rise of a line that is at 1, which changes nothing. The release
of /RST is a Reset and leaves of the rest only what takeReset leaves; that it draws one free value is the model's choice (log
entries 10 and 29). -/
def Obligations.EnvironmentKeepsInvariant : Prop :=
  ∀ (s : State) (e : EnvEvent), s.Inv →
    (s.afterEvent e).Inv ∧ (s.afterEvent e).mem = s.mem ∧ (s.afterEvent e).params = s.params ∧
      (s.afterEvent e).outputs = s.outputs ∧
      (e.isEdge = true → s.afterEvent e = { s with pending := (s.afterEvent e).pending }) ∧
      (e = .rstFalls → s.afterEvent e = { s with rstLow := true }) ∧
      (e = .rstRises → s.rstLow = false → s.afterEvent e = s) ∧
      (e = .rstRises → s.rstLow = true →
        s.afterEvent e = { takeReset s with rstLow := false } ∧ (s.afterEvent e).draws = s.draws + 1)

/-- R53, R61: no step changes a byte that is not writable, and none changes the parameters of the machine. -/
def Obligations.ReadOnlyMemoryNeverChanges : Prop :=
  ∀ s t : State, step s = .next t →
    t.params = s.params ∧ ∀ a : Nat, writable s.params a = false → t.byteAt a = s.byteAt a

/-- R11: WF and IF change only by HLT, ENI, DSI, RTI and TRP's entry: every other instruction keeps both. -/
def Obligations.ModesChangeOnlyByFiveInstructions : Prop :=
  ∀ (i : Instr) (s t : State), exec i s = .next t →
    i ≠ .hlt → i ≠ .eni → i ≠ .dsi → i ≠ .rti → (∀ a, i ≠ .trp a) → SameModes s t

/-- R28, last row of its table: Jcc, Bcc, JEA, JSR, MSR, MPC, NOP and RTS change no flag. -/
def Obligations.FlaglessInstructionsKeepSR : Prop :=
  ∀ (i : Instr) (s t : State), exec i s = .next t →
    (i = .nop ∨ i = .rts ∨ (∃ a, i = .jea a ∨ i = .jsr a ∨ i = .msr a ∨ i = .mpc a) ∨
      (∃ d cc, i = Instr.jcc d cc) ∨ (∃ d cc, i = Instr.bcc d cc)) →
    t.sr = s.sr

/-- R30: memory is written by ST, JSR, TRP, TSR, MSR and MPC only. -/
def Obligations.MemoryWrittenOnlyByStoresAndPushes : Prop :=
  ∀ (i : Instr) (s t : State), exec i s = .next t →
    (∀ ra b, i ≠ .stB ra b ∧ i ≠ .stW ra b ∧ i ≠ .stL ra b) →
    (∀ a, i ≠ .jsr a ∧ i ≠ .trp a ∧ i ≠ .tsr a ∧ i ≠ .msr a ∧ i ≠ .mpc a) →
    t.mem = s.mem

/-- R31, R60, R309: only OUT hands data to the I/O space, and no instruction touches the parameters, the pending bits or /RST. That
only INP (R60), MUL (R124) and DIV (R123) draw a free value is said of the model's own counter (DESIGN CHOICE, log entry 10). -/
def Obligations.InstructionsLeaveLinesAndPortsAlone : Prop :=
  ∀ (i : Instr) (s t : State), exec i s = .next t →
    SameLines s t ∧ ((∀ a b, i ≠ .out a b) → t.outputs = s.outputs) ∧
      ((∀ a b, i ≠ .inp a b) → (∀ a b d, i ≠ .mul a b d ∧ i ≠ .div a b d) → t.draws = s.draws)

/-! ## Memory and stack -/

/-- R52: MemRead of 1, 2 or 4 bytes gives the big-endian value of the bytes, most significant first, each address modulo 2^N;
a misaligned address is refused and an unpopulated byte stops the machine. That the first is a refusal and the second a fault
(log entry 6), and that misaligned is answered where both hold (log entry 25), are the model's choices (DESIGN CHOICE). -/
def Obligations.MemReadIsBigEndian : Prop :=
  ∀ (s : State) (a : Word) (n : Nat), n = 1 ∨ n = 2 ∨ n = 4 →
    (canRead s a n = true → ∃ v, memRead s a n = .next v ∧ v.toNat < 256 ^ n ∧
      ∀ k, k < n → v.toNat / 256 ^ (n - 1 - k) % 256 = (s.byteAt ((a.toNat + k) % 2 ^ s.ws.bits)).toNat) ∧
    (a.toNat % n ≠ 0 → memRead s a n = .refused .misaligned) ∧
    (a.toNat % n = 0 → (∃ x ∈ s.span a n, populated s.params x = false) → memRead s a n = .fault .unmapped)

/-- R53, R51: MemWrite of 1, 2 or 4 bytes stores the low bytes of the value, most significant at the lowest address, and no
other byte; a misaligned address is refused, an unpopulated byte stops the machine, and so does a read-only one. That the last two are
faults (log entry 6), and the order misaligned, unmapped, readOnly where several hold (log entry 25), are the model's choices
(DESIGN CHOICE). -/
def Obligations.MemWriteIsBigEndian : Prop :=
  ∀ (s : State) (a : Word) (n : Nat) (v : Word), n = 1 ∨ n = 2 ∨ n = 4 → s.mem.wf = true →
    (canWrite s a n = true → ∃ t, memWrite s a n v = .next t ∧
      (∀ k, k < n → (t.byteAt ((a.toNat + k) % 2 ^ s.ws.bits)).toNat = v.toNat / 256 ^ (n - 1 - k) % 256) ∧
      SameBytes (s.span a n) s t ∧ t = { s with mem := t.mem }) ∧
    (a.toNat % n ≠ 0 → memWrite s a n v = .refused .misaligned) ∧
    (a.toNat % n = 0 → (∃ x ∈ s.span a n, populated s.params x = false) → memWrite s a n v = .fault .unmapped) ∧
    (a.toNat % n = 0 → (∀ x ∈ s.span a n, populated s.params x = true) →
      (∃ x ∈ s.span a n, writable s.params x = false) → memWrite s a n v = .fault .readOnly)

/-- R92: the eight rows of the mode table: the operand or its address, and the register the mode moves before the access. -/
def Obligations.ModeTable : Prop :=
  ∀ (s : State) (ie : Word) (r : Reg) (size : Nat), size = 1 ∨ size = 2 ∨ size = 4 → size ≤ s.ws.bytes →
    resolve s (.imm ie) size = .next (.imm (BitVec.ofNat 32 (ie.toNat % 256 ^ size)), s) ∧
    resolve s (.reg r) size = .next (.reg r, s) ∧
    resolve s (.ind r) size = .next (.mem (s.reg r), s) ∧
    resolve s (.postInc r) size = .next (.mem (s.reg r), s) ∧
    (∃ ea : Word, ea.toNat = ((s.reg r).toNat + 2 ^ s.ws.bits - size) % 2 ^ s.ws.bits ∧
      resolve s (.preDec r) size = .next (.mem ea, s.setReg r ea)) ∧
    (∃ ea : Word, ea.toNat = ie.toNat % 2 ^ s.ws.bits ∧ resolve s (.direct ie) size = .next (.mem ea, s)) ∧
    (∃ ea : Word, ea.toNat = (ie.toNat + (s.reg r).toNat) % 2 ^ s.ws.bits ∧
      resolve s (.indexed ie r) size = .next (.mem ea, s) ∧
      (canRead s ea s.ws.bytes = true →
        resolve s (.preIndexed ie r) size = .next (.mem (BitVec.ofNat 32 (s.word ea s.ws.bytes)), s)))

/-! ## Group I -/

/-- R121, R127, R155, R272: ADC, ADD, ADI and ADQ complete from every state as N-bit additions with the flags of `add_flags`, and
the words of ADC, ADD and ADI are as the rules print them. -/
def Obligations.AdditionsSetSumAndFlags : Prop :=
  ∀ (s : State) (sa sb d : Reg) (ie : Word) (v : BitVec 8),
    Adds (.adc sa sb d) s [d] (s.reg sa) (s.reg sb) s.sr.CF ∧
    Adds (.add sa sb d) s [d] (s.reg sa) (s.reg sb) false ∧
    (ie.toNat < 2 ^ s.ws.bits → Adds (.adi sa d ie) s [d] (s.reg sa) ie false) ∧
    (∃ k : Word, (k.toNat : Int) = v.toInt % 2 ^ s.ws.bits ∧ Adds (.adq v d) s [d] (s.reg d) k false) ∧
    EncodedAs (.adc sa sb d) (0x8000 + sa.val * 0x100 + sb.val * 0x10 + d.val) ∧
    EncodedAs (.add sa sb d) (0xE000 + sa.val * 0x100 + sb.val * 0x10 + d.val) ∧
    EncodedAs (.adi sa d ie) (0x4E00 + sa.val * 0x10 + d.val)

/-- R128, R146, R148, R156: SUB, SBB, NEG and CMP complete from every state as N-bit subtractions with the flags of
`sub_flags`; CMP writes no register. -/
def Obligations.SubtractionsSetDifferenceAndFlags : Prop :=
  ∀ (s : State) (sa sb d : Reg),
    Subtracts (.sub sa sb d) s [d] (s.reg sa) (s.reg sb) false ∧
    Subtracts (.sbb sa d) s [d] (s.reg sa) 0 s.sr.CF ∧
    Subtracts (.neg sa d) s [d] 0 (s.reg sa) false ∧
    Subtracts (.cmp sa sb) s [] (s.reg sa) (s.reg sb) false

/-- R122 (the spec's own decision D11): XOR completes from every state with the exclusive or, bit by bit, VF and CF cleared, ZF
and NF from the result. -/
def Obligations.XorBitByBit : Prop :=
  ∀ (s : State) (sa sb d : Reg),
    PutsBits (.xor sa sb d) s d (fun k => (s.reg sa).getLsbD k != (s.reg sb).getLsbD k) false

/-- R125, R126, R145, R153: AND, OR, NOT and ANI complete from every state with the result bit by bit, VF and CF
cleared, ZF and NF from the result, and their words are as the rules print them. -/
def Obligations.LogicResultsBitByBit : Prop :=
  ∀ (s : State) (sa sb d : Reg) (ie : Word),
    PutsBits (.and sa sb d) s d (fun k => (s.reg sa).getLsbD k && (s.reg sb).getLsbD k) false ∧
    PutsBits (.or sa sb d) s d (fun k => (s.reg sa).getLsbD k || (s.reg sb).getLsbD k) false ∧
    PutsBits (.not sa d) s d (fun k => !(s.reg sa).getLsbD k) false ∧
    PutsBits (.ani sa d ie) s d (fun k => (s.reg sa).getLsbD k && ie.getLsbD k) false ∧
    EncodedAs (.and sa sb d) (0xC000 + sa.val * 0x100 + sb.val * 0x10 + d.val) ∧
    EncodedAs (.or sa sb d) (0xD000 + sa.val * 0x100 + sb.val * 0x10 + d.val) ∧
    EncodedAs (.not sa d) (0x4400 + sa.val * 0x10 + d.val) ∧
    EncodedAs (.ani sa d ie) (0x4C00 + sa.val * 0x10 + d.val)

/-- R124: MUL completes from every state: Rd is the signed product modulo 2^N, VF is 1 exactly when the exact product is out of
the signed range. Nothing is said of CF, which is free: one free value is drawn for it, on the model's own counter (DESIGN
CHOICE, log entry 10). -/
def Obligations.MulLowProductAndOverflow : Prop :=
  ∀ (s : State) (sa sb d : Reg),
    let p := signed s.ws (s.reg sa) * signed s.ws (s.reg sb)
    ∃ t, exec (.mul sa sb d) s = .next t ∧
      ((t.reg d).toNat : Int) = p % 2 ^ s.ws.bits ∧ ZeroNegative s t (t.reg d) ∧
      (t.sr.VF = true ↔ (p < -(2 ^ (s.ws.bits - 1)) ∨ 2 ^ (s.ws.bits - 1) ≤ p)) ∧
      t.draws = s.draws + 1 ∧ RegisterFrame [d] s t

/-- R123 with DIV_ROUND = truncate: the three refused cases, in the rule's order, and otherwise the quotient in Rd and the
remainder in Rsa, with rem the difference a - q × b, smaller than the divisor and of the dividend's sign or 0. VF is 0.
Nothing is said of CF, which is free: one free value is drawn for it, on the model's own counter (DESIGN CHOICE, log entry
10). -/
def Obligations.DivQuotientAndRemainder : Prop :=
  ∀ (s : State) (sa sb d : Reg), s.params.divRound = .truncate →
    let a := signed s.ws (s.reg sa)
    let b := signed s.ws (s.reg sb)
    (b = 0 → exec (.div sa sb d) s = .refused .divisionByZero) ∧
    (a = -(2 ^ (s.ws.bits - 1)) → b = -1 → exec (.div sa sb d) s = .refused .divisionOverflow) ∧
    (b ≠ 0 → ¬(a = -(2 ^ (s.ws.bits - 1)) ∧ b = -1) → d = sa → exec (.div sa sb d) s = .refused .divisionOverlap) ∧
    (b ≠ 0 → ¬(a = -(2 ^ (s.ws.bits - 1)) ∧ b = -1) → d ≠ sa →
      ∃ t, exec (.div sa sb d) s = .next t ∧
        a = signed s.ws (t.reg d) * b + signed s.ws (t.reg sa) ∧
        (signed s.ws (t.reg sa)).natAbs < b.natAbs ∧
        (signed s.ws (t.reg sa) = 0 ∨ (signed s.ws (t.reg sa) < 0 ↔ a < 0)) ∧
        ZeroNegative s t (t.reg d) ∧ t.sr.VF = false ∧
        t.draws = s.draws + 1 ∧ RegisterFrame [d, sa] s t)

/-! ## Group II -/

/-- R141, R142: RLC and RRC complete from every state: the bits move by one place, the old CF enters, the bit that leaves goes to
CF, VF is cleared. -/
def Obligations.RotatesGoThroughCarry : Prop :=
  ∀ (s : State) (src d : Reg),
    let a := s.reg src
    let n := s.ws.bits
    PutsBits (.rlc src d) s d (fun k => if k = 0 then s.sr.CF else a.getLsbD (k - 1)) (a.getLsbD (n - 1)) ∧
    PutsBits (.rrc src d) s d (fun k => if k = n - 1 then s.sr.CF else a.getLsbD (k + 1)) (a.getLsbD 0)

/-- R143, R144, R147: SRL, SRA and SHL complete from every state: the bits move by one place, 0 or (SRA) the sign bit enters, VF
is cleared. That CF takes the bit that leaves is the spec's own decision D8, that SRA keeps the sign bit its decision
D9. -/
def Obligations.ShiftsMoveBitsByOne : Prop :=
  ∀ (s : State) (src d : Reg),
    let a := s.reg src
    let n := s.ws.bits
    PutsBits (.srl src d) s d (fun k => if k = n - 1 then false else a.getLsbD (k + 1)) (a.getLsbD 0) ∧
    PutsBits (.sra src d) s d (fun k => if k = n - 1 then a.getLsbD (n - 1) else a.getLsbD (k + 1)) (a.getLsbD 0) ∧
    PutsBits (.shl src d) s d (fun k => if k = 0 then false else a.getLsbD (k - 1)) (a.getLsbD (n - 1))

/-- R151, R152, R154: SWB exchanges the outer bytes, RLB rotates by four places to the left, EXT repeats bit 7 above it; SWB
completes from every state, RLB and EXT on every machine that has them. -/
def Obligations.ByteMovesBitByBit : Prop :=
  ∀ (s : State) (src d : Reg),
    let a := s.reg src
    let n := s.ws.bits
    PutsBits (.swb src d) s d
      (fun k => if k < 8 then a.getLsbD (k + (n - 8)) else if n - 8 ≤ k then a.getLsbD (k - (n - 8)) else a.getLsbD k)
      false ∧
    (s.params.hasRlbExt = true →
      PutsBits (.rlb src d) s d (fun k => if k < 4 then a.getLsbD (k + (n - 4)) else a.getLsbD (k - 4)) false ∧
      PutsBits (.ext src d) s d (fun k => if k < 8 then a.getLsbD k else a.getLsbD 7) false) ∧
    (s.params.hasRlbExt = false →
      exec (.rlb src d) s = .refused (.reservedEncoding .notImplemented) ∧
      exec (.ext src d) s = .refused (.reservedEncoding .notImplemented))

/-- R149, R150: INP completes from every state with whatever the environment answers for the port Rs; OUT completes from every
state, hands Rs to the port Rd and writes no register. The flags describe the datum. Each INP draws an answer of its own (R60:
chosen at each read), and OUT draws none: the counter of draws and the list of outputs are the model's own (DESIGN CHOICE, log
entries 10 and 13). -/
def Obligations.PortReadsAndWrites : Prop :=
  ∀ (s : State) (src d : Reg),
    (∃ t, exec (.inp src d) s = .next t ∧
      t.reg d = s.ws.narrow (Config.portAnswer s.draws (s.reg src)).toNat ∧
      t.draws = s.draws + 1 ∧ LogicOutcome s t (t.reg d) ∧ RegisterFrame [d] s t) ∧
    (∃ t, exec (.out src d) s = .next t ∧
      t.outputs = (s.reg d, s.reg src) :: s.outputs ∧ t.draws = s.draws ∧ LogicOutcome s t (s.reg src) ∧
      SameRegs [] s t ∧ SameBytes [] s t ∧ t.pc = s.pc ∧ SameModes s t ∧ SameLines s t)

/-- R156, R201: after CMP Rs, Rd the conditions compare Rs, on the left, with Rd: EQ and NE, the signed orders GE, LE, GT, LW and
the unsigned orders AE, BE, AB, BL. -/
def Obligations.ConditionsAfterCompare : Prop :=
  ∀ (s : State) (src d : Reg),
    let a := s.reg src
    let b := s.reg d
    ∃ t, exec (.cmp src d) s = .next t ∧
      (t.sr.holds .eq = true ↔ a = b) ∧ (t.sr.holds .ne = true ↔ a ≠ b) ∧
      (t.sr.holds .ge = true ↔ signed s.ws a ≥ signed s.ws b) ∧ (t.sr.holds .le = true ↔ signed s.ws a ≤ signed s.ws b) ∧
      (t.sr.holds .gt = true ↔ signed s.ws a > signed s.ws b) ∧ (t.sr.holds .lw = true ↔ signed s.ws a < signed s.ws b) ∧
      (t.sr.holds .ae = true ↔ a.toNat ≥ b.toNat) ∧ (t.sr.holds .be = true ↔ a.toNat ≤ b.toNat) ∧
      (t.sr.holds .ab = true ↔ a.toNat > b.toNat) ∧ (t.sr.holds .bl = true ↔ a.toNat < b.toNat)

/-! ## Group III -/

/-- R171, R183, R185 to R187: LD.B, LD.W and (at N = 32) LD.L complete where operand B is readable: Ra holds the datum, with its
upper bits as NARROW_EXT says, the flags describe Ra, the mode moves its register by the operand size, and nothing else
changes. R171 gives the flags for NARROW_EXT = zero (the spec's own decisions D12 and D13), where NF is 0 after every narrow
load. That under sign and merge too they describe the N-bit value Ra then holds is the model's reading of D13, which R171 does
not say (DESIGN CHOICE, log entry 12). -/
def Obligations.LoadsFillRa : Prop :=
  ∀ (s s1 : State) (ra : Reg) (b : Operand) (loc : Resolved) (n : Nat) (i : Instr), (n, i) ∈ loadTable ra b →
    (n = 4 → s.ws = .n32) → modifiedRegister b ≠ some ra → resolve s b n = .next (loc, s1) → readable s1 loc n = true →
    ∃ t, exec i s = .next t ∧
      (∀ k, k < s.ws.bits → (t.reg ra).getLsbD k = filledBit s.params n (s.reg ra) (s1.datum loc n) k) ∧
      LogicOutcome s t (t.reg ra) ∧ AutoMoved b n s t ∧ RegisterFrame (ra :: autoRegs b) s t

/-- R172, R188 to R190: ST.B, ST.W and (at N = 32) ST.L complete where operand B is writable: the low bytes of Ra go, big endian,
to the bytes at the operand's address and no others, or to the register of mode 001; the flags describe the datum,
extended with zeros; the mode moves its register by the operand size. R172 gives all this for NARROW_EXT = zero (the spec's own
decisions D12 and D13). That under sign and merge a narrow ST fills the upper bits of a register as a load does, and that its
flags are still those of the datum extended with zeros, is the model's reading (DESIGN CHOICE, log entry 12). -/
def Obligations.StoresWriteOperandB : Prop :=
  ∀ (s s1 : State) (ra : Reg) (b : Operand) (loc : Resolved) (n : Nat) (i : Instr), (n, i) ∈ storeTable ra b →
    (n = 4 → s.ws = .n32) → s.mem.wf = true → modifiedRegister b ≠ some ra → resolve s b n = .next (loc, s1) →
    writableLoc s1 loc n = true →
    ∃ t v, exec i s = .next t ∧ v = BitVec.ofNat 32 ((s.reg ra).toNat % 256 ^ n) ∧
      (∀ ea, loc = .mem ea → t.word ea n = v.toNat ∧ SameRegs (autoRegs b) s t) ∧
      (∀ r, loc = .reg r → SameRegs [r] s t ∧
        ∀ k, k < s.ws.bits → (t.reg r).getLsbD k = filledBit s.params n (s.reg r) v.toNat k) ∧
      SameBytes (s.locSpan loc n) s t ∧ AutoMoved b n s t ∧ LogicOutcome s t v ∧
      t.pc = s.pc ∧ SameModes s t ∧ SameLines s t ∧ t.outputs = s.outputs

/-- R182, R232, R233, R93: the forms the spec refuses whatever the data: Ra = Rb under auto-modification, JSR and TRP through an
auto-modified SP, an immediate destination, an operand without an address, and Type L at N = 16. At N = 32 Type L is refused in
the forms the other sizes are. -/
def Obligations.RefusedForms : Prop :=
  ∀ (s : State) (ra r : Reg) (b : Operand) (ie : Word),
    (b = .postInc ra ∨ b = .preDec ra → ∀ i ∈ [Instr.ldB ra b, .ldW ra b, .stB ra b, .stW ra b],
      exec i s = .refused .transferOverlap) ∧
    (s.ws = .n32 → b = .postInc ra ∨ b = .preDec ra → ∀ i ∈ [Instr.ldL ra b, .stL ra b],
      exec i s = .refused .transferOverlap) ∧
    (b = .postInc sp ∨ b = .preDec sp → exec (.jsr b) s = .refused .autoModifiedSp ∧ exec (.trp b) s = .refused .autoModifiedSp) ∧
    (∀ i ∈ [Instr.stB ra (.imm ie), .stW ra (.imm ie), .tsr (.imm ie), .msr (.imm ie), .mpc (.imm ie)],
      exec i s = .refused .immediateDestination) ∧
    (s.ws = .n32 → exec (.stL ra (.imm ie)) s = .refused .immediateDestination) ∧
    (∀ i ∈ [Instr.jea (.imm ie), .jea (.reg r), .jsr (.imm ie), .jsr (.reg r)], exec i s = .refused .noEffectiveAddress) ∧
    (s.ws = .n16 → ∀ i ∈ [Instr.ldL ra b, .stL ra b], exec i s = .refused (.reservedEncoding .longOperand))

/-! ## Stops on data -/

/-- R52, R53, R55, R92: an instruction stops, by name, where an access to its operand has no meaning: the pointer of mode 111, the
datum LD, Jcc, TRP, TST and TSR read, the destination ST, TSR, MSR and MPC write. Which stop is a fault (log entry 6) and which
one is answered where several hold (log entry 25) are the model's choices (DESIGN CHOICE). -/
def Obligations.UnusableOperandStops : Prop :=
  ∀ (s : State) (b : Operand) (n : Nat) (i : Instr),
    (∀ ie r, b = .preIndexed ie r →
      ReadsOperand s b n i ∨ WritesOperand s b n i ∨ (n = s.ws.bytes ∧ (i = .jea b ∨ i = .jsr b)) →
      canRead s (s.ws.narrow (ie.toNat + (s.reg r).toNat)) s.ws.bytes = false →
      ReadStop s (s.ws.narrow (ie.toNat + (s.reg r).toNat)) s.ws.bytes (exec i s)) ∧
    (∀ (loc : Resolved) (s1 : State), resolve s b n = .next (loc, s1) →
      (ReadsOperand s b n i → readable s1 loc n = false → ∃ ea, loc = .mem ea ∧ ReadStop s ea n (exec i s)) ∧
      (∀ ea, loc = .mem ea → WritesOperand s b n i → canWrite s ea n = false → WriteStop s ea n (exec i s)))

/-- R23, R52, R53, R321: where a stack slot or a vector has no meaning as an access, what uses it stops by name: the push of JSR,
the pop of RTS, the two of RTI in their order, and the two pushes and the vector read of an exception's entry, by TRP or by an
interrupt. Which stop is a fault (log entry 6) and which one is answered where several hold (log entry 25) are the model's
choices (DESIGN CHOICE). -/
def Obligations.UnusableStackStops : Prop :=
  ∀ s : State,
    let above := s.ws.narrow ((s.reg sp).toNat + s.ws.bytes)
    (∀ (a : Operand) (ea : Word) (s1 : State), modifiedRegister a ≠ some sp → resolve s a s.ws.bytes = .next (.mem ea, s1) →
      canWrite s (s.slotBelow 1) s.ws.bytes = false → WriteStop s (s.slotBelow 1) s.ws.bytes (exec (.jsr a) s)) ∧
    (canRead s (s.reg sp) s.ws.bytes = false →
      ReadStop s (s.reg sp) s.ws.bytes (exec .rts s) ∧ ReadStop s (s.reg sp) s.ws.bytes (exec .rti s)) ∧
    (canRead s (s.reg sp) s.ws.bytes = true → canRead s above s.ws.bytes = false →
      ReadStop s above s.ws.bytes (exec .rti s)) ∧
    (∀ (a : Operand) (loc : Resolved) (s1 : State), modifiedRegister a ≠ some sp →
      resolve s a s.ws.bytes = .next (loc, s1) → readable s1 loc s.ws.bytes = true →
      canEnter s (s1.datum loc s.ws.bytes) = false → EntryStop s (s1.datum loc s.ws.bytes) (exec (.trp a) s)) ∧
    (∀ i, s.rstLow = false → s.acceptable = some i → canEnter s (i + 32) = false → EntryStop s (i + 32) (step s))

/-! ## Groups IV and VIII -/

/-- R200 to R214: each of the thirteen jumps completes where its displacement is readable: PC moves by the displacement exactly
when the card's condition holds, the mode moves its register by T in either case, and no flag changes. -/
def Obligations.JumpsFollowTheConditionTable : Prop :=
  ∀ (s s1 : State) (disp : Operand) (loc : Resolved) (i : Instr) (taken : Bool), (i, taken) ∈ jumpTable s.sr disp →
    resolve s disp s.ws.bytes = .next (loc, s1) → readable s1 loc s.ws.bytes = true →
    ∃ t, exec i s = .next t ∧
      t.pc = (if taken then s.ws.narrow (s.pc.toNat + s1.datum loc s.ws.bytes) else s.pc) ∧
      t.sr = s.sr ∧ AutoMoved disp s.ws.bytes s t ∧ SameRegs (autoRegs disp) s t ∧ SameBytes [] s t ∧ SameLines s t ∧
      t.outputs = s.outputs

/-- R280 to R293: each of the thirteen branches completes from every state: PC moves by the sign-extended displacement, in bytes,
exactly when the card's condition holds, and nothing else changes. -/
def Obligations.BranchesFollowTheConditionTable : Prop :=
  ∀ (s : State) (disp : BitVec 8) (i : Instr) (taken : Bool), (i, taken) ∈ branchTable s.sr disp →
    ∃ t, exec i s = .next t ∧
      (taken = true → (t.pc.toNat : Int) = ((s.pc.toNat : Int) + disp.toInt) % 2 ^ s.ws.bits) ∧
      (taken = false → t.pc = s.pc) ∧ t = { s with pc := t.pc }

/-! ## Group V -/

/-- R231: JEA completes on every operand that has an address: PC is that address, the mode moves its register by T, and nothing
else changes. -/
def Obligations.JeaJumpsToTheAddress : Prop :=
  ∀ (s s1 : State) (a : Operand) (ea : Word), resolve s a s.ws.bytes = .next (.mem ea, s1) →
    ∃ t, exec (.jea a) s = .next t ∧ t.pc = ea ∧ t.sr = s.sr ∧ AutoMoved a s.ws.bytes s t ∧
      SameRegs (autoRegs a) s t ∧ SameBytes [] s t ∧ SameLines s t ∧ t.outputs = s.outputs

/-- R232: JSR completes on every operand that has an address, where the stack can be written and the mode does not modify SP:
the address of the next instruction is pushed and PC is the operand's address, computed before the push. -/
def Obligations.JsrPushesTheReturnAddress : Prop :=
  ∀ (s s1 : State) (a : Operand) (ea : Word), s.mem.wf = true → modifiedRegister a ≠ some sp →
    resolve s a s.ws.bytes = .next (.mem ea, s1) → canWrite s (s.slotBelow 1) s.ws.bytes = true →
    ∃ t, exec (.jsr a) s = .next t ∧ t.pc = ea ∧ t.sr = s.sr ∧
      t.reg sp = s.slotBelow 1 ∧ t.word (s.slotBelow 1) s.ws.bytes = s.pc.toNat % 2 ^ s.ws.bits ∧
      AutoMoved a s.ws.bytes s t ∧ SameRegs (sp :: autoRegs a) s t ∧
      SameBytes (s.span (s.slotBelow 1) s.ws.bytes) s t ∧ SameLines s t ∧ t.outputs = s.outputs

/-- R253, R232: RTS in the state a JSR left gives back the address of the instruction after the JSR and SP as it was. -/
def Obligations.RtsReturnsPastJsr : Prop :=
  ∀ (s t : State) (a : Operand), s.mem.wf = true → exec (.jsr a) s = .next t →
    ∃ u, exec .rts t = .next u ∧ u.pc.toNat = s.pc.toNat % 2 ^ s.ws.bits ∧ u.reg sp = s.reg sp ∧ u.mem = t.mem

/-- R233, R303, R306: TRP completes where its operand is readable, the mode does not modify SP and the entry's accesses have a
meaning: exception n, n being the operand, is entered with the address of the next instruction, whatever IF is. -/
def Obligations.TrpEntersTheException : Prop :=
  ∀ (s s1 : State) (a : Operand) (loc : Resolved), s.mem.wf = true → modifiedRegister a ≠ some sp →
    resolve s a s.ws.bytes = .next (loc, s1) → readable s1 loc s.ws.bytes = true →
    canEnter s (s1.datum loc s.ws.bytes) = true →
    ∃ t, exec (.trp a) s = .next t ∧ Entered s t s.sr (s1.datum loc s.ws.bytes) s.pc.toNat (autoRegs a) ∧
      AutoMoved a s.ws.bytes s t ∧ t.pending = s.pending

/-- R234: TST completes where its operand is readable, in every mode: CF and VF cleared, ZF and NF from the operand, which is
only read. Its word is as the rule prints it. -/
def Obligations.TstSetsFlagsFromTheOperand : Prop :=
  ∀ (s s1 : State) (a : Operand) (loc : Resolved), resolve s a s.ws.bytes = .next (loc, s1) →
    readable s1 loc s.ws.bytes = true →
    ∃ t, exec (.tst a) s = .next t ∧ LogicOutcome s t (BitVec.ofNat 32 (s1.datum loc s.ws.bytes)) ∧
      AutoMoved a s.ws.bytes s t ∧ RegisterFrame (autoRegs a) s t ∧
      EncodedAs (.tst a) (0x0C00 + a.mode * 0x10 + a.code)

/-- R235: TSR completes where its operand can be read and written: the flags of TST from the old value, then the operand is 0
and no other byte or register changes. -/
def Obligations.TsrTestsThenClears : Prop :=
  ∀ (s s1 : State) (a : Operand) (loc : Resolved), s.mem.wf = true → resolve s a s.ws.bytes = .next (loc, s1) →
    readable s1 loc s.ws.bytes = true → writableLoc s1 loc s.ws.bytes = true →
    ∃ t, exec (.tsr a) s = .next t ∧ LogicOutcome s t (BitVec.ofNat 32 (s1.datum loc s.ws.bytes)) ∧
      (∀ ea, loc = .mem ea → t.word ea s.ws.bytes = 0 ∧ SameRegs (autoRegs a) s t) ∧
      (∀ r, loc = .reg r → t.reg r = 0 ∧ SameRegs [r] s t) ∧
      SameBytes (s.locSpan loc s.ws.bytes) s t ∧ AutoMoved a s.ws.bytes s t ∧ t.pc = s.pc ∧ SameModes s t ∧
      SameLines s t ∧ t.outputs = s.outputs

/-- R236, R237: MSR and MPC complete where their operand can be written: it takes the image of SR, or the address of the next
instruction. No flag changes. -/
def Obligations.MsrAndMpcStoreSrAndPc : Prop :=
  ∀ (s s1 : State) (a : Operand) (loc : Resolved) (i : Instr) (v : Nat),
    (i, v) ∈ [(Instr.msr a, srNumber s.sr), (.mpc a, s.pc.toNat % 2 ^ s.ws.bits)] →
    s.mem.wf = true → resolve s a s.ws.bytes = .next (loc, s1) → writableLoc s1 loc s.ws.bytes = true →
    ∃ t, exec i s = .next t ∧ t.sr = s.sr ∧
      (∀ ea, loc = .mem ea → t.word ea s.ws.bytes = v ∧ SameRegs (autoRegs a) s t) ∧
      (∀ r, loc = .reg r → (t.reg r).toNat = v ∧ SameRegs [r] s t) ∧
      SameBytes (s.locSpan loc s.ws.bytes) s t ∧ AutoMoved a s.ws.bytes s t ∧ t.pc = s.pc ∧ SameLines s t ∧
      t.outputs = s.outputs

/-! ## Groups VI and VII -/

/-- R251, R252, R255 to R258: NOP, HLT, CLC, STC, DSI and ENI complete from every state, and each changes the one flag it names
and nothing else. Their words are as the rules print them. -/
def Obligations.OneFlagInstructions : Prop :=
  ∀ s : State,
    exec .nop s = .next s ∧
    exec .hlt s = .next { s with sr := { s.sr with WF := true } } ∧
    exec .clc s = .next { s with sr := { s.sr with CF := false } } ∧
    exec .stc s = .next { s with sr := { s.sr with CF := true } } ∧
    exec .dsi s = .next { s with sr := { s.sr with IF := false } } ∧
    exec .eni s = .next { s with sr := { s.sr with IF := true } } ∧
    EncodedAs .nop 0x0000 ∧ EncodedAs .hlt 0x0100 ∧ EncodedAs .clc 0x0400 ∧ EncodedAs .stc 0x0500 ∧
    EncodedAs .dsi 0x0600 ∧ EncodedAs .eni 0x0700

/-- R253, R254: RTS completes where the stack word is readable and pops PC; RTI where two are and pops PC, then SR, of which bits
5 to 0 are loaded and the others ignored. No other register and no byte changes. -/
def Obligations.ReturnsPopTheStack : Prop :=
  ∀ s : State,
    let above := s.ws.narrow ((s.reg sp).toNat + s.ws.bytes)
    (canRead s (s.reg sp) s.ws.bytes = true →
      ∃ t, exec .rts s = .next t ∧ t.pc.toNat = s.word (s.reg sp) s.ws.bytes ∧ t.reg sp = above ∧ t.sr = s.sr ∧
        SameRegs [sp] s t ∧ SameBytes [] s t ∧ SameLines s t ∧ t.outputs = s.outputs) ∧
    (canRead s (s.reg sp) s.ws.bytes = true → canRead s above s.ws.bytes = true →
      ∃ t, exec .rti s = .next t ∧ t.pc.toNat = s.word (s.reg sp) s.ws.bytes ∧
        (t.reg sp).toNat = ((s.reg sp).toNat + 2 * s.ws.bytes) % 2 ^ s.ws.bits ∧
        srNumber t.sr = s.word above s.ws.bytes % 64 ∧
        SameRegs [sp] s t ∧ SameBytes [] s t ∧ SameLines s t ∧ t.outputs = s.outputs)

/-- R271, R94: LDQ completes from every state: the register holds the sign-extended constant, VF and CF are cleared. -/
def Obligations.LdqLoadsTheSignedConstant : Prop :=
  ∀ (s : State) (v : BitVec 8) (r : Reg),
    ∃ t, exec (.ldq v r) s = .next t ∧ ((t.reg r).toNat : Int) = v.toInt % 2 ^ s.ws.bits ∧
      LogicOutcome s t (t.reg r) ∧ RegisterFrame [r] s t

/-- R184: at N = 16 a push by ST.W Ra, -(SP) followed by a pop by LD.W Rb, (SP)+ moves the value of Ra to Rb and gives SP back. -/
def Obligations.PushThenPopMovesTheValue : Prop :=
  ∀ (s : State) (ra rb : Reg), s.ws = .n16 → s.mem.wf = true → ra ≠ sp → rb ≠ sp →
    canWrite s (s.slotBelow 1) 2 = true →
    ∃ t u, exec (.stW ra (.preDec sp)) s = .next t ∧ exec (.ldW rb (.postInc sp)) t = .next u ∧
      u.reg rb = s.reg ra ∧ u.reg sp = s.reg sp ∧ SameRegs [rb] s u
end

