-- ==== Sys2Proof/Laws/Decode.lean ====
section
/-! SUPPORT. The two variants of the encoding, and the fields of an encoded word, down to arithmetic. -/

namespace Sys2Proof

/-- Variant B in plain arithmetic. -/
theorem EncVariant.normalise_b (w : Nat) :
    EncVariant.b.normalise w =
      if w / 32768 % 2 = 1 then w else if w / 4096 % 4 = 0 then w else if w / 16384 % 2 = 0 then w + 16384 else w - 16384 :=
  rfl

/-- Exchanging the prefixes stays within 16 bits. -/
theorem EncVariant.normalise_lt (v : EncVariant) (w : Nat) (h : w < 65536) : v.normalise w < 65536 := by
  cases v with
  | a => exact h
  | b =>
    rw [EncVariant.normalise_b]
    split_ifs <;> omega

/-- Exchanging the prefixes twice gives the word back. -/
theorem EncVariant.normalise_normalise (v : EncVariant) (w : Nat) (h : w < 65536) : v.normalise (v.normalise w) = w := by
  cases v with
  | a => rfl
  | b =>
    rw [EncVariant.normalise_b w]
    split_ifs <;> rw [EncVariant.normalise_b] <;> split_ifs <;> omega

theorem Operand.mode_lt (op : Operand) : op.mode < 8 := by
  cases op <;> simp [Operand.mode]

theorem Operand.code_lt (op : Operand) : op.code < 16 := by
  cases op <;> simp [Operand.code]

theorem Cond.code_range (c : Cond) : 1 ≤ c.code ∧ c.code ≤ 13 := by
  cases c <;> decide

theorem Cond.ofCode_code (c : Cond) : Cond.ofCode c.code = some c := by
  cases c <;> rfl

/-- An instruction word has 16 bits. -/
theorem Instr.word_lt (i : Instr) : i.word < 65536 := by
  cases i <;> simp only [Instr.word, word1, word2, word3, word4, word5, word6, word7, word8, Cond.code]
  case ldB _ b => have := b.mode_lt; have := b.code_lt; omega
  case ldW _ b => have := b.mode_lt; have := b.code_lt; omega
  case ldL _ b => have := b.mode_lt; have := b.code_lt; omega
  case stB _ b => have := b.mode_lt; have := b.code_lt; omega
  case stW _ b => have := b.mode_lt; have := b.code_lt; omega
  case stL _ b => have := b.mode_lt; have := b.code_lt; omega
  all_goals
    first
    | omega
    | (rename_i a; have := a.mode_lt; have := a.code_lt; omega)

/-- The decoder reads the word of variant A back from either variant's. -/
theorem normalise_encodeWord (p : Params) (i : Instr) : p.encVariant.normalise (encodeWord p i).toNat = i.word := by
  have h := i.word_lt
  have hn := p.encVariant.normalise_lt i.word h
  rw [encodeWord, BitVec.toNat_ofNat, Nat.mod_eq_of_lt (by omega), p.encVariant.normalise_normalise _ h]

/-- A mode has an extension word exactly when an operand of that mode carries one (R92). -/
theorem modeHasExtension_mode (op : Operand) : modeHasExtension op.mode = op.extension.isSome := by
  cases op <;> rfl

/-! ## Which encoded words are followed by an extension word (R98) -/

theorem extensionNormal_word1 (k : Nat) (sa sb d : Reg) (hk : k < 8) : extensionNormal (word1 k sa sb d) = false := by
  have h : field (word1 k sa sb d) 15 15 = 1 := by simp only [field, word1]; omega
  simp [extensionNormal, h]

theorem extensionNormal_word2 (k : Nat) (s d : Reg) (hk : k < 16) :
    extensionNormal (word2 k s d) = (k == 12 || k == 14) := by
  have h1 : field (word2 k s d) 15 15 = 0 := by simp only [field, word2]; omega
  have h2 : field (word2 k s d) 15 14 = 1 := by simp only [field, word2]; omega
  have h3 : field (word2 k s d) 13 12 = 0 := by simp only [field, word2]; omega
  have h4 : field (word2 k s d) 11 8 = k := by simp only [field, word2]; omega
  simp [extensionNormal, h1, h2, h3, h4]

theorem extensionNormal_word3 (type dir : Nat) (ra : Reg) (b : Operand) (ht : 1 ≤ type ∧ type < 4) (hd : dir < 2) :
    extensionNormal (word3 type dir ra b) = b.extension.isSome := by
  have hm := b.mode_lt
  have hc := b.code_lt
  have h1 : field (word3 type dir ra b) 15 15 = 0 := by simp only [field, word3]; omega
  have h2 : field (word3 type dir ra b) 15 14 = 1 := by simp only [field, word3]; omega
  have h3 : field (word3 type dir ra b) 13 12 = type := by simp only [field, word3]; omega
  have h4 : field (word3 type dir ra b) 10 8 = b.mode := by simp only [field, word3]; omega
  have h5 : type ≠ 0 := by omega
  simp [extensionNormal, h1, h2, h3, h4, h5, modeHasExtension_mode]

theorem extensionNormal_word4 (cc : Cond) (disp : Operand) :
    extensionNormal (word4 cc disp) = disp.extension.isSome := by
  have hm := disp.mode_lt
  have hc := disp.code_lt
  have hr := cc.code_range
  have h1 : field (word4 cc disp) 15 15 = 0 := by simp only [field, word4]; omega
  have h2 : field (word4 cc disp) 15 14 = 0 := by simp only [field, word4]; omega
  have h3 : field (word4 cc disp) 15 13 = 0 := by simp only [field, word4]; omega
  have h4 : field (word4 cc disp) 15 12 = 0 := by simp only [field, word4]; omega
  have h5 : field (word4 cc disp) 7 7 = 1 := by simp only [field, word4]; omega
  have h6 : field (word4 cc disp) 6 4 = disp.mode := by simp only [field, word4]; omega
  simp [extensionNormal, h1, h2, h3, h4, h5, h6, modeHasExtension_mode]

theorem extensionNormal_word5 (k : Nat) (a : Operand) (hk : k < 8) :
    extensionNormal (word5 k a) = a.extension.isSome := by
  have hm := a.mode_lt
  have hc := a.code_lt
  have h1 : field (word5 k a) 15 15 = 0 := by simp only [field, word5]; omega
  have h2 : field (word5 k a) 15 14 = 0 := by simp only [field, word5]; omega
  have h3 : field (word5 k a) 15 13 = 0 := by simp only [field, word5]; omega
  have h4 : field (word5 k a) 15 12 = 0 := by simp only [field, word5]; omega
  have h5 : field (word5 k a) 7 7 = 0 := by simp only [field, word5]; omega
  have h6 : field (word5 k a) 11 11 = 1 := by simp only [field, word5]; omega
  have h7 : field (word5 k a) 6 4 = a.mode := by simp only [field, word5]; omega
  simp [extensionNormal, h1, h2, h3, h4, h5, h6, h7, modeHasExtension_mode]

theorem extensionNormal_word6 (k : Nat) (hk : k < 8) : extensionNormal (word6 k) = false := by
  have h1 : field (word6 k) 15 15 = 0 := by simp only [field, word6]; omega
  have h2 : field (word6 k) 15 14 = 0 := by simp only [field, word6]; omega
  have h3 : field (word6 k) 15 13 = 0 := by simp only [field, word6]; omega
  have h4 : field (word6 k) 15 12 = 0 := by simp only [field, word6]; omega
  have h5 : field (word6 k) 7 7 = 0 := by simp only [field, word6]; omega
  have h6 : field (word6 k) 11 11 = 0 := by simp only [field, word6]; omega
  simp [extensionNormal, h1, h2, h3, h4, h5, h6]

theorem extensionNormal_word7 (k : Nat) (v : BitVec 8) (r : Reg) (hk : k < 2) : extensionNormal (word7 k v r) = false := by
  have hv := v.isLt
  have h1 : field (word7 k v r) 15 15 = 0 := by simp only [field, word7]; omega
  have h2 : field (word7 k v r) 15 14 = 0 := by simp only [field, word7]; omega
  have h3 : field (word7 k v r) 15 13 = 1 := by simp only [field, word7]; omega
  simp [extensionNormal, h1, h2, h3]

theorem extensionNormal_word8 (cc : Cond) (v : BitVec 8) : extensionNormal (word8 cc v) = false := by
  have hv := v.isLt
  have hr := cc.code_range
  have h1 : field (word8 cc v) 15 15 = 0 := by simp only [field, word8]; omega
  have h2 : field (word8 cc v) 15 14 = 0 := by simp only [field, word8]; omega
  have h3 : field (word8 cc v) 15 13 = 0 := by simp only [field, word8]; omega
  have h4 : field (word8 cc v) 15 12 = 1 := by simp only [field, word8]; omega
  simp [extensionNormal, h1, h2, h3, h4]

end Sys2Proof
end

