-- ==== Sys2Proof/Laws/Word.lean ====
section
/-! SUPPORT. Narrowing to N bits and the bits of N-bit values, down to arithmetic. -/

namespace Sys2Proof

theorem WordSize.modulus_eq (ws : WordSize) : ws.modulus = 2 ^ ws.bits := by
  cases ws <;> rfl

theorem WordSize.half_eq (ws : WordSize) : ws.half = 2 ^ (ws.bits - 1) := by
  cases ws <;> rfl

theorem WordSize.modulus_half (ws : WordSize) : ws.modulus = 2 * ws.half := by
  cases ws <;> rfl

theorem WordSize.modulus_bytes (ws : WordSize) : ws.modulus = 256 ^ ws.bytes := by
  cases ws <;> rfl

theorem WordSize.modulus_le (ws : WordSize) : ws.modulus ≤ 2 ^ 32 := by
  cases ws <;> decide

theorem WordSize.modulus_pos (ws : WordSize) : 0 < ws.modulus := by
  cases ws <;> decide

@[simp] theorem WordSize.toNat_narrow (ws : WordSize) (k : Nat) : (ws.narrow k).toNat = k % ws.modulus := by
  have h := Nat.mod_lt k ws.modulus_pos
  have := ws.modulus_le
  simp only [WordSize.narrow, BitVec.toNat_ofNat]
  exact Nat.mod_eq_of_lt (by omega)

theorem WordSize.narrow_lt (ws : WordSize) (k : Nat) : (ws.narrow k).toNat < ws.modulus := by
  rw [ws.toNat_narrow]
  exact Nat.mod_lt _ ws.modulus_pos

/-- A value that already has N bits is not changed by narrowing. -/
theorem WordSize.narrow_of_lt (ws : WordSize) (v : Word) (h : v.toNat < ws.modulus) : ws.narrow v.toNat = v := by
  apply BitVec.eq_of_toNat_eq
  rw [ws.toNat_narrow, Nat.mod_eq_of_lt h]

theorem WordSize.narrow_narrow (ws : WordSize) (k : Nat) : ws.narrow (ws.narrow k).toNat = ws.narrow k :=
  ws.narrow_of_lt _ (ws.narrow_lt k)

@[simp] theorem WordSize.narrow_mod (ws : WordSize) (k : Nat) : ws.narrow (k % ws.modulus) = ws.narrow k := by
  rw [WordSize.narrow, Nat.mod_mod, WordSize.narrow]

/-- Narrowing an integer gives its residue modulo 2^N. -/
theorem WordSize.toNat_narrowInt (ws : WordSize) (k : Int) : ((ws.narrowInt k).toNat : Int) = k % (ws.modulus : Int) := by
  have hp : (0 : Int) < (ws.modulus : Int) := by exact_mod_cast ws.modulus_pos
  have h0 := Int.emod_nonneg k (ne_of_gt hp)
  have h1 := Int.emod_lt_of_pos k hp
  rw [WordSize.narrowInt, ws.toNat_narrow, Nat.mod_eq_of_lt (by omega)]
  omega

theorem WordSize.narrowInt_lt (ws : WordSize) (k : Int) : (ws.narrowInt k).toNat < ws.modulus :=
  ws.narrow_lt _

/-- Bit `k` of a number below 2^N is bit `k` of its container. -/
theorem WordSize.getLsbD_narrow (ws : WordSize) (v k : Nat) (h : k < ws.bits) : (ws.narrow v).getLsbD k = v.testBit k := by
  have : (ws.narrow v).getLsbD k = (ws.narrow v).toNat.testBit k := rfl
  rw [this, ws.toNat_narrow, ws.modulus_eq, Nat.testBit_mod_two_pow]
  simp [h]

namespace Machine

/-- The sign bit is bit N-1. -/
theorem signBit_eq (ws : WordSize) (v : Word) (h : v.toNat < ws.modulus) : signBit ws v = v.getLsbD (ws.bits - 1) := by
  have e : v.getLsbD (ws.bits - 1) = v.toNat.testBit (ws.bits - 1) := rfl
  rw [e, signBit, Nat.testBit_eq_decide_div_mod_eq, ← ws.half_eq]
  have hm := ws.modulus_half
  congr 1
  apply propext
  have hpos : 0 < ws.half := by cases ws <;> decide
  constructor
  · intro hle
    have : v.toNat / ws.half = 1 := Nat.div_eq_of_lt_le (by omega) (by omega)
    omega
  · intro hd
    by_contra hlt
    rw [Nat.div_eq_of_lt (by omega)] at hd
    omega

/-- `signed` lies in the signed range. -/
theorem signed_range (ws : WordSize) (v : Word) (h : v.toNat < ws.modulus) :
    -(ws.half : Int) ≤ signed ws v ∧ signed ws v < (ws.half : Int) := by
  have hm := ws.modulus_half
  unfold signed
  split <;> omega

/-- `signed` of a residue whose integer is in range is that integer. -/
theorem signed_narrowInt (ws : WordSize) (k : Int) (h0 : -(ws.half : Int) ≤ k) (h1 : k < (ws.half : Int)) :
    signed ws (ws.narrowInt k) = k := by
  have e := ws.toNat_narrowInt k
  have hm : (ws.modulus : Int) = 2 * (ws.half : Int) := by exact_mod_cast ws.modulus_half
  unfold signed
  rcases lt_or_ge k 0 with hk | hk
  · have : k % (ws.modulus : Int) = k + ws.modulus := by
      rw [← Int.add_emod_right, Int.emod_eq_of_lt (by omega) (by omega)]
    split <;> omega
  · have : k % (ws.modulus : Int) = k := Int.emod_eq_of_lt hk (by omega)
    split <;> omega

/-- The residue of `signed` is the value itself. -/
theorem signed_emod (ws : WordSize) (v : Word) (h : v.toNat < ws.modulus) :
    signed ws v % (ws.modulus : Int) = (v.toNat : Int) := by
  unfold signed
  split
  · exact Int.emod_eq_of_lt (by omega) (by omega)
  · rw [Int.sub_emod_right, Int.emod_eq_of_lt (by omega) (by omega)]

@[simp] theorem flagNat_toNat (b : Bool) : flagNat b = b.toNat := by
  cases b <;> rfl

end Machine

end Sys2Proof
end

