-- ==== Sys2Proof/Laws/Flags.lean ====
section
/-! SUPPORT. What the flag computations, the one-place shifts and the fill of a register say bit by bit. -/

namespace Sys2Proof.Machine

/-! ## Signed values -/

/-- The two readings of a signed value. -/
theorem signed_cases (ws : WordSize) (v : Word) :
    (v.toNat < ws.half ∧ signed ws v = v.toNat) ∨
      (ws.half ≤ v.toNat ∧ signed ws v = (v.toNat : Int) - 2 * (ws.half : Int)) := by
  have hm : (ws.modulus : Int) = 2 * (ws.half : Int) := by exact_mod_cast ws.modulus_half
  unfold signed
  split <;> omega

theorem inSignedRange_eq_false (ws : WordSize) (k : Int) :
    inSignedRange ws k = false ↔ ¬(-(ws.half : Int) ≤ k ∧ k < (ws.half : Int)) := by
  rw [← Bool.not_eq_true]
  simp [inSignedRange]

/-- Bit N-1 as a comparison. -/
theorem topBit_eq (ws : WordSize) (v : Word) (h : v.toNat < ws.modulus) :
    v.getLsbD (ws.bits - 1) = decide (ws.half ≤ v.toNat) :=
  (signBit_eq ws v h).symm

/-- ZF's test on the value is the test on its number. -/
theorem decide_eq_zero (r : Word) : decide (r = 0) = decide (r.toNat = 0) := by
  congr 1
  apply propext
  constructor <;> intro h
  · rw [h]; rfl
  · exact BitVec.eq_of_toNat_eq h

/-- The overflow of an addition by ranges is the spec's bit formula (R27). -/
theorem overflow_add (ws : WordSize) (a b : Word) (c : Bool) (ha : a.toNat < ws.modulus) (hb : b.toNat < ws.modulus) :
    (!inSignedRange ws (signed ws a + signed ws b + (flagNat c : Int))) =
      (a.getLsbD (ws.bits - 1) == b.getLsbD (ws.bits - 1) &&
        (ws.narrow (a.toNat + b.toNat + flagNat c)).getLsbD (ws.bits - 1) != a.getLsbD (ws.bits - 1)) := by
  rw [topBit_eq ws a ha, topBit_eq ws b hb, topBit_eq ws _ (ws.narrow_lt _), ws.toNat_narrow]
  have hm := ws.modulus_half
  have hc : flagNat c ≤ 1 := by cases c <;> decide
  have hp : 0 < ws.half := by cases ws <;> decide
  have sa := signed_cases ws a
  have sb := signed_cases ws b
  rw [Bool.eq_iff_iff]
  simp only [Bool.not_eq_true', inSignedRange_eq_false, Bool.and_eq_true, beq_iff_eq, bne_iff_ne, ne_eq, decide_eq_decide]
  generalize signed ws a = A at *
  generalize signed ws b = B at *
  generalize a.toNat = x at *
  generalize b.toNat = y at *
  generalize flagNat c = z at *
  generalize ws.half = h at *
  generalize ws.modulus = m at *
  subst hm
  have key : (x + y + z) % (2 * h) = x + y + z ∨ (x + y + z) % (2 * h) = x + y + z - 2 * h ∧ 2 * h ≤ x + y + z := by
    rcases Nat.lt_or_ge (x + y + z) (2 * h) with hl | hl
    · exact .inl (Nat.mod_eq_of_lt hl)
    · right
      refine ⟨?_, hl⟩
      rw [Nat.mod_eq_sub_mod hl]
      exact Nat.mod_eq_of_lt (by omega)
  have hlt := Nat.mod_lt (x + y + z) (show 0 < 2 * h by omega)
  generalize (x + y + z) % (2 * h) = r at *
  omega

/-- The overflow of a subtraction by ranges is the spec's bit formula (R27). -/
theorem overflow_sub (ws : WordSize) (a b : Word) (c : Bool) (ha : a.toNat < ws.modulus) (hb : b.toNat < ws.modulus) :
    (!inSignedRange ws (signed ws a - signed ws b - (flagNat c : Int))) =
      (a.getLsbD (ws.bits - 1) != b.getLsbD (ws.bits - 1) &&
        (ws.narrowInt ((a.toNat : Int) - b.toNat - flagNat c)).getLsbD (ws.bits - 1) != a.getLsbD (ws.bits - 1)) := by
  rw [topBit_eq ws a ha, topBit_eq ws b hb, topBit_eq ws _ (ws.narrowInt_lt _)]
  have hi := ws.toNat_narrowInt ((a.toNat : Int) - b.toNat - flagNat c)
  have hr := ws.narrowInt_lt ((a.toNat : Int) - b.toNat - flagNat c)
  generalize ws.narrowInt ((a.toNat : Int) - b.toNat - flagNat c) = R at *
  have hm := ws.modulus_half
  have hc : flagNat c ≤ 1 := by cases c <;> decide
  have hp : 0 < ws.half := by cases ws <;> decide
  have sa := signed_cases ws a
  have sb := signed_cases ws b
  rw [Bool.eq_iff_iff]
  simp only [Bool.not_eq_true', inSignedRange_eq_false, Bool.and_eq_true, bne_iff_ne, ne_eq, decide_eq_decide]
  generalize signed ws a = A at *
  generalize signed ws b = B at *
  generalize R.toNat = r at *
  generalize a.toNat = x at *
  generalize b.toNat = y at *
  generalize flagNat c = z at *
  generalize ws.half = h at *
  generalize ws.modulus = m at *
  have key : (r : Int) = (x : Int) - y - z ∨ (r : Int) = (x : Int) - y - z + m := by
    rcases lt_or_ge ((x : Int) - y - z) 0 with hl | hl
    · right
      rw [hi, ← Int.add_emod_right, Int.emod_eq_of_lt (by omega) (by omega)]
    · left
      rw [hi, Int.emod_eq_of_lt (by omega) (by omega)]
  clear hi
  omega

/-- An 8-bit code extended to N bits is its signed value modulo 2^N. -/
theorem toNat_signExtend8 (ws : WordSize) (v : BitVec 8) : ((signExtend8 ws v).toNat : Int) = v.toInt % (ws.modulus : Int) := by
  rw [signExtend8, ws.toNat_narrowInt]
  congr 1
  rw [BitVec.toInt_eq_toNat_cond]
  split <;> split <;> omega

/-! ## Shifts by one place -/

theorem getLsbD_shiftLeft1 (ws : WordSize) (a : Word) (c : Bool) (k : Nat) (hk : k < ws.bits) :
    (shiftLeft1 ws a c).getLsbD k = if k = 0 then c else a.getLsbD (k - 1) := by
  rw [shiftLeft1, ws.getLsbD_narrow _ _ hk]
  cases k with
  | zero => cases c <;> simp [Nat.testBit_zero]
  | succ k =>
    rw [Nat.testBit_succ, show (a.toNat * 2 + flagNat c) / 2 = a.toNat by cases c <;> (simp; try omega)]
    rfl

theorem getLsbD_shiftRight1 (ws : WordSize) (a : Word) (c : Bool) (k : Nat) (hk : k < ws.bits) (ha : a.toNat < ws.modulus) :
    (shiftRight1 ws a c).getLsbD k = if k = ws.bits - 1 then c else a.getLsbD (k + 1) := by
  rw [shiftRight1, ws.getLsbD_narrow _ _ hk, ws.half_eq]
  have hm := ws.modulus_half
  rw [ws.half_eq] at hm
  have hlt : a.toNat / 2 < 2 ^ (ws.bits - 1) := by omega
  rw [show a.toNat / 2 + flagNat c * 2 ^ (ws.bits - 1) = 2 ^ (ws.bits - 1) * flagNat c + a.toNat / 2 by ring,
    Nat.testBit_two_pow_mul_add _ hlt]
  by_cases h : k = ws.bits - 1
  · subst h
    simp
    cases c <;> rfl
  · rw [if_neg h, if_pos (by omega), ← Nat.testBit_succ]
    rfl

theorem lowBit_eq (a : Word) : lowBit a = a.getLsbD 0 := by
  change _ = a.toNat.testBit 0
  rw [lowBit, Nat.testBit_zero]

/-! ## The image of SR -/

/-- Of a word, SR keeps bits 5 to 0 (R25). -/
theorem toNat_ofImage_image (w : Word) : (SR.ofImage w).image.toNat = w.toNat % 64 := by
  have b : ∀ k, flagNat (w.getLsbD k) = w.toNat / 2 ^ k % 2 := fun k => by
    change flagNat (w.toNat.testBit k) = _
    rw [Nat.testBit_eq_decide_div_mod_eq]
    rcases Nat.mod_two_eq_zero_or_one (w.toNat / 2 ^ k) with h | h <;> simp [h]
  simp only [SR.image, SR.ofImage, b, BitVec.toNat_ofNat]
  generalize w.toNat = x
  omega

end Sys2Proof.Machine
end

