-- ==== Sys2Proof/Laws/Memory.lean ====
section
/-! SUPPORT. Memory: the canonical form is kept by every operation, a byte reads back as it was written, and a write leaves
every other byte as it was. -/

namespace Sys2Proof.Machine

/-- The form from a higher bound is the form from a lower one. -/
theorem Memory.wfFrom_mono (m : Memory) (lo lo' : Nat) (h : lo' ≤ lo) (hw : Memory.wfFrom lo m = true) :
    Memory.wfFrom lo' m = true := by
  cases m with
  | nil => rfl
  | cons c m =>
    obtain ⟨k, b⟩ := c
    simp only [Memory.wfFrom, Bool.and_eq_true, decide_eq_true_eq] at hw ⊢
    exact ⟨⟨by omega, hw.1.2⟩, hw.2⟩

/-- Below its bound a memory lists nothing. -/
theorem Memory.read_below (m : Memory) (lo a : Nat) (hw : Memory.wfFrom lo m = true) (h : a < lo) :
    m.read a = blankByte := by
  induction m generalizing lo with
  | nil => rfl
  | cons c m ih =>
    obtain ⟨k, b⟩ := c
    simp only [Memory.wfFrom, Bool.and_eq_true, decide_eq_true_eq] at hw
    have hne : k ≠ a := by omega
    rw [Memory.read, if_neg hne]
    exact ih (k + 1) hw.2 (by omega)

/-- A write keeps the form. -/
theorem Memory.wfFrom_write (m : Memory) (lo a : Nat) (v : Byte) (hw : Memory.wfFrom lo m = true) (h : lo ≤ a) :
    Memory.wfFrom lo (m.write a v) = true := by
  induction m generalizing lo with
  | nil =>
    unfold Memory.write
    split <;> simp_all [Memory.wfFrom]
  | cons c m ih =>
    obtain ⟨k, b⟩ := c
    have hc := hw
    simp only [Memory.wfFrom, Bool.and_eq_true, decide_eq_true_eq] at hc
    unfold Memory.write
    split
    · split
      · exact hw
      · simp only [Memory.wfFrom, Bool.and_eq_true, decide_eq_true_eq]
        exact ⟨⟨h, by assumption⟩, ⟨by omega, hc.1.2⟩, hc.2⟩
    · split
      · split
        · exact Memory.wfFrom_mono m (k + 1) lo (by omega) hc.2
        · subst a
          simp only [Memory.wfFrom, Bool.and_eq_true, decide_eq_true_eq]
          exact ⟨⟨h, by assumption⟩, hc.2⟩
      · simp only [Memory.wfFrom, Bool.and_eq_true, decide_eq_true_eq]
        exact ⟨hc.1, ih (k + 1) hc.2 (by omega)⟩

/-- A write of a byte keeps the canonical form. -/
theorem Memory.wf_write (m : Memory) (a : Nat) (v : Byte) (hw : m.wf = true) : (m.write a v).wf = true :=
  Memory.wfFrom_write m 0 a v hw (Nat.zero_le a)

/-- A byte reads back as it was written. -/
theorem Memory.read_write_self (m : Memory) (a : Nat) (v : Byte) (hw : m.wf = true) : (m.write a v).read a = v := by
  suffices h : ∀ lo, Memory.wfFrom lo m = true → (m.write a v).read a = v from h 0 hw
  clear hw
  induction m with
  | nil =>
    intro lo _
    unfold Memory.write
    split <;> simp_all [Memory.read]
  | cons c m ih =>
    obtain ⟨k, b⟩ := c
    intro lo hw
    simp only [Memory.wfFrom, Bool.and_eq_true, decide_eq_true_eq] at hw
    unfold Memory.write
    split
    · next hlt =>
      split
      · next hv =>
        have hne : k ≠ a := by omega
        rw [Memory.read, if_neg hne, hv]
        exact Memory.read_below m (k + 1) a hw.2 (by omega)
      · simp [Memory.read]
    · split
      · split
        · next hv => rw [hv]; exact Memory.read_below m (k + 1) a hw.2 (by omega)
        · simp [Memory.read]
      · have hne : k ≠ a := by omega
        rw [Memory.read, if_neg hne]
        exact ih (k + 1) hw.2

/-- A write leaves every other byte as it was, in any memory. -/
theorem Memory.read_write_ne (m : Memory) (a b : Nat) (v : Byte) (h : b ≠ a) : (m.write a v).read b = m.read b := by
  induction m with
  | nil =>
    unfold Memory.write
    split
    · rfl
    · simp [Memory.read, h.symm]
  | cons c m ih =>
    obtain ⟨k, x⟩ := c
    unfold Memory.write
    split
    · split
      · rfl
      · simp [Memory.read, h.symm]
    · split
      · next hk =>
        subst hk
        split <;> simp [Memory.read, h.symm]
      · simp only [Memory.read, ih]

/-- A write lists no address but the old ones and its own. -/
theorem Memory.mem_write (m : Memory) (a : Nat) (v : Byte) (c : Host.Cell) (hc : c ∈ m.write a v) : c ∈ m ∨ c.1 = a := by
  induction m with
  | nil =>
    unfold Memory.write at hc
    split at hc
    · exact .inl hc
    · right; simp_all
  | cons d m ih =>
    obtain ⟨k, x⟩ := d
    unfold Memory.write at hc
    split at hc
    · split at hc
      · exact .inl hc
      · rcases List.mem_cons.mp hc with rfl | hc
        · exact .inr rfl
        · exact .inl hc
    · split at hc
      · split at hc
        · exact .inl (List.mem_cons_of_mem _ hc)
        · rcases List.mem_cons.mp hc with rfl | hc
          · exact .inr rfl
          · exact .inl (List.mem_cons_of_mem _ hc)
      · rcases List.mem_cons.mp hc with rfl | hc
        · exact .inl List.mem_cons_self
        · exact (ih hc).imp (List.mem_cons_of_mem _) id

/-! ## Values of several bytes -/

/-- A value of `n` bytes keeps the canonical form. -/
theorem Memory.wf_writeBig (size : Nat) (m : Memory) (a n v : Nat) (hw : m.wf = true) :
    (Memory.writeBig size m a n v).wf = true := by
  induction n generalizing v with
  | zero => exact hw
  | succ n ih => exact Memory.wf_write _ _ _ (ih (v / 256))

/-- A write of `n` bytes leaves every byte outside its span as it was. -/
theorem Memory.read_writeBig_of_not_mem (size : Nat) (m : Memory) (a n v b : Nat)
    (h : ∀ k, k < n → b ≠ (a + k) % size) : (Memory.writeBig size m a n v).read b = m.read b := by
  induction n generalizing v with
  | zero => rfl
  | succ n ih =>
    rw [Memory.writeBig, Memory.read_write_ne _ _ _ _ (h n (Nat.lt_succ_self n))]
    exact ih _ fun k hk => h k (Nat.lt_succ_of_lt hk)

/-- Two places of a span no longer than the address space are different addresses. -/
theorem span_ne (size a j k : Nat) (hk : k < size) (hj : j < k) : (a + j) % size ≠ (a + k) % size := by
  intro h
  have : (a + j) ≡ (a + k) [MOD size] := h
  have h2 := Nat.ModEq.add_left_cancel' a this
  have := Nat.ModEq.eq_of_lt_of_lt h2 (by omega) hk
  omega

/-- The byte of a stored value at each place of its span, most significant first. -/
theorem Memory.read_writeBig (size : Nat) (m : Memory) (a n v k : Nat) (hw : m.wf = true) (hn : n ≤ size) (hk : k < n) :
    ((Memory.writeBig size m a n v).read ((a + k) % size)).toNat = v / 256 ^ (n - 1 - k) % 256 := by
  induction n generalizing v with
  | zero => omega
  | succ n ih =>
    rw [Memory.writeBig]
    rcases Nat.lt_succ_iff_lt_or_eq.mp hk with h | rfl
    · rw [Memory.read_write_ne _ _ _ _ (span_ne size a k n (by omega) h), ih (v / 256) (by omega) h, Nat.div_div_eq_div_mul]
      congr 2
      rw [← pow_succ']
      congr 1
      omega
    · rw [Memory.read_write_self _ _ _ (Memory.wf_writeBig _ _ _ _ _ hw)]
      simp

/-- A value of `n` bytes is less than 256^n. -/
theorem Memory.readBig_lt (size : Nat) (m : Memory) (a n : Nat) : Memory.readBig size m a n < 256 ^ n := by
  induction n with
  | zero => simp [Memory.readBig]
  | succ n ih =>
    have hb := (m.read ((a + n) % size)).isLt
    rw [Memory.readBig, pow_succ]
    omega

/-- Two memories with the same bytes in a span hold the same value there. -/
theorem Memory.readBig_congr (size : Nat) (m m' : Memory) (a n : Nat)
    (h : ∀ k, k < n → m'.read ((a + k) % size) = m.read ((a + k) % size)) :
    Memory.readBig size m' a n = Memory.readBig size m a n := by
  induction n with
  | zero => rfl
  | succ n ih =>
    rw [Memory.readBig, Memory.readBig, ih fun k hk => h k (Nat.lt_succ_of_lt hk), h n (Nat.lt_succ_self n)]

/-- A value reads back as it was written, cut to its bytes. -/
theorem Memory.readBig_writeBig (size : Nat) (m : Memory) (a n v : Nat) (hw : m.wf = true) (hn : n ≤ size) :
    Memory.readBig size (Memory.writeBig size m a n v) a n = v % 256 ^ n := by
  induction n generalizing v with
  | zero => simp [Memory.readBig, Nat.mod_one]
  | succ n ih =>
    have hc : Memory.readBig size (Memory.writeBig size m a (n + 1) v) a n =
        Memory.readBig size (Memory.writeBig size m a n (v / 256)) a n :=
      Memory.readBig_congr _ _ _ _ _ fun k hk => by
        rw [Memory.writeBig, Memory.read_write_ne _ _ _ _ (span_ne size a k n (by omega) hk)]
    have hl : ((Memory.writeBig size m a (n + 1) v).read ((a + n) % size)).toNat = v % 256 := by
      have := Memory.read_writeBig size m a (n + 1) v n hw hn (Nat.lt_succ_self n)
      simpa using this
    rw [Memory.readBig, hc, ih _ (by omega), hl, pow_succ', Nat.mod_mul]
    omega

/-- The byte at a place of a value read. -/
theorem Memory.readBig_byte (size : Nat) (m : Memory) (a n k : Nat) (hk : k < n) :
    Memory.readBig size m a n / 256 ^ (n - 1 - k) % 256 = (m.read ((a + k) % size)).toNat := by
  induction n with
  | zero => omega
  | succ n ih =>
    have hb := (m.read ((a + n) % size)).isLt
    rw [Memory.readBig]
    rcases Nat.lt_succ_iff_lt_or_eq.mp hk with h | rfl
    · have e : n + 1 - 1 - k = (n - 1 - k) + 1 := by omega
      rw [e, pow_succ', ← Nat.div_div_eq_div_mul, ← ih h]
      congr 2
      omega
    · simp
      omega

/-- A write of `n` bytes lists no address but the old ones and those of its span. -/
theorem Memory.mem_writeBig (size : Nat) (m : Memory) (a n v : Nat) (c : Host.Cell)
    (hc : c ∈ Memory.writeBig size m a n v) : c ∈ m ∨ ∃ k, k < n ∧ c.1 = (a + k) % size := by
  induction n generalizing v with
  | zero => exact .inl hc
  | succ n ih =>
    rcases Memory.mem_write _ _ _ _ hc with h | h
    · exact (ih _ h).imp id fun ⟨k, hk, e⟩ => ⟨k, by omega, e⟩
    · exact .inr ⟨n, Nat.lt_succ_self n, h⟩

end Sys2Proof.Machine
end

