-- ==== Sys2Proof/Laws/State.lean ====
section
/-! SUPPORT. One lemma per field and per update of the state, so that no proof unfolds a record update. -/

namespace Sys2Proof.Machine

variable (s : State)

@[simp] theorem State.setReg_params (r : Reg) (v : Word) : (s.setReg r v).params = s.params := rfl
@[simp] theorem State.setReg_pc (r : Reg) (v : Word) : (s.setReg r v).pc = s.pc := rfl
@[simp] theorem State.setReg_sr (r : Reg) (v : Word) : (s.setReg r v).sr = s.sr := rfl
@[simp] theorem State.setReg_mem (r : Reg) (v : Word) : (s.setReg r v).mem = s.mem := rfl
@[simp] theorem State.setReg_pending (r : Reg) (v : Word) : (s.setReg r v).pending = s.pending := rfl
@[simp] theorem State.setReg_rstLow (r : Reg) (v : Word) : (s.setReg r v).rstLow = s.rstLow := rfl
@[simp] theorem State.setReg_outputs (r : Reg) (v : Word) : (s.setReg r v).outputs = s.outputs := rfl
@[simp] theorem State.setReg_draws (r : Reg) (v : Word) : (s.setReg r v).draws = s.draws := rfl
@[simp] theorem State.setPc_params (v : Nat) : (s.setPc v).params = s.params := rfl
@[simp] theorem State.setPc_regs (v : Nat) : (s.setPc v).regs = s.regs := rfl
@[simp] theorem State.setPc_sr (v : Nat) : (s.setPc v).sr = s.sr := rfl
@[simp] theorem State.setPc_mem (v : Nat) : (s.setPc v).mem = s.mem := rfl
@[simp] theorem State.setPc_pending (v : Nat) : (s.setPc v).pending = s.pending := rfl
@[simp] theorem State.setPc_rstLow (v : Nat) : (s.setPc v).rstLow = s.rstLow := rfl
@[simp] theorem State.setPc_outputs (v : Nat) : (s.setPc v).outputs = s.outputs := rfl
@[simp] theorem State.setPc_draws (v : Nat) : (s.setPc v).draws = s.draws := rfl
@[simp] theorem State.setSR_params (sr : SR) : (s.setSR sr).params = s.params := rfl
@[simp] theorem State.setSR_regs (sr : SR) : (s.setSR sr).regs = s.regs := rfl
@[simp] theorem State.setSR_pc (sr : SR) : (s.setSR sr).pc = s.pc := rfl
@[simp] theorem State.setSR_mem (sr : SR) : (s.setSR sr).mem = s.mem := rfl
@[simp] theorem State.setSR_pending (sr : SR) : (s.setSR sr).pending = s.pending := rfl
@[simp] theorem State.setSR_rstLow (sr : SR) : (s.setSR sr).rstLow = s.rstLow := rfl
@[simp] theorem State.setSR_outputs (sr : SR) : (s.setSR sr).outputs = s.outputs := rfl
@[simp] theorem State.setSR_draws (sr : SR) : (s.setSR sr).draws = s.draws := rfl
@[simp] theorem State.drawn_params : (s.drawn).params = s.params := rfl
@[simp] theorem State.drawn_regs : (s.drawn).regs = s.regs := rfl
@[simp] theorem State.drawn_pc : (s.drawn).pc = s.pc := rfl
@[simp] theorem State.drawn_sr : (s.drawn).sr = s.sr := rfl
@[simp] theorem State.drawn_mem : (s.drawn).mem = s.mem := rfl
@[simp] theorem State.drawn_pending : (s.drawn).pending = s.pending := rfl
@[simp] theorem State.drawn_rstLow : (s.drawn).rstLow = s.rstLow := rfl
@[simp] theorem State.drawn_outputs : (s.drawn).outputs = s.outputs := rfl
@[simp] theorem State.setPc_pc (v : Nat) : (s.setPc v).pc = s.ws.narrow v := rfl
@[simp] theorem State.setSR_sr (sr : SR) : (s.setSR sr).sr = sr := rfl
@[simp] theorem State.drawn_draws : s.drawn.draws = s.draws + 1 := rfl

@[simp] theorem State.setReg_ws (r : Reg) (v : Word) : (s.setReg r v).ws = s.ws := rfl
@[simp] theorem State.setPc_ws (v : Nat) : (s.setPc v).ws = s.ws := rfl
@[simp] theorem State.setSR_ws (sr : SR) : (s.setSR sr).ws = s.ws := rfl
@[simp] theorem State.drawn_ws : s.drawn.ws = s.ws := rfl

@[simp] theorem State.setPc_reg (v : Nat) (r : Reg) : (s.setPc v).reg r = s.reg r := rfl
@[simp] theorem State.setSR_reg (sr : SR) (r : Reg) : (s.setSR sr).reg r = s.reg r := rfl
@[simp] theorem State.drawn_reg (r : Reg) : s.drawn.reg r = s.reg r := rfl

@[simp] theorem State.setReg_byteAt (r : Reg) (v : Word) (a : Nat) : (s.setReg r v).byteAt a = s.byteAt a := rfl
@[simp] theorem State.setPc_byteAt (v a : Nat) : (s.setPc v).byteAt a = s.byteAt a := rfl
@[simp] theorem State.setSR_byteAt (sr : SR) (a : Nat) : (s.setSR sr).byteAt a = s.byteAt a := rfl
@[simp] theorem State.drawn_byteAt (a : Nat) : s.drawn.byteAt a = s.byteAt a := rfl

@[simp] theorem State.setReg_span (r : Reg) (v a : Word) (n : Nat) : (s.setReg r v).span a n = s.span a n := rfl
@[simp] theorem State.setPc_span (v : Nat) (a : Word) (n : Nat) : (s.setPc v).span a n = s.span a n := rfl
@[simp] theorem State.setSR_span (sr : SR) (a : Word) (n : Nat) : (s.setSR sr).span a n = s.span a n := rfl
@[simp] theorem State.drawn_span (a : Word) (n : Nat) : s.drawn.span a n = s.span a n := rfl

/-- A register reads as an N-bit value. -/
theorem State.reg_lt (r : Reg) : (s.reg r).toNat < s.ws.modulus :=
  s.ws.narrow_lt _

@[simp] theorem State.narrow_reg (r : Reg) : s.ws.narrow (s.reg r).toNat = s.reg r :=
  s.ws.narrow_narrow _

/-- A register reads back what was written, narrowed to N bits. -/
@[simp] theorem State.reg_setReg_self (r : Reg) (v : Word) : (s.setReg r v).reg r = s.ws.narrow v.toNat := by
  simp [State.reg, State.setReg, State.ws]

/-- A write to one register leaves every other as it was. -/
theorem State.reg_setReg_ne (r q : Reg) (v : Word) (h : q ≠ r) : (s.setReg r v).reg q = s.reg q := by
  have hv : r.val ≠ q.val := fun e => h (Fin.ext e.symm)
  simp [State.reg, State.setReg, State.ws, hv]

theorem State.reg_setReg (r q : Reg) (v : Word) :
    (s.setReg r v).reg q = if q = r then s.ws.narrow v.toNat else s.reg q := by
  split
  · next h => rw [h, s.reg_setReg_self]
  · next h => exact s.reg_setReg_ne r q v h

/-! ## The post-increment -/

@[simp] theorem postIncrement_params (op : Operand) (n : Nat) : (postIncrement s op n).params = s.params := by
  cases op <;> rfl
@[simp] theorem postIncrement_pc (op : Operand) (n : Nat) : (postIncrement s op n).pc = s.pc := by
  cases op <;> rfl
@[simp] theorem postIncrement_sr (op : Operand) (n : Nat) : (postIncrement s op n).sr = s.sr := by
  cases op <;> rfl
@[simp] theorem postIncrement_mem (op : Operand) (n : Nat) : (postIncrement s op n).mem = s.mem := by
  cases op <;> rfl
@[simp] theorem postIncrement_pending (op : Operand) (n : Nat) : (postIncrement s op n).pending = s.pending := by
  cases op <;> rfl
@[simp] theorem postIncrement_rstLow (op : Operand) (n : Nat) : (postIncrement s op n).rstLow = s.rstLow := by
  cases op <;> rfl
@[simp] theorem postIncrement_outputs (op : Operand) (n : Nat) : (postIncrement s op n).outputs = s.outputs := by
  cases op <;> rfl
@[simp] theorem postIncrement_draws (op : Operand) (n : Nat) : (postIncrement s op n).draws = s.draws := by
  cases op <;> rfl
@[simp] theorem postIncrement_ws (op : Operand) (n : Nat) : (postIncrement s op n).ws = s.ws := by
  cases op <;> rfl
@[simp] theorem postIncrement_byteAt (op : Operand) (n a : Nat) : (postIncrement s op n).byteAt a = s.byteAt a := by
  cases op <;> rfl

/-! ## Taking Reset and acts of the environment -/

@[simp] theorem takeReset_mem : (takeReset s).mem = s.mem := rfl
@[simp] theorem takeReset_params : (takeReset s).params = s.params := rfl
@[simp] theorem takeReset_ws : (takeReset s).ws = s.ws := congrArg Params.wordSize (takeReset_params s)
@[simp] theorem takeReset_sr : (takeReset s).sr = SR.cleared := rfl
@[simp] theorem takeReset_pc : (takeReset s).pc = startAddress s.ws := rfl
@[simp] theorem takeReset_pending : (takeReset s).pending = [] := rfl
@[simp] theorem takeReset_rstLow : (takeReset s).rstLow = s.rstLow := rfl
@[simp] theorem takeReset_outputs : (takeReset s).outputs = s.outputs := rfl
@[simp] theorem takeReset_draws : (takeReset s).draws = s.draws + 1 := rfl
/-- A register after Reset is the free value of its draw. -/
theorem takeReset_regs (r : Reg) :
    (takeReset s).regs[r.val] = s.ws.narrow (Config.resetRegister s.draws r).toNat := by
  simp [takeReset]

@[simp] theorem State.released_mem : s.released.mem = s.mem := rfl
@[simp] theorem State.released_params : s.released.params = s.params := rfl
@[simp] theorem State.released_ws : s.released.ws = s.ws := takeReset_ws s
@[simp] theorem State.released_sr : s.released.sr = SR.cleared := rfl
@[simp] theorem State.released_pc : s.released.pc = startAddress s.ws := rfl
@[simp] theorem State.released_pending : s.released.pending = [] := rfl
@[simp] theorem State.released_rstLow : s.released.rstLow = false := rfl
@[simp] theorem State.released_outputs : s.released.outputs = s.outputs := rfl
@[simp] theorem State.released_draws : s.released.draws = s.draws + 1 := rfl

/-- What an act of the environment can do: nothing, set one pending bit, lower /RST, or release it with a Reset. -/
theorem State.afterEvent_cases (e : EnvEvent) :
    s.afterEvent e = s ∨
    (∃ i, e = .irqEdge i ∧ i < s.params.nirq ∧ s.afterEvent e = { s with pending := insertLine i s.pending }) ∨
    (e = .rstFalls ∧ s.afterEvent e = { s with rstLow := true }) ∨
    (e = .rstRises ∧ s.rstLow = true ∧ s.afterEvent e = s.released) := by
  cases e with
  | irqEdge i =>
    by_cases h : i < s.params.nirq
    · exact .inr (.inl ⟨i, rfl, h, by simp [State.afterEvent, h]⟩)
    · exact .inl (by simp [State.afterEvent, h])
  | rstFalls => exact .inr (.inr (.inl ⟨rfl, rfl⟩))
  | rstRises =>
    cases h : s.rstLow
    · exact .inl (by simp [State.afterEvent, h])
    · exact .inr (.inr (.inr ⟨rfl, rfl, by simp [State.afterEvent, h]⟩))

@[simp] theorem State.afterEvents_nil : s.afterEvents [] = s := rfl
@[simp] theorem State.afterEvents_cons (e : EnvEvent) (es : List EnvEvent) :
    s.afterEvents (e :: es) = (s.afterEvent e).afterEvents es := rfl
theorem State.afterEvents_append (es fs : List EnvEvent) :
    s.afterEvents (es ++ fs) = (s.afterEvents es).afterEvents fs := List.foldl_append

end Sys2Proof.Machine
end

