-- ==== Sys2Proof/Laws/Ops.lean ====
section
/-! SUPPORT. What each shared operation can do, said once: when it answers a next state and which one. -/

namespace Sys2Proof.Machine

/-! ## Sequencing -/

@[simp] theorem andThen_next {α β : Type} (a : α) (f : α → Answer β) : andThen (.next a) f = f a := rfl
@[simp] theorem andThen_fault {α β : Type} (r : Fault) (f : α → Answer β) : andThen (.fault r) f = .fault r := rfl
@[simp] theorem andThen_refused {α β : Type} (r : Refusal) (f : α → Answer β) : andThen (.refused r) f = .refused r := rfl

/-- A sequence answers a value exactly when both parts do. -/
theorem andThen_eq_next {α β : Type} (o : Answer α) (f : α → Answer β) (b : β) :
    andThen o f = .next b ↔ ∃ a, o = .next a ∧ f a = .next b := by
  cases o <;> simp [andThen]

/-- Sequencing is associative. -/
theorem andThen_assoc {α β γ : Type} (o : Answer α) (f : α → Answer β) (g : β → Answer γ) :
    andThen (andThen o f) g = andThen o fun a => andThen (f a) g := by
  cases o <;> rfl

/-! ## Memory -/

/-- A writable byte is populated. -/
theorem populated_of_writable (p : Params) (a : Nat) (h : writable p a = true) : populated p a = true := by
  simp only [writable, Bool.and_eq_true] at h
  exact h.1

/-- What can be written can be read. -/
theorem canRead_of_canWrite (s : State) (a : Word) (n : Nat) (h : canWrite s a n = true) : canRead s a n = true := by
  simp only [canWrite, canRead, Bool.and_eq_true, List.all_eq_true] at h ⊢
  exact ⟨h.1, fun x hx => populated_of_writable _ _ (h.2 x hx)⟩

theorem State.word_lt (s : State) (a : Word) (n : Nat) : s.word a n < 256 ^ n :=
  Memory.readBig_lt _ _ _ _

/-- An address is in a span exactly when it is one of the `n` places. -/
theorem State.mem_span (s : State) (a : Word) (n x : Nat) :
    x ∈ s.span a n ↔ ∃ k, k < n ∧ x = (a.toNat + k) % s.ws.modulus := by
  simp only [State.span, List.mem_map, List.mem_range]
  exact ⟨fun ⟨k, hk, e⟩ => ⟨k, hk, e.symm⟩, fun ⟨k, hk, e⟩ => ⟨k, hk, e.symm⟩⟩

/-- MemRead answers a value exactly when the access has a meaning, and it is the word of the span. -/
theorem memRead_eq_next (s : State) (a v : Word) (n : Nat) :
    memRead s a n = .next v ↔ canRead s a n = true ∧ v = BitVec.ofNat 32 (s.word a n) := by
  simp only [memRead, memReadAligned, canRead, Bool.and_eq_true, decide_eq_true_eq, State.word]
  split
  · next h => simp [h]
  · next h =>
    rw [ne_eq, not_not] at h
    split
    · next hp => simp [h, hp, eq_comm]
    · next hp => simp [hp]

theorem memRead_of_canRead (s : State) (a : Word) (n : Nat) (h : canRead s a n = true) :
    memRead s a n = .next (BitVec.ofNat 32 (s.word a n)) :=
  (memRead_eq_next s a _ n).mpr ⟨h, rfl⟩

/-- MemWrite answers a state exactly when the access has a meaning, and only memory differs. -/
theorem memWrite_eq_next (s t : State) (a v : Word) (n : Nat) :
    memWrite s a n v = .next t ↔
      canWrite s a n = true ∧ t = { s with mem := Memory.writeBig s.ws.modulus s.mem a.toNat n v.toNat } := by
  simp only [memWrite, canWrite, Bool.and_eq_true, decide_eq_true_eq]
  split
  · next h => simp [h]
  · next h =>
    rw [ne_eq, not_not] at h
    split
    · split
      · next hw => simp [h, hw, eq_comm]
      · next hw => simp [hw]
    · next hp =>
      constructor
      · intro e; cases e
      · rintro ⟨⟨-, hw⟩, -⟩
        exact absurd (List.all_eq_true.mpr fun x hx => populated_of_writable _ _ (List.all_eq_true.mp hw x hx)) hp

/-- A read without a meaning stops what follows it, by name. -/
theorem memRead_stop {α : Type} (s : State) (a : Word) (n : Nat) (f : Word → Answer α) (h : canRead s a n = false) :
    ReadStop s a n (andThen (memRead s a n) f) := by
  simp only [canRead, Bool.and_eq_false_iff, decide_eq_false_iff_not, List.all_eq_false, Bool.not_eq_true] at h
  by_cases ha : a.toNat % n = 0
  · obtain h | ⟨x, hx, hp⟩ := h
    · exact absurd ha h
    · have : ¬∀ x ∈ s.span a n, populated s.params x = true := fun hall => by rw [hall x hx] at hp; cases hp
      exact .inr ⟨ha, ⟨x, hx, hp⟩, by simp [memRead, memReadAligned, ha, this]⟩
  · exact .inl ⟨ha, by simp [memRead, memReadAligned, ha]⟩

/-- A write without a meaning stops what follows it, by name. -/
theorem memWrite_stop {α : Type} (s : State) (a v : Word) (n : Nat) (f : State → Answer α) (h : canWrite s a n = false) :
    WriteStop s a n (andThen (memWrite s a n v) f) := by
  simp only [canWrite, Bool.and_eq_false_iff, decide_eq_false_iff_not, List.all_eq_false, Bool.not_eq_true] at h
  by_cases ha : a.toNat % n = 0
  · obtain h | ⟨x, hx, hw⟩ := h
    · exact absurd ha h
    · have hnw : ¬∀ x ∈ s.span a n, writable s.params x = true := fun hall => by rw [hall x hx] at hw; cases hw
      by_cases hp : ∀ x ∈ s.span a n, populated s.params x = true
      · exact .inr ⟨ha, .inr ⟨hp, ⟨x, hx, hw⟩, by
          simp only [memWrite, ha, ne_eq, not_true_eq_false, if_false, List.all_eq_true]
          rw [if_pos hp, if_neg hnw]; rfl⟩⟩
      · have : ∃ y ∈ s.span a n, populated s.params y = false := by simpa using hp
        exact .inr ⟨ha, .inl ⟨this, by simp [memWrite, ha, hp]⟩⟩
  · exact .inl ⟨ha, by simp [memWrite, ha]⟩

/-- The state a write leaves. -/
def State.stored (s : State) (a : Word) (n : Nat) (v : Word) : State :=
  { s with mem := Memory.writeBig s.ws.modulus s.mem a.toNat n v.toNat }

theorem memWrite_of_canWrite (s : State) (a v : Word) (n : Nat) (h : canWrite s a n = true) :
    memWrite s a n v = .next (s.stored a n v) :=
  (memWrite_eq_next s _ a v n).mpr ⟨h, rfl⟩

section
variable (s : State) (a v : Word) (n : Nat)
@[simp] theorem State.stored_params : (s.stored a n v).params = s.params := rfl
@[simp] theorem State.stored_regs : (s.stored a n v).regs = s.regs := rfl
@[simp] theorem State.stored_reg (r : Reg) : (s.stored a n v).reg r = s.reg r := rfl
@[simp] theorem State.stored_pc : (s.stored a n v).pc = s.pc := rfl
@[simp] theorem State.stored_sr : (s.stored a n v).sr = s.sr := rfl
@[simp] theorem State.stored_pending : (s.stored a n v).pending = s.pending := rfl
@[simp] theorem State.stored_rstLow : (s.stored a n v).rstLow = s.rstLow := rfl
@[simp] theorem State.stored_outputs : (s.stored a n v).outputs = s.outputs := rfl
@[simp] theorem State.stored_draws : (s.stored a n v).draws = s.draws := rfl
@[simp] theorem State.stored_ws : (s.stored a n v).ws = s.ws := rfl
end

/-- A stored value reads back, cut to its bytes. -/
theorem State.word_stored (s : State) (a v : Word) (n : Nat) (hw : s.mem.wf = true) (hn : n ≤ 4) :
    (s.stored a n v).word a n = v.toNat % 256 ^ n := by
  have hm : n ≤ s.ws.modulus := by cases h : s.ws <;> simp [WordSize.modulus] <;> omega
  exact Memory.readBig_writeBig _ _ _ _ _ hw hm

/-- A store leaves every byte outside its span as it was. -/
theorem State.byteAt_stored (s : State) (a v : Word) (n x : Nat) (h : x ∉ s.span a n) :
    (s.stored a n v).byteAt x = s.byteAt x :=
  Memory.read_writeBig_of_not_mem _ _ _ _ _ _ fun k hk e => h ((s.mem_span a n x).mpr ⟨k, hk, e⟩)

/-- A store keeps the canonical form. -/
theorem State.wf_stored (s : State) (a v : Word) (n : Nat) (hw : s.mem.wf = true) : (s.stored a n v).mem.wf = true :=
  Memory.wf_writeBig _ _ _ _ _ hw

/-- A write leaves alone every byte that is not writable. -/
theorem memWrite_keeps_readOnly (s t : State) (a v : Word) (n x : Nat) (h : memWrite s a n v = .next t)
    (hx : writable s.params x = false) : t.byteAt x = s.byteAt x := by
  obtain ⟨hw, rfl⟩ := (memWrite_eq_next s t a v n).mp h
  apply s.byteAt_stored a v n x
  intro hm
  simp only [canWrite, Bool.and_eq_true, List.all_eq_true] at hw
  rw [hw.2 x hm] at hx
  cases hx

/-! ## Stack -/

/-- push answers a state exactly when the slot below SP can be written. -/
theorem push_eq_next (s t : State) (v : Word) :
    push s v = .next t ↔
      canWrite s s.pushAddress s.ws.bytes = true ∧ t = (s.setReg sp s.pushAddress).stored s.pushAddress s.ws.bytes v :=
  memWrite_eq_next (s.setReg sp s.pushAddress) t s.pushAddress v s.ws.bytes

/-- pop answers a word exactly when the word at SP can be read. -/
theorem pop_eq_next (s t : State) (v : Word) :
    pop s = .next (v, t) ↔
      canRead s (s.reg sp) s.ws.bytes = true ∧ v = BitVec.ofNat 32 (s.word (s.reg sp) s.ws.bytes) ∧
        t = s.setReg sp (s.ws.narrow ((s.reg sp).toNat + s.ws.bytes)) := by
  simp only [pop, andThen_eq_next, memRead_eq_next]
  constructor
  · rintro ⟨w, ⟨hc, rfl⟩, e⟩
    cases e
    exact ⟨hc, rfl, rfl⟩
  · rintro ⟨hc, rfl, rfl⟩
    exact ⟨_, ⟨hc, rfl⟩, rfl⟩

/-- The slot below SP is the push address. -/
theorem State.pushAddress_eq (s : State) : s.pushAddress = s.slotBelow 1 := by
  simp [State.pushAddress, State.slotBelow, s.ws.modulus_eq]

/-- A push into a slot that cannot be written stops what follows it, by name. -/
theorem push_stop {α : Type} (s : State) (v : Word) (f : State → Answer α)
    (h : canWrite s (s.slotBelow 1) s.ws.bytes = false) :
    WriteStop s (s.slotBelow 1) s.ws.bytes (andThen (push s v) f) := by
  rw [← s.pushAddress_eq] at h ⊢
  exact memWrite_stop (s.setReg sp s.pushAddress) s.pushAddress v s.ws.bytes f h

/-- A pop of a word that cannot be read stops what follows it, by name. -/
theorem pop_stop {α : Type} (s : State) (f : Word × State → Answer α) (h : canRead s (s.reg sp) s.ws.bytes = false) :
    ReadStop s (s.reg sp) s.ws.bytes (andThen (pop s) f) := by
  rw [pop, andThen_assoc]
  exact memRead_stop s _ _ _ h

/-! ## Exceptions -/

/-- Entry answers a state exactly through its two pushes and its vector read. -/
theorem enter_eq_next (s t : State) (n : Nat) (ret : Word) :
    enter s n ret = .next t ↔
      ∃ s1 s2 v, push s s.sr.image = .next s1 ∧ push (s1.setSR { s1.sr with IF := false }) ret = .next s2 ∧
        memRead s2 (vectorAddress s2.ws n) s2.ws.bytes = .next v ∧ t = s2.setPc (handlerOf v) := by
  simp only [enter, andThen_eq_next]
  constructor
  · rintro ⟨s1, h1, s2, h2, v, h3, e⟩
    cases e
    exact ⟨s1, s2, v, h1, h2, h3, rfl⟩
  · rintro ⟨s1, s2, v, h1, h2, h3, rfl⟩
    exact ⟨s1, h1, s2, h2, v, h3, rfl⟩

/-- Return answers a state exactly through its two pops. -/
theorem returnFromException_eq_next (s t : State) :
    returnFromException s = .next t ↔
      ∃ v s1 w s2, pop s = .next (v, s1) ∧ pop s1 = .next (w, s2) ∧ t = (s2.setPc v.toNat).setSR (SR.ofImage w) := by
  simp only [returnFromException, andThen_eq_next]
  constructor
  · rintro ⟨⟨v, s1⟩, h1, ⟨w, s2⟩, h2, e⟩
    cases e
    exact ⟨v, s1, w, s2, h1, h2, rfl⟩
  · rintro ⟨v, s1, w, s2, h1, h2, rfl⟩
    exact ⟨(v, s1), h1, (w, s2), h2, rfl⟩

/-- Reset keeps the invariant. -/
theorem takeReset_inv (s : State) (h : s.Inv) : (takeReset s).Inv := by
  constructor
  · intro r
    rw [takeReset_regs, takeReset_ws, ← s.ws.modulus_eq]
    exact s.ws.narrow_lt _
  · rw [takeReset_pc, takeReset_ws]
    cases s.ws
    · decide
    · exact Config.start32.isLt
  · exact h.memForm
  · rw [takeReset_ws, takeReset_mem]; exact h.memRange
  · exact List.Pairwise.nil
  · rw [takeReset_pending]; exact fun _ hi => nomatch hi
  · rw [takeReset_ws, takeReset_outputs]; exact h.outputs

/-- The release of /RST keeps the invariant. -/
theorem released_inv (s : State) (h : s.Inv) : s.released.Inv := by
  have hr := takeReset_inv s h
  have hw : s.released.ws = (takeReset s).ws := by simp
  constructor
  · rw [hw]; exact hr.regs
  · rw [hw]; exact hr.pc
  · exact hr.memForm
  · rw [hw]; exact hr.memRange
  · exact hr.pendingOrder
  · exact hr.pendingLines
  · rw [hw]; exact hr.outputs

/-- The image of SR gives its flags back. -/
theorem SR.ofImage_image (sr : SR) : SR.ofImage sr.image = sr := by
  obtain ⟨a, b, c, d, e, f⟩ := sr
  cases a <;> cases b <;> cases c <;> cases d <;> cases e <;> cases f <;> rfl

theorem SR.toNat_image (sr : SR) : sr.image.toNat = srNumber sr := by
  obtain ⟨a, b, c, d, e, f⟩ := sr
  cases a <;> cases b <;> cases c <;> cases d <;> cases e <;> cases f <;> rfl

theorem srNumber_lt (sr : SR) : srNumber sr < 64 := by
  obtain ⟨a, b, c, d, e, f⟩ := sr
  cases a <;> cases b <;> cases c <;> cases d <;> cases e <;> cases f <;> decide

/-- The handler address is even. -/
theorem handlerOf_even (v : Word) : handlerOf v % 2 = 0 := by
  unfold handlerOf
  omega

end Sys2Proof.Machine
end

