-- ==== Sys2Proof/Laws/Operands.lean ====
section
/-! SUPPORT. Resolved operands: what resolution changes, and what reading and writing them does. -/

namespace Sys2Proof.Machine

/-- Resolution changes at most one register, the pre-decremented one. -/
theorem resolve_cases (s s1 : State) (op : Operand) (size : Nat) (loc : Resolved)
    (h : resolve s op size = .next (loc, s1)) :
    s1 = s ∨ ∃ r, op = .preDec r ∧ loc = .mem (s.decremented r size) ∧ s1 = s.setReg r (s.decremented r size) := by
  cases op <;> simp only [resolve, andThen_eq_next] at h
  case preDec r => cases h; exact .inr ⟨r, rfl, rfl, rfl⟩
  case preIndexed ie r => obtain ⟨ea, -, e⟩ := h; cases e; exact .inl rfl
  all_goals (cases h; exact .inl rfl)

section
variable (s s1 : State) (op : Operand) (size : Nat) (loc : Resolved) (h : resolve s op size = .next (loc, s1))
include h

theorem resolve_params : s1.params = s.params := by
  obtain rfl | ⟨r, -, -, rfl⟩ := resolve_cases s s1 op size loc h <;> rfl
theorem resolve_ws : s1.ws = s.ws := by
  obtain rfl | ⟨r, -, -, rfl⟩ := resolve_cases s s1 op size loc h <;> rfl
theorem resolve_mem : s1.mem = s.mem := by
  obtain rfl | ⟨r, -, -, rfl⟩ := resolve_cases s s1 op size loc h <;> rfl
theorem resolve_sr : s1.sr = s.sr := by
  obtain rfl | ⟨r, -, -, rfl⟩ := resolve_cases s s1 op size loc h <;> rfl
theorem resolve_pc : s1.pc = s.pc := by
  obtain rfl | ⟨r, -, -, rfl⟩ := resolve_cases s s1 op size loc h <;> rfl
theorem resolve_pending : s1.pending = s.pending := by
  obtain rfl | ⟨r, -, -, rfl⟩ := resolve_cases s s1 op size loc h <;> rfl
theorem resolve_rstLow : s1.rstLow = s.rstLow := by
  obtain rfl | ⟨r, -, -, rfl⟩ := resolve_cases s s1 op size loc h <;> rfl
theorem resolve_outputs : s1.outputs = s.outputs := by
  obtain rfl | ⟨r, -, -, rfl⟩ := resolve_cases s s1 op size loc h <;> rfl
theorem resolve_draws : s1.draws = s.draws := by
  obtain rfl | ⟨r, -, -, rfl⟩ := resolve_cases s s1 op size loc h <;> rfl

/-- A register the mode does not modify is as it was. -/
theorem resolve_reg (q : Reg) (hq : modifiedRegister op ≠ some q) : s1.reg q = s.reg q := by
  obtain rfl | ⟨r, rfl, -, rfl⟩ := resolve_cases s s1 op size loc h
  · rfl
  · exact s.reg_setReg_ne r q _ fun e => hq (by rw [e]; rfl)

/-- A resolved address has N bits, for an operand of at most T bytes. -/
theorem resolve_address_lt (ea : Word) (hl : loc = .mem ea) : ea.toNat < s.ws.modulus := by
  subst hl
  cases op <;> simp only [resolve, andThen_eq_next, memRead_eq_next] at h
  case imm => cases h
  case reg => cases h
  case ind => cases h; exact s.reg_lt _
  case postInc => cases h; exact s.reg_lt _
  case preDec => cases h; exact s.ws.narrow_lt _
  case direct => cases h; exact s.ws.narrow_lt _
  case indexed => cases h; exact s.ws.narrow_lt _
  case preIndexed =>
    obtain ⟨v, ⟨-, rfl⟩, e⟩ := h
    cases e
    have hb := s.word_lt (s.indexAddress ‹_› ‹_›) s.ws.bytes
    rw [← s.ws.modulus_bytes] at hb
    have := s.ws.modulus_le
    rw [BitVec.toNat_ofNat, Nat.mod_eq_of_lt (by omega)]
    exact hb
end

/-- The post-increment changes at most its own register. -/
theorem postIncrement_reg (s : State) (op : Operand) (n : Nat) (q : Reg) (h : modifiedRegister op ≠ some q) :
    (postIncrement s op n).reg q = s.reg q := by
  cases op
  case postInc r => exact s.reg_setReg_ne r q _ fun e => h (by rw [e]; rfl)
  all_goals rfl

/-- After resolution and post-increment the mode's register has moved as the table says, if nothing in between wrote it. -/
theorem auto_moved (s s1 s2 : State) (op : Operand) (n : Nat) (loc : Resolved) (h : resolve s op n = .next (loc, s1))
    (hws : s2.ws = s.ws) (hn : n ≤ s.ws.modulus) (hr : ∀ r, modifiedRegister op = some r → s2.reg r = s1.reg r) :
    AutoMoved op n s (postIncrement s2 op n) := by
  cases op <;> simp only [AutoMoved]
  case postInc r =>
    cases h
    simp [postIncrement, hr r rfl, hws, ← s.ws.modulus_eq]
  case preDec r =>
    cases h
    rw [postIncrement, hr r rfl, s.reg_setReg_self, State.decremented, s.ws.narrow_narrow, s.ws.toNat_narrow,
      ← s.ws.modulus_eq]
    congr 1
    omega

/-- Reading a resolved operand answers its datum where it is readable. -/
theorem readOperand_of_readable (s : State) (loc : Resolved) (n : Nat) (h : readable s loc n = true) :
    readOperand s loc n = .next (BitVec.ofNat 32 (s.datum loc n)) := by
  cases loc with
  | imm v => simp [readOperand, State.datum]
  | reg r => rfl
  | mem ea => exact memRead_of_canRead s ea n h

/-- Reading answers only where the operand is readable. -/
theorem readOperand_eq_next (s : State) (loc : Resolved) (n : Nat) (v : Word) (h : readOperand s loc n = .next v) :
    readable s loc n = true ∧ v = BitVec.ofNat 32 (s.datum loc n) := by
  cases loc with
  | imm w => cases h; simp [readable, State.datum]
  | reg r => cases h; exact ⟨rfl, rfl⟩
  | mem ea => exact (memRead_eq_next s ea v n).mp h

/-- Reading an operand that is not readable stops what follows it, by name: it stands in memory. -/
theorem readOperand_stop {α : Type} (s : State) (loc : Resolved) (n : Nat) (f : Word → Answer α)
    (h : readable s loc n = false) : ∃ ea, loc = .mem ea ∧ ReadStop s ea n (andThen (readOperand s loc n) f) := by
  cases loc with
  | imm v => cases h
  | reg r => cases h
  | mem ea => exact ⟨ea, rfl, memRead_stop s ea n f h⟩

/-- Resolving mode 111 stops what follows it, by name, where the pointer cannot be read. -/
theorem resolve_preIndexed_stop {α : Type} (s : State) (ie : Word) (r : Reg) (n : Nat) (f : Resolved × State → Answer α)
    (h : canRead s (s.indexAddress ie r) s.ws.bytes = false) :
    ReadStop s (s.indexAddress ie r) s.ws.bytes (andThen (resolve s (.preIndexed ie r) n) f) := by
  rw [resolve, andThen_assoc]
  exact memRead_stop s _ _ _ h

/-- Writing a resolved operand: a register is filled, or the bytes are stored. -/
theorem writeOperand_eq_next (s t : State) (loc : Resolved) (n : Nat) (v : Word) :
    writeOperand s loc n v = .next t ↔
      (∃ r, loc = .reg r ∧ t = s.setReg r (fillRegister s.params n (s.reg r) (lowBytes n v))) ∨
      (∃ ea, loc = .mem ea ∧ canWrite s ea n = true ∧ t = s.stored ea n v) := by
  cases loc with
  | imm w => simp [writeOperand]
  | reg r =>
    simp only [writeOperand]
    constructor
    · intro e; cases e; exact .inl ⟨r, rfl, rfl⟩
    · rintro (⟨r', e, rfl⟩ | ⟨ea, e, -⟩)
      · cases e; rfl
      · cases e
  | mem ea =>
    simp only [writeOperand, memWrite_eq_next]
    constructor
    · rintro ⟨h, rfl⟩
      exact .inr ⟨ea, rfl, h, rfl⟩
    · rintro (⟨r, e, -⟩ | ⟨ea', e, h, rfl⟩)
      · cases e
      · cases e; exact ⟨h, rfl⟩

end Sys2Proof.Machine
end

