-- ==== Sys2Proof/Laws/PerInstr.lean ====
section
/-! SUPPORT. Statements made per instruction, one lemma per constructor of `Instr`. -/

namespace Sys2Proof

/-- R98: whether a well-formed instruction is followed by an extension word is known from its instruction word, in either
variant of the encoding, and it is followed by one exactly when it carries one. -/
def Laws.ExtensionKnown.Statement (i : Instr) : Prop :=
  ∀ p : Params, i.wf p = true → hasExtension p (encodeWord p i) = i.extension.isSome

/-- It is enough to look at the word of variant A. -/
theorem Laws.ExtensionKnown.of_word (i : Instr) (h : extensionNormal i.word = i.extension.isSome) :
    Laws.ExtensionKnown.Statement i := by
  intro p _
  rw [hasExtension, normalise_encodeWord, h]

theorem Laws.ExtensionKnown.adc (sa sb d : Reg) : Laws.ExtensionKnown.Statement (.adc sa sb d) :=
  Laws.ExtensionKnown.of_word _ (extensionNormal_word1 0 sa sb d (by decide))

theorem Laws.ExtensionKnown.xor (sa sb d : Reg) : Laws.ExtensionKnown.Statement (.xor sa sb d) :=
  Laws.ExtensionKnown.of_word _ (extensionNormal_word1 1 sa sb d (by decide))

theorem Laws.ExtensionKnown.div (sa sb d : Reg) : Laws.ExtensionKnown.Statement (.div sa sb d) :=
  Laws.ExtensionKnown.of_word _ (extensionNormal_word1 2 sa sb d (by decide))

theorem Laws.ExtensionKnown.mul (sa sb d : Reg) : Laws.ExtensionKnown.Statement (.mul sa sb d) :=
  Laws.ExtensionKnown.of_word _ (extensionNormal_word1 3 sa sb d (by decide))

theorem Laws.ExtensionKnown.and (sa sb d : Reg) : Laws.ExtensionKnown.Statement (.and sa sb d) :=
  Laws.ExtensionKnown.of_word _ (extensionNormal_word1 4 sa sb d (by decide))

theorem Laws.ExtensionKnown.or (sa sb d : Reg) : Laws.ExtensionKnown.Statement (.or sa sb d) :=
  Laws.ExtensionKnown.of_word _ (extensionNormal_word1 5 sa sb d (by decide))

theorem Laws.ExtensionKnown.add (sa sb d : Reg) : Laws.ExtensionKnown.Statement (.add sa sb d) :=
  Laws.ExtensionKnown.of_word _ (extensionNormal_word1 6 sa sb d (by decide))

theorem Laws.ExtensionKnown.sub (sa sb d : Reg) : Laws.ExtensionKnown.Statement (.sub sa sb d) :=
  Laws.ExtensionKnown.of_word _ (extensionNormal_word1 7 sa sb d (by decide))

theorem Laws.ExtensionKnown.rlc (s d : Reg) : Laws.ExtensionKnown.Statement (.rlc s d) :=
  Laws.ExtensionKnown.of_word _ (extensionNormal_word2 0 s d (by decide))

theorem Laws.ExtensionKnown.rrc (s d : Reg) : Laws.ExtensionKnown.Statement (.rrc s d) :=
  Laws.ExtensionKnown.of_word _ (extensionNormal_word2 1 s d (by decide))

theorem Laws.ExtensionKnown.srl (s d : Reg) : Laws.ExtensionKnown.Statement (.srl s d) :=
  Laws.ExtensionKnown.of_word _ (extensionNormal_word2 2 s d (by decide))

theorem Laws.ExtensionKnown.sra (s d : Reg) : Laws.ExtensionKnown.Statement (.sra s d) :=
  Laws.ExtensionKnown.of_word _ (extensionNormal_word2 3 s d (by decide))

theorem Laws.ExtensionKnown.not (s d : Reg) : Laws.ExtensionKnown.Statement (.not s d) :=
  Laws.ExtensionKnown.of_word _ (extensionNormal_word2 4 s d (by decide))

theorem Laws.ExtensionKnown.sbb (s d : Reg) : Laws.ExtensionKnown.Statement (.sbb s d) :=
  Laws.ExtensionKnown.of_word _ (extensionNormal_word2 5 s d (by decide))

theorem Laws.ExtensionKnown.shl (s d : Reg) : Laws.ExtensionKnown.Statement (.shl s d) :=
  Laws.ExtensionKnown.of_word _ (extensionNormal_word2 6 s d (by decide))

theorem Laws.ExtensionKnown.neg (s d : Reg) : Laws.ExtensionKnown.Statement (.neg s d) :=
  Laws.ExtensionKnown.of_word _ (extensionNormal_word2 7 s d (by decide))

theorem Laws.ExtensionKnown.inp (s d : Reg) : Laws.ExtensionKnown.Statement (.inp s d) :=
  Laws.ExtensionKnown.of_word _ (extensionNormal_word2 8 s d (by decide))

theorem Laws.ExtensionKnown.out (s d : Reg) : Laws.ExtensionKnown.Statement (.out s d) :=
  Laws.ExtensionKnown.of_word _ (extensionNormal_word2 9 s d (by decide))

theorem Laws.ExtensionKnown.swb (s d : Reg) : Laws.ExtensionKnown.Statement (.swb s d) :=
  Laws.ExtensionKnown.of_word _ (extensionNormal_word2 10 s d (by decide))

theorem Laws.ExtensionKnown.rlb (s d : Reg) : Laws.ExtensionKnown.Statement (.rlb s d) :=
  Laws.ExtensionKnown.of_word _ (extensionNormal_word2 11 s d (by decide))

theorem Laws.ExtensionKnown.ani (s d : Reg) (ie : Word) : Laws.ExtensionKnown.Statement (.ani s d ie) :=
  Laws.ExtensionKnown.of_word _ (extensionNormal_word2 12 s d (by decide))

theorem Laws.ExtensionKnown.ext (s d : Reg) : Laws.ExtensionKnown.Statement (.ext s d) :=
  Laws.ExtensionKnown.of_word _ (extensionNormal_word2 13 s d (by decide))

theorem Laws.ExtensionKnown.adi (s d : Reg) (ie : Word) : Laws.ExtensionKnown.Statement (.adi s d ie) :=
  Laws.ExtensionKnown.of_word _ (extensionNormal_word2 14 s d (by decide))

theorem Laws.ExtensionKnown.cmp (s d : Reg) : Laws.ExtensionKnown.Statement (.cmp s d) :=
  Laws.ExtensionKnown.of_word _ (extensionNormal_word2 15 s d (by decide))

theorem Laws.ExtensionKnown.ldB (ra : Reg) (b : Operand) : Laws.ExtensionKnown.Statement (.ldB ra b) :=
  Laws.ExtensionKnown.of_word _ (extensionNormal_word3 1 1 ra b (by decide) (by decide))

theorem Laws.ExtensionKnown.ldW (ra : Reg) (b : Operand) : Laws.ExtensionKnown.Statement (.ldW ra b) :=
  Laws.ExtensionKnown.of_word _ (extensionNormal_word3 2 1 ra b (by decide) (by decide))

theorem Laws.ExtensionKnown.ldL (ra : Reg) (b : Operand) : Laws.ExtensionKnown.Statement (.ldL ra b) :=
  Laws.ExtensionKnown.of_word _ (extensionNormal_word3 3 1 ra b (by decide) (by decide))

theorem Laws.ExtensionKnown.stB (ra : Reg) (b : Operand) : Laws.ExtensionKnown.Statement (.stB ra b) :=
  Laws.ExtensionKnown.of_word _ (extensionNormal_word3 1 0 ra b (by decide) (by decide))

theorem Laws.ExtensionKnown.stW (ra : Reg) (b : Operand) : Laws.ExtensionKnown.Statement (.stW ra b) :=
  Laws.ExtensionKnown.of_word _ (extensionNormal_word3 2 0 ra b (by decide) (by decide))

theorem Laws.ExtensionKnown.stL (ra : Reg) (b : Operand) : Laws.ExtensionKnown.Statement (.stL ra b) :=
  Laws.ExtensionKnown.of_word _ (extensionNormal_word3 3 0 ra b (by decide) (by decide))

theorem Laws.ExtensionKnown.jmp (disp : Operand) : Laws.ExtensionKnown.Statement (.jmp disp) :=
  Laws.ExtensionKnown.of_word _ (extensionNormal_word4 .mp disp)

theorem Laws.ExtensionKnown.jeq (disp : Operand) : Laws.ExtensionKnown.Statement (.jeq disp) :=
  Laws.ExtensionKnown.of_word _ (extensionNormal_word4 .eq disp)

theorem Laws.ExtensionKnown.jne (disp : Operand) : Laws.ExtensionKnown.Statement (.jne disp) :=
  Laws.ExtensionKnown.of_word _ (extensionNormal_word4 .ne disp)

theorem Laws.ExtensionKnown.jge (disp : Operand) : Laws.ExtensionKnown.Statement (.jge disp) :=
  Laws.ExtensionKnown.of_word _ (extensionNormal_word4 .ge disp)

theorem Laws.ExtensionKnown.jle (disp : Operand) : Laws.ExtensionKnown.Statement (.jle disp) :=
  Laws.ExtensionKnown.of_word _ (extensionNormal_word4 .le disp)

theorem Laws.ExtensionKnown.jgt (disp : Operand) : Laws.ExtensionKnown.Statement (.jgt disp) :=
  Laws.ExtensionKnown.of_word _ (extensionNormal_word4 .gt disp)

theorem Laws.ExtensionKnown.jlw (disp : Operand) : Laws.ExtensionKnown.Statement (.jlw disp) :=
  Laws.ExtensionKnown.of_word _ (extensionNormal_word4 .lw disp)

theorem Laws.ExtensionKnown.jae (disp : Operand) : Laws.ExtensionKnown.Statement (.jae disp) :=
  Laws.ExtensionKnown.of_word _ (extensionNormal_word4 .ae disp)

theorem Laws.ExtensionKnown.jbe (disp : Operand) : Laws.ExtensionKnown.Statement (.jbe disp) :=
  Laws.ExtensionKnown.of_word _ (extensionNormal_word4 .be disp)

theorem Laws.ExtensionKnown.jab (disp : Operand) : Laws.ExtensionKnown.Statement (.jab disp) :=
  Laws.ExtensionKnown.of_word _ (extensionNormal_word4 .ab disp)

theorem Laws.ExtensionKnown.jbl (disp : Operand) : Laws.ExtensionKnown.Statement (.jbl disp) :=
  Laws.ExtensionKnown.of_word _ (extensionNormal_word4 .bl disp)

theorem Laws.ExtensionKnown.jvs (disp : Operand) : Laws.ExtensionKnown.Statement (.jvs disp) :=
  Laws.ExtensionKnown.of_word _ (extensionNormal_word4 .vs disp)

theorem Laws.ExtensionKnown.jvc (disp : Operand) : Laws.ExtensionKnown.Statement (.jvc disp) :=
  Laws.ExtensionKnown.of_word _ (extensionNormal_word4 .vc disp)

theorem Laws.ExtensionKnown.jea (a : Operand) : Laws.ExtensionKnown.Statement (.jea a) :=
  Laws.ExtensionKnown.of_word _ (extensionNormal_word5 1 a (by decide))

theorem Laws.ExtensionKnown.jsr (a : Operand) : Laws.ExtensionKnown.Statement (.jsr a) :=
  Laws.ExtensionKnown.of_word _ (extensionNormal_word5 2 a (by decide))

theorem Laws.ExtensionKnown.trp (a : Operand) : Laws.ExtensionKnown.Statement (.trp a) :=
  Laws.ExtensionKnown.of_word _ (extensionNormal_word5 3 a (by decide))

theorem Laws.ExtensionKnown.tst (a : Operand) : Laws.ExtensionKnown.Statement (.tst a) :=
  Laws.ExtensionKnown.of_word _ (extensionNormal_word5 4 a (by decide))

theorem Laws.ExtensionKnown.tsr (a : Operand) : Laws.ExtensionKnown.Statement (.tsr a) :=
  Laws.ExtensionKnown.of_word _ (extensionNormal_word5 5 a (by decide))

theorem Laws.ExtensionKnown.msr (a : Operand) : Laws.ExtensionKnown.Statement (.msr a) :=
  Laws.ExtensionKnown.of_word _ (extensionNormal_word5 6 a (by decide))

theorem Laws.ExtensionKnown.mpc (a : Operand) : Laws.ExtensionKnown.Statement (.mpc a) :=
  Laws.ExtensionKnown.of_word _ (extensionNormal_word5 7 a (by decide))

theorem Laws.ExtensionKnown.nop : Laws.ExtensionKnown.Statement (.nop) :=
  Laws.ExtensionKnown.of_word _ (extensionNormal_word6 0 (by decide))

theorem Laws.ExtensionKnown.hlt : Laws.ExtensionKnown.Statement (.hlt) :=
  Laws.ExtensionKnown.of_word _ (extensionNormal_word6 1 (by decide))

theorem Laws.ExtensionKnown.rts : Laws.ExtensionKnown.Statement (.rts) :=
  Laws.ExtensionKnown.of_word _ (extensionNormal_word6 2 (by decide))

theorem Laws.ExtensionKnown.rti : Laws.ExtensionKnown.Statement (.rti) :=
  Laws.ExtensionKnown.of_word _ (extensionNormal_word6 3 (by decide))

theorem Laws.ExtensionKnown.clc : Laws.ExtensionKnown.Statement (.clc) :=
  Laws.ExtensionKnown.of_word _ (extensionNormal_word6 4 (by decide))

theorem Laws.ExtensionKnown.stc : Laws.ExtensionKnown.Statement (.stc) :=
  Laws.ExtensionKnown.of_word _ (extensionNormal_word6 5 (by decide))

theorem Laws.ExtensionKnown.dsi : Laws.ExtensionKnown.Statement (.dsi) :=
  Laws.ExtensionKnown.of_word _ (extensionNormal_word6 6 (by decide))

theorem Laws.ExtensionKnown.eni : Laws.ExtensionKnown.Statement (.eni) :=
  Laws.ExtensionKnown.of_word _ (extensionNormal_word6 7 (by decide))

theorem Laws.ExtensionKnown.ldq (value : BitVec 8) (r : Reg) : Laws.ExtensionKnown.Statement (.ldq value r) :=
  Laws.ExtensionKnown.of_word _ (extensionNormal_word7 0 value r (by decide))

theorem Laws.ExtensionKnown.adq (value : BitVec 8) (r : Reg) : Laws.ExtensionKnown.Statement (.adq value r) :=
  Laws.ExtensionKnown.of_word _ (extensionNormal_word7 1 value r (by decide))

theorem Laws.ExtensionKnown.bmp (disp : BitVec 8) : Laws.ExtensionKnown.Statement (.bmp disp) :=
  Laws.ExtensionKnown.of_word _ (extensionNormal_word8 .mp disp)

theorem Laws.ExtensionKnown.beq (disp : BitVec 8) : Laws.ExtensionKnown.Statement (.beq disp) :=
  Laws.ExtensionKnown.of_word _ (extensionNormal_word8 .eq disp)

theorem Laws.ExtensionKnown.bne (disp : BitVec 8) : Laws.ExtensionKnown.Statement (.bne disp) :=
  Laws.ExtensionKnown.of_word _ (extensionNormal_word8 .ne disp)

theorem Laws.ExtensionKnown.bge (disp : BitVec 8) : Laws.ExtensionKnown.Statement (.bge disp) :=
  Laws.ExtensionKnown.of_word _ (extensionNormal_word8 .ge disp)

theorem Laws.ExtensionKnown.ble (disp : BitVec 8) : Laws.ExtensionKnown.Statement (.ble disp) :=
  Laws.ExtensionKnown.of_word _ (extensionNormal_word8 .le disp)

theorem Laws.ExtensionKnown.bgt (disp : BitVec 8) : Laws.ExtensionKnown.Statement (.bgt disp) :=
  Laws.ExtensionKnown.of_word _ (extensionNormal_word8 .gt disp)

theorem Laws.ExtensionKnown.blw (disp : BitVec 8) : Laws.ExtensionKnown.Statement (.blw disp) :=
  Laws.ExtensionKnown.of_word _ (extensionNormal_word8 .lw disp)

theorem Laws.ExtensionKnown.bae (disp : BitVec 8) : Laws.ExtensionKnown.Statement (.bae disp) :=
  Laws.ExtensionKnown.of_word _ (extensionNormal_word8 .ae disp)

theorem Laws.ExtensionKnown.bbe (disp : BitVec 8) : Laws.ExtensionKnown.Statement (.bbe disp) :=
  Laws.ExtensionKnown.of_word _ (extensionNormal_word8 .be disp)

theorem Laws.ExtensionKnown.bab (disp : BitVec 8) : Laws.ExtensionKnown.Statement (.bab disp) :=
  Laws.ExtensionKnown.of_word _ (extensionNormal_word8 .ab disp)

theorem Laws.ExtensionKnown.bbl (disp : BitVec 8) : Laws.ExtensionKnown.Statement (.bbl disp) :=
  Laws.ExtensionKnown.of_word _ (extensionNormal_word8 .bl disp)

theorem Laws.ExtensionKnown.bvs (disp : BitVec 8) : Laws.ExtensionKnown.Statement (.bvs disp) :=
  Laws.ExtensionKnown.of_word _ (extensionNormal_word8 .vs disp)

theorem Laws.ExtensionKnown.bvc (disp : BitVec 8) : Laws.ExtensionKnown.Statement (.bvc disp) :=
  Laws.ExtensionKnown.of_word _ (extensionNormal_word8 .vc disp)

end Sys2Proof
end

