-- ==== Sys2Proof/Laws/Stack.lean ====
section
/-! SUPPORT. The slots below SP, and what a push and a pop do when the stack can be accessed. -/

namespace Sys2Proof.Machine

theorem toNat_slotBelow (s : State) (k : Nat) :
    (s.slotBelow k).toNat = ((s.reg sp).toNat + (s.ws.modulus - k * s.ws.bytes)) % s.ws.modulus := by
  rw [State.slotBelow, s.ws.toNat_narrow, s.ws.modulus_eq]

/-- The two slots an exception is saved in share no byte. -/
theorem slotBelow_disjoint (s : State) (x : Nat) (h : x ∈ s.span (s.slotBelow 1) s.ws.bytes) :
    x ∉ s.span (s.slotBelow 2) s.ws.bytes := by
  rw [State.mem_span] at *
  obtain ⟨k, hk, rfl⟩ := h
  rintro ⟨j, hj, e⟩
  rw [toNat_slotBelow s 1, toNat_slotBelow s 2] at e
  have hr := s.reg_lt sp
  generalize (s.reg sp).toNat = v at *
  generalize s.ws = W at *
  cases W <;> simp only [WordSize.modulus, WordSize.bytes] at * <;> omega

/-- The word at an address depends on its bytes only. -/
theorem State.word_congr (s t : State) (a : Word) (n : Nat) (hws : t.ws = s.ws)
    (h : ∀ x ∈ s.span a n, t.byteAt x = s.byteAt x) : t.word a n = s.word a n := by
  rw [State.word, State.word, hws]
  exact Memory.readBig_congr _ _ _ _ _ fun k hk => h _ ((s.mem_span a n _).mpr ⟨k, hk, rfl⟩)

theorem canWrite_congr (s t : State) (a : Word) (n : Nat) (h : t.params = s.params) : canWrite t a n = canWrite s a n := by
  simp [canWrite, State.span, State.ws, h]

theorem canRead_congr (s t : State) (a : Word) (n : Nat) (h : t.params = s.params) : canRead t a n = canRead s a n := by
  simp [canRead, State.span, State.ws, h]

/-- A push where the slot can be written. -/
theorem push_of_canWrite (s : State) (v : Word) (h : canWrite s (s.slotBelow 1) s.ws.bytes = true) :
    push s v = .next ((s.setReg sp (s.slotBelow 1)).stored (s.slotBelow 1) s.ws.bytes v) := by
  rw [push_eq_next, State.pushAddress_eq]
  exact ⟨h, rfl⟩

/-- A pop where the slot can be read. -/
theorem pop_of_canRead (s : State) (h : canRead s (s.reg sp) s.ws.bytes = true) :
    pop s = .next (BitVec.ofNat 32 (s.word (s.reg sp) s.ws.bytes), s.setReg sp (s.ws.narrow ((s.reg sp).toNat + s.ws.bytes))) :=
  (pop_eq_next _ _ _).mpr ⟨h, rfl, rfl⟩

/-- After one push the slot below is the second slot below. -/
theorem slotBelow_of_pushed (s t : State) (hp : t.params = s.params) (h : t.reg sp = s.slotBelow 1) :
    t.slotBelow 1 = s.slotBelow 2 := by
  have hws : t.ws = s.ws := by simp [State.ws, hp]
  apply BitVec.eq_of_toNat_eq
  rw [toNat_slotBelow t 1, toNat_slotBelow s 2, h, hws, toNat_slotBelow s 1]
  have hr := s.reg_lt sp
  generalize (s.reg sp).toNat = v at *
  generalize s.ws = W at *
  cases W <;> simp only [WordSize.modulus, WordSize.bytes] at * <;> omega

end Sys2Proof.Machine
end

