-- ==== Sys2Proof/Tests/Slice0.lean ====
section
/-! SUPPORT. The model's own tests: ill-formed terms, words written out from the spec's encodings, single steps taken from
spec/95_test_vectors.md, and states that meet the hypotheses of each obligation. -/

open Sys2Proof Sys2Proof.Machine

namespace Sys2Proof.Tests

/-! ## Helpers -/

def p16 : Params := Params.standard .n16
def p32 : Params := Params.standard .n32

/-- A machine whose first 4096 bytes are memory, of which the last 256 are read-only, without RLB and EXT. -/
def pSmall : Params :=
  { p16 with
    hasRlbExt := false
    regions := [{ base := 0, len := 0x1000, readOnly := false }, { base := 0xF00, len := 0x100, readOnly := true }] }

/-- A machine at PC = 0x1000 with registers, a value of SR and big-endian 16-bit words of memory as given. -/
def bootWith (p : Params) (regs : List (Reg × Word)) (sr : Word) (mem : List (Nat × Nat)) : State :=
  let s := regs.foldl (fun s r => s.setReg r.1 r.2) { State.resetWith p with pc := 0x1000, sr := SR.ofImage sr }
  { s with mem := mem.foldl (fun m c => Memory.writeBig s.ws.modulus m c.1 2 c.2) [] }

def boot : List (Reg × Word) → Word → List (Nat × Nat) → State := bootWith p16

/-- The state after one step that runs the given instruction. -/
def after (s : State) (nbits w : Nat) : Option State :=
  match step (s.withFetchWord nbits w) with
  | .next t => some t
  | .fault _ => none
  | .refused _ => none

def pcAfter (s : State) (nbits w : Nat) : Option Word := (after s nbits w).map State.pc

/-- Why the step that runs the given instruction is refused. -/
def refusal (s : State) (nbits w : Nat) : Option Refusal :=
  match step (s.withFetchWord nbits w) with
  | .next _ => none
  | .fault _ => none
  | .refused r => some r

/-! ## Ill-formed terms (WellFormed) -/

theorem test_wf_extension_word_too_wide :
    (Instr.ani 1 2 0x10000).wf p16 = false ∧ (Instr.adi 1 2 0x10000).wf p16 = false ∧
      (Instr.ldW 1 (.imm 0x10000)).wf p16 = false ∧ (Instr.stW 1 (.direct 0x10000)).wf p16 = false ∧
      (Instr.jmp (.indexed 0x10000 3)).wf p16 = false ∧ (Instr.tst (.preIndexed 0x10000 3)).wf p16 = false := by decide
theorem test_wf_extension_word_fits :
    (Instr.ani 1 2 0xFFFF).wf p16 = true ∧ (Instr.tst (.imm 0xFFFF)).wf p16 = true ∧
      (Instr.ani 1 2 0xFFFFFFFF).wf p32 = true := by decide
theorem test_wf_immediate_destination :
    (Instr.stB 1 (.imm 5)).wf p16 = false ∧ (Instr.stW 1 (.imm 5)).wf p16 = false ∧
      (Instr.stL 1 (.imm 5)).wf p32 = false ∧ (Instr.tsr (.imm 5)).wf p16 = false ∧ (Instr.msr (.imm 5)).wf p16 = false ∧
      (Instr.mpc (.imm 5)).wf p16 = false := by decide
theorem test_wf_no_effective_address :
    (Instr.jea (.imm 5)).wf p16 = false ∧ (Instr.jea (.reg 3)).wf p16 = false ∧
      (Instr.jsr (.imm 5)).wf p16 = false ∧ (Instr.jsr (.reg 3)).wf p16 = false := by decide
theorem test_wf_long_needs_n32 :
    (Instr.ldL 1 (.ind 2)).wf p16 = false ∧ (Instr.stL 1 (.ind 2)).wf p16 = false ∧
      (Instr.ldL 1 (.ind 2)).wf p32 = true ∧ (Instr.stL 1 (.ind 2)).wf p32 = true := by decide
theorem test_wf_optional_instructions :
    (Instr.rlb 1 2).wf pSmall = false ∧ (Instr.ext 1 2).wf pSmall = false ∧
      (Instr.rlb 1 2).wf p16 = true ∧ (Instr.ext 1 2).wf p16 = true := by decide

/-! ## Decoding: each word is written out from the format of its group (30_encoding.md R82 to R89) -/

/-- `1 OP3 CRsa CRsb CRd` with CRsa = 0001, CRsb = 0010, CRd = 0011. -/
theorem test_decode_group1 :
    decodeTableWord 16 0b1000000100100011 = some (.adc 1 2 3) ∧
    decodeTableWord 16 0b1001000100100011 = some (.xor 1 2 3) ∧
    decodeTableWord 16 0b1010000100100011 = some (.div 1 2 3) ∧
    decodeTableWord 16 0b1011000100100011 = some (.mul 1 2 3) ∧
    decodeTableWord 16 0b1100000100100011 = some (.and 1 2 3) ∧
    decodeTableWord 16 0b1101000100100011 = some (.or 1 2 3) ∧
    decodeTableWord 16 0b1110000100100011 = some (.add 1 2 3) ∧
    decodeTableWord 16 0b1111000100100011 = some (.sub 1 2 3) := by decide

/-- `0100 OP2 CRs CRd` with CRs = 1010, CRd = 0101. -/
theorem test_decode_group2 :
    decodeTableWord 16 0b0100000010100101 = some (.rlc 10 5) ∧
    decodeTableWord 16 0b0100000110100101 = some (.rrc 10 5) ∧
    decodeTableWord 16 0b0100001010100101 = some (.srl 10 5) ∧
    decodeTableWord 16 0b0100001110100101 = some (.sra 10 5) ∧
    decodeTableWord 16 0b0100010010100101 = some (.not 10 5) ∧
    decodeTableWord 16 0b0100010110100101 = some (.sbb 10 5) ∧
    decodeTableWord 16 0b0100011010100101 = some (.shl 10 5) ∧
    decodeTableWord 16 0b0100011110100101 = some (.neg 10 5) ∧
    decodeTableWord 16 0b0100100010100101 = some (.inp 10 5) ∧
    decodeTableWord 16 0b0100100110100101 = some (.out 10 5) ∧
    decodeTableWord 16 0b0100101010100101 = some (.swb 10 5) ∧
    decodeTableWord 16 0b0100101110100101 = some (.rlb 10 5) ∧
    decodeTableWord 16 0b0100110110100101 = some (.ext 10 5) ∧
    decodeTableWord 16 0b0100111110100101 = some (.cmp 10 5) := by decide

/-- ANI and ADI, whose 32-bit extension word follows, its high half first (R51, R97). -/
theorem test_decode_group2_extension :
    decodeTableWord 48 0x567812344C12 = some (.ani 1 2 0x12345678) ∧
    decodeTableWord 48 0x567812344E12 = some (.adi 1 2 0x12345678) := by decide

/-- `01 Type D ModeB CRa CRb` with CRa = 0001, CRb = 0010, one mode for each row. -/
theorem test_decode_group3 :
    decodeTableWord 16 0b0101100100010010 = some (.ldB 1 (.reg 2)) ∧
    decodeTableWord 16 0b0110101100010010 = some (.ldW 1 (.postInc 2)) ∧
    decodeTableWord 16 0b0111101000010010 = some (.ldL 1 (.ind 2)) ∧
    decodeTableWord 16 0b0101010000010010 = some (.stB 1 (.preDec 2)) ∧
    decodeTableWord 48 0b0110011000010010 = some (.stW 1 (.indexed 0 2)) ∧
    decodeTableWord 48 0b0111011100010010 = some (.stL 1 (.preIndexed 0 2)) := by decide

theorem test_decode_group3_extension :
    decodeTableWord 48 0x567812345810 = some (.ldB 1 (.imm 0x12345678)) ∧
    decodeTableWord 48 0x567812346510 = some (.stW 1 (.direct 0x12345678)) := by decide

/-- `0000 CC 1 Mode CR` with Mode = 010, CR = 0011. -/
theorem test_decode_group4 :
    decodeTableWord 16 0b0000000110100011 = some (.jmp (.ind 3)) ∧
    decodeTableWord 16 0b0000001010100011 = some (.jeq (.ind 3)) ∧
    decodeTableWord 16 0b0000001110100011 = some (.jne (.ind 3)) ∧
    decodeTableWord 16 0b0000010010100011 = some (.jge (.ind 3)) ∧
    decodeTableWord 16 0b0000010110100011 = some (.jle (.ind 3)) ∧
    decodeTableWord 16 0b0000011010100011 = some (.jgt (.ind 3)) ∧
    decodeTableWord 16 0b0000011110100011 = some (.jlw (.ind 3)) ∧
    decodeTableWord 16 0b0000100010100011 = some (.jae (.ind 3)) ∧
    decodeTableWord 16 0b0000100110100011 = some (.jbe (.ind 3)) ∧
    decodeTableWord 16 0b0000101010100011 = some (.jab (.ind 3)) ∧
    decodeTableWord 16 0b0000101110100011 = some (.jbl (.ind 3)) ∧
    decodeTableWord 16 0b0000110010100011 = some (.jvs (.ind 3)) ∧
    decodeTableWord 16 0b0000110110100011 = some (.jvc (.ind 3)) := by decide

/-- `0000 1 OP1 0 Mode CR` with Mode = 100, CR = 1001. -/
theorem test_decode_group5 :
    decodeTableWord 16 0b0000100101001001 = some (.jea (.preDec 9)) ∧
    decodeTableWord 16 0b0000101001001001 = some (.jsr (.preDec 9)) ∧
    decodeTableWord 16 0b0000101101001001 = some (.trp (.preDec 9)) ∧
    decodeTableWord 16 0b0000110001001001 = some (.tst (.preDec 9)) ∧
    decodeTableWord 16 0b0000110101001001 = some (.tsr (.preDec 9)) ∧
    decodeTableWord 16 0b0000111001001001 = some (.msr (.preDec 9)) ∧
    decodeTableWord 16 0b0000111101001001 = some (.mpc (.preDec 9)) := by decide

/-- `00000 OP0 00000000`. -/
theorem test_decode_group6 :
    decodeTableWord 16 0b0000000000000000 = some .nop ∧ decodeTableWord 16 0b0000000100000000 = some .hlt ∧
    decodeTableWord 16 0b0000001000000000 = some .rts ∧ decodeTableWord 16 0b0000001100000000 = some .rti ∧
    decodeTableWord 16 0b0000010000000000 = some .clc ∧ decodeTableWord 16 0b0000010100000000 = some .stc ∧
    decodeTableWord 16 0b0000011000000000 = some .dsi ∧ decodeTableWord 16 0b0000011100000000 = some .eni := by decide

/-- `001 OPQ ValueCode CR`. -/
theorem test_decode_group7 :
    decodeTableWord 16 0b0010101001010111 = some (.ldq 0xA5 7) ∧
    decodeTableWord 16 0b0011101001010111 = some (.adq 0xA5 7) := by decide

/-- `0001 CC DispCode` with DispCode = 10100101. -/
theorem test_decode_group8 :
    decodeTableWord 16 0b0001000110100101 = some (.bmp 0xA5) ∧
    decodeTableWord 16 0b0001001010100101 = some (.beq 0xA5) ∧
    decodeTableWord 16 0b0001001110100101 = some (.bne 0xA5) ∧
    decodeTableWord 16 0b0001010010100101 = some (.bge 0xA5) ∧
    decodeTableWord 16 0b0001010110100101 = some (.ble 0xA5) ∧
    decodeTableWord 16 0b0001011010100101 = some (.bgt 0xA5) ∧
    decodeTableWord 16 0b0001011110100101 = some (.blw 0xA5) ∧
    decodeTableWord 16 0b0001100010100101 = some (.bae 0xA5) ∧
    decodeTableWord 16 0b0001100110100101 = some (.bbe 0xA5) ∧
    decodeTableWord 16 0b0001101010100101 = some (.bab 0xA5) ∧
    decodeTableWord 16 0b0001101110100101 = some (.bbl 0xA5) ∧
    decodeTableWord 16 0b0001110010100101 = some (.bvs 0xA5) ∧
    decodeTableWord 16 0b0001110110100101 = some (.bvc 0xA5) := by decide

/-- Variant B: group III `00 Type …`, group VII `011 OPQ …`, group VIII `0101 CC …` (D2). -/
theorem test_decode_variant_b :
    decodeBytes { p16 with encVariant := .b } [0x2B, 0x1F] = .ok (.ldW 1 (.postInc 15), []) ∧
    decodeBytes { p16 with encVariant := .b } [0x6F, 0xF1] = .ok (.ldq 0xFF 1, []) ∧
    decodeBytes { p16 with encVariant := .b } [0x51, 0xFE] = .ok (.bmp 0xFE, []) := ⟨rfl, rfl, rfl⟩

/-- One word of each item of R100, refused with that item's name. -/
theorem test_reserved_words :
    refusal (boot [] 0 []) 16 0x0080 = some (.reservedEncoding .conditionCode) ∧
    refusal (boot [] 0 []) 16 0x1F04 = some (.reservedEncoding .conditionCode) ∧
    refusal (boot [] 0 []) 16 0x0811 = some (.reservedEncoding .operationZero) ∧
    refusal (boot [] 0 []) 16 0x0140 = some (.reservedEncoding .groupSixLowBits) ∧
    refusal (boot [] 0 []) 16 0x7A12 = some (.reservedEncoding .longOperand) ∧
    refusal (boot [] 0 []) 32 0x12346811 = some (.reservedEncoding .registerField) ∧
    refusal (boot [] 0 []) 32 0x00056010 = some (.reservedEncoding .immediateDestination) ∧
    refusal (boot [] 0 []) 16 0x0913 = some (.reservedEncoding .noEffectiveAddress) ∧
    refusal (bootWith { p16 with hasRlbExt := false } [] 0 []) 16 0x4B12 = some (.reservedEncoding .notImplemented) := by
  decide

/-- The bytes of an instruction, from the spec's own examples (R153, R186, R280). -/
theorem test_encode :
    encode p16 (.ani 1 2 0x00FF) = [0x4C, 0x12, 0x00, 0xFF] ∧ encode p16 (.ldW 1 (.postInc 15)) = [0x6B, 0x1F] ∧
    encode p32 (.adi 1 2 0x12345678) = [0x4E, 0x12, 0x12, 0x34, 0x56, 0x78] ∧
    encode { p16 with encVariant := .b } (.bmp 0xFE) = [0x51, 0xFE] := by decide

/-! ## Single steps: expected results from 95_test_vectors.md section 2 -/

/-! ### Group I (95_test_vectors.md 2.1) -/

/-- ADC R1,R2,R3: R1=0x7FFF, R2=0x0000; CF=1 -/
theorem test_adc_carry_in_overflows :
    (after (boot [(1, 0x7FFF), (2, 0x0000)] 0x02 []) 16 0x8123).map (fun t => (srNumber t.sr, t.pc, t.reg 3)) =
      some (0x05, 0x1002, 0x8000) := by decide

/-- ADC R1,R2,R3: R1=0xFFFF, R2=0x0000; CF=1 -/
theorem test_adc_wraps :
    (after (boot [(1, 0xFFFF), (2, 0x0000)] 0x02 []) 16 0x8123).map (fun t => (srNumber t.sr, t.pc, t.reg 3)) =
      some (0x0A, 0x1002, 0x0000) := by decide

/-- XOR R1,R2,R3: R1=0xFF00, R2=0x0FF0; CF=1, VF=1 -/
theorem test_xor :
    (after (boot [(1, 0xFF00), (2, 0x0FF0)] 0x06 []) 16 0x9123).map (fun t => (srNumber t.sr, t.pc, t.reg 3)) =
      some (0x01, 0x1002, 0xF0F0) := by decide

/-- XOR R1,R1,R1: R1=0xABCD -/
theorem test_xor_same_register :
    (after (boot [(1, 0xABCD)] 0x00 []) 16 0x9111).map (fun t => (srNumber t.sr, t.pc, t.reg 1)) =
      some (0x08, 0x1002, 0x0000) := by decide

/-- DIV R1,R2,R3: R1=0xFFF9, R2=0x0002 -/
theorem test_div_negative_dividend :
    (after (boot [(1, 0xFFF9), (2, 0x0002)] 0x00 []) 16 0xA123).map
      (fun t => (t.sr.ZF, t.sr.VF, t.sr.NF, t.pc, t.reg 3, t.reg 1)) =
      some (false, false, true, 0x1002, 0xFFFD, 0xFFFF) := by decide

/-- DIV R1,R2,R3: R1=0x0007, R2=0xFFFE -/
theorem test_div_negative_divisor :
    (after (boot [(1, 0x0007), (2, 0xFFFE)] 0x00 []) 16 0xA123).map
      (fun t => (t.sr.ZF, t.sr.VF, t.sr.NF, t.pc, t.reg 3, t.reg 1)) =
      some (false, false, true, 0x1002, 0xFFFD, 0x0001) := by decide

/-- MUL R1,R2,R3: R1=0x0003, R2=0xFFFE -/
theorem test_mul_negative :
    (after (boot [(1, 0x0003), (2, 0xFFFE)] 0x00 []) 16 0xB123).map
      (fun t => (t.sr.ZF, t.sr.VF, t.sr.NF, t.pc, t.reg 3)) =
      some (false, false, true, 0x1002, 0xFFFA) := by decide

/-- MUL R1,R2,R3: R1=0x0100, R2=0x0100 -/
theorem test_mul_overflow_to_zero :
    (after (boot [(1, 0x0100), (2, 0x0100)] 0x00 []) 16 0xB123).map
      (fun t => (t.sr.ZF, t.sr.VF, t.sr.NF, t.pc, t.reg 3)) =
      some (true, true, false, 0x1002, 0x0000) := by decide

/-- AND R1,R2,R3: R1=0xFF00, R2=0x0FF0; CF=1, VF=1 -/
theorem test_and_clears_stale_flags :
    (after (boot [(1, 0xFF00), (2, 0x0FF0)] 0x06 []) 16 0xC123).map (fun t => (srNumber t.sr, t.pc, t.reg 3)) =
      some (0x00, 0x1002, 0x0F00) := by decide

/-- OR R1,R2,R3: R1=0xFF00, R2=0x0FF0; CF=1, VF=1 -/
theorem test_or :
    (after (boot [(1, 0xFF00), (2, 0x0FF0)] 0x06 []) 16 0xD123).map (fun t => (srNumber t.sr, t.pc, t.reg 3)) =
      some (0x01, 0x1002, 0xFFF0) := by decide

/-- ADD R1,R2,R3: R1=0x8000, R2=0x8000 -/
theorem test_add_both_overflows :
    (after (boot [(1, 0x8000), (2, 0x8000)] 0x00 []) 16 0xE123).map (fun t => (srNumber t.sr, t.pc, t.reg 3)) =
      some (0x0E, 0x1002, 0x0000) := by decide

/-- ADD R1,R1,R1: R1=0x4000 -/
theorem test_add_one_register_thrice :
    (after (boot [(1, 0x4000)] 0x00 []) 16 0xE111).map (fun t => (srNumber t.sr, t.pc, t.reg 1)) =
      some (0x05, 0x1002, 0x8000) := by decide

/-- SUB R1,R2,R3: R1=0x0003, R2=0x0005 -/
theorem test_sub_borrow :
    (after (boot [(1, 0x0003), (2, 0x0005)] 0x00 []) 16 0xF123).map (fun t => (srNumber t.sr, t.pc, t.reg 3)) =
      some (0x03, 0x1002, 0xFFFE) := by decide

/-- SUB R1,R2,R3: R1=0x8000, R2=0x0001 -/
theorem test_sub_overflow :
    (after (boot [(1, 0x8000), (2, 0x0001)] 0x00 []) 16 0xF123).map (fun t => (srNumber t.sr, t.pc, t.reg 3)) =
      some (0x04, 0x1002, 0x7FFF) := by decide

/-! ### Group II (2.2) -/

/-- RLC R1,R2: R1=0x4000; CF=1 -/
theorem test_rlc_carry_in :
    (after (boot [(1, 0x4000)] 0x02 []) 16 0x4012).map (fun t => (srNumber t.sr, t.pc, t.reg 2)) =
      some (0x01, 0x1002, 0x8001) := by decide

/-- RLC R1,R2: R1=0x8001; CF=0 -/
theorem test_rlc_carry_out :
    (after (boot [(1, 0x8001)] 0x00 []) 16 0x4012).map (fun t => (srNumber t.sr, t.pc, t.reg 2)) =
      some (0x02, 0x1002, 0x0002) := by decide

/-- RRC R1,R2: R1=0x0002; CF=1 -/
theorem test_rrc_carry_in :
    (after (boot [(1, 0x0002)] 0x02 []) 16 0x4112).map (fun t => (srNumber t.sr, t.pc, t.reg 2)) =
      some (0x01, 0x1002, 0x8001) := by decide

/-- RRC R1,R2: R1=0x0001; CF=0 -/
theorem test_rrc_carry_out :
    (after (boot [(1, 0x0001)] 0x00 []) 16 0x4112).map (fun t => (srNumber t.sr, t.pc, t.reg 2)) =
      some (0x0A, 0x1002, 0x0000) := by decide

/-- SRL R1,R2: R1=0x8001 -/
theorem test_srl :
    (after (boot [(1, 0x8001)] 0x00 []) 16 0x4212).map (fun t => (srNumber t.sr, t.pc, t.reg 2)) =
      some (0x02, 0x1002, 0x4000) := by decide

/-- SRA R1,R2: R1=0xFFFD -/
theorem test_sra_keeps_sign :
    (after (boot [(1, 0xFFFD)] 0x00 []) 16 0x4312).map (fun t => (srNumber t.sr, t.pc, t.reg 2)) =
      some (0x03, 0x1002, 0xFFFE) := by decide

/-- NOT R1,R2: R1=0x00FF; CF=1, VF=1 -/
theorem test_not :
    (after (boot [(1, 0x00FF)] 0x06 []) 16 0x4412).map (fun t => (srNumber t.sr, t.pc, t.reg 2)) =
      some (0x01, 0x1002, 0xFF00) := by decide

/-- SBB R1,R2: R1=0x0000; CF=1 -/
theorem test_sbb_borrow_out :
    (after (boot [(1, 0x0000)] 0x02 []) 16 0x4512).map (fun t => (srNumber t.sr, t.pc, t.reg 2)) =
      some (0x03, 0x1002, 0xFFFF) := by decide

/-- SBB R1,R2: R1=0x8000; CF=1 -/
theorem test_sbb_overflow :
    (after (boot [(1, 0x8000)] 0x02 []) 16 0x4512).map (fun t => (srNumber t.sr, t.pc, t.reg 2)) =
      some (0x04, 0x1002, 0x7FFF) := by decide

/-- SHL R1,R2: R1=0xC000 -/
theorem test_shl :
    (after (boot [(1, 0xC000)] 0x00 []) 16 0x4612).map (fun t => (srNumber t.sr, t.pc, t.reg 2)) =
      some (0x03, 0x1002, 0x8000) := by decide

/-- NEG R1,R2: R1=0x0000 -/
theorem test_neg_of_zero :
    (after (boot [(1, 0x0000)] 0x00 []) 16 0x4712).map (fun t => (srNumber t.sr, t.pc, t.reg 2)) =
      some (0x08, 0x1002, 0x0000) := by decide

/-- NEG R1,R2: R1=0x8000 -/
theorem test_neg_of_least :
    (after (boot [(1, 0x8000)] 0x00 []) 16 0x4712).map (fun t => (srNumber t.sr, t.pc, t.reg 2)) =
      some (0x07, 0x1002, 0x8000) := by decide

/-- SWB R1,R2: R1=0x12FF -/
theorem test_swb :
    (after (boot [(1, 0x12FF)] 0x00 []) 16 0x4A12).map (fun t => (srNumber t.sr, t.pc, t.reg 2)) =
      some (0x01, 0x1002, 0xFF12) := by decide

/-- RLB R1,R2: R1=0x1234 -/
theorem test_rlb :
    (after (boot [(1, 0x1234)] 0x00 []) 16 0x4B12).map (fun t => (srNumber t.sr, t.pc, t.reg 2)) =
      some (0x00, 0x1002, 0x2341) := by decide

/-- RLB R1,R2: R1=0xF000 -/
theorem test_rlb_high_digit :
    (after (boot [(1, 0xF000)] 0x00 []) 16 0x4B12).map (fun t => (srNumber t.sr, t.pc, t.reg 2)) =
      some (0x00, 0x1002, 0x000F) := by decide

/-- ANI R1,#0x00F0,R2: R1=0x1234; CF=1 -/
theorem test_ani :
    (after (boot [(1, 0x1234)] 0x02 []) 32 0x00F04C12).map (fun t => (srNumber t.sr, t.pc, t.reg 2)) =
      some (0x00, 0x1004, 0x0030) := by decide

/-- EXT R1,R2: R1=0x1280 -/
theorem test_ext_negative :
    (after (boot [(1, 0x1280)] 0x00 []) 16 0x4D12).map (fun t => (srNumber t.sr, t.pc, t.reg 2)) =
      some (0x01, 0x1002, 0xFF80) := by decide

/-- EXT R1,R2: R1=0xFF7F -/
theorem test_ext_positive :
    (after (boot [(1, 0xFF7F)] 0x00 []) 16 0x4D12).map (fun t => (srNumber t.sr, t.pc, t.reg 2)) =
      some (0x00, 0x1002, 0x007F) := by decide

/-- ADI R1,#0xFFFF,R2: R1=0x0001 -/
theorem test_adi_wraps :
    (after (boot [(1, 0x0001)] 0x00 []) 32 0xFFFF4E12).map (fun t => (srNumber t.sr, t.pc, t.reg 2)) =
      some (0x0A, 0x1004, 0x0000) := by decide

/-- ADI R1,#1,R2: R1=0x7FFF -/
theorem test_adi_overflow :
    (after (boot [(1, 0x7FFF)] 0x00 []) 32 0x00014E12).map (fun t => (srNumber t.sr, t.pc, t.reg 2)) =
      some (0x05, 0x1004, 0x8000) := by decide

/-- CMP R1,R2: R1=0xFFFF, R2=0x0001 -/
theorem test_cmp_unsigned_above_signed_lower :
    (after (boot [(1, 0xFFFF), (2, 0x0001)] 0x00 []) 16 0x4F12).map (fun t => (srNumber t.sr, t.pc, t.reg 1, t.reg 2)) =
      some (0x01, 0x1002, 0xFFFF, 0x0001) := by decide

/-- CMP R1,R2: R1=0x8000, R2=0x0001 -/
theorem test_cmp_overflow :
    (after (boot [(1, 0x8000), (2, 0x0001)] 0x00 []) 16 0x4F12).map (fun t => (srNumber t.sr, t.pc, t.reg 1, t.reg 2)) =
      some (0x04, 0x1002, 0x8000, 0x0001) := by decide

/-! ### Group III (2.3) -/

/-- LD.B R1,#0x12FF -/
theorem test_ldB_immediate :
    (after (boot [] 0x00 []) 32 0x12FF5810).map (fun t => (srNumber t.sr, t.pc, t.reg 1)) =
      some (0x00, 0x1004, 0x00FF) := by decide

/-- LD.B R1,(R2): R2=0x2001; M[0x2000]=12F0 -/
theorem test_ldB_odd_address :
    (after (boot [(2, 0x2001)] 0x00 [(0x2000, 0x12F0)]) 16 0x5A12).map
      (fun t => (srNumber t.sr, t.pc, t.reg 1, t.reg 2)) =
      some (0x00, 0x1002, 0x00F0, 0x2001) := by decide

/-- LD.W R1,(SP)+ (pop): R15=0x07FE; M[0x07FE]=1234 -/
theorem test_ldW_pop :
    (after (boot [(15, 0x07FE)] 0x00 [(0x07FE, 0x1234)]) 16 0x6B1F).map
      (fun t => (srNumber t.sr, t.pc, t.reg 1, t.reg 15)) =
      some (0x00, 0x1002, 0x1234, 0x0800) := by decide

/-- LD.W R1,[2(R3)]: R3=0x2000; M[0x2002]=3000, M[0x3000]=CAFE -/
theorem test_ldW_preIndexed :
    (after (boot [(3, 0x2000)] 0x00 [(0x2002, 0x3000), (0x3000, 0xCAFE)]) 32 0x00026F13).map
      (fun t => (srNumber t.sr, t.pc, t.reg 1, t.reg 3)) =
      some (0x01, 0x1004, 0xCAFE, 0x2000) := by decide

/-- ST.B R1,(R2): R1=0x12AB, R2=0x2001; M[0x2000]=FFFF -/
theorem test_stB_leaves_neighbour :
    (after (boot [(1, 0x12AB), (2, 0x2001)] 0x00 [(0x2000, 0xFFFF)]) 16 0x5212).map
      (fun t => (srNumber t.sr, t.pc, t.word 0x2000 2)) =
      some (0x00, 0x1002, 0xFFAB) := by decide

/-- ST.B R1,R2: R1=0x1234, R2=0xFFFF -/
theorem test_stB_register :
    (after (boot [(1, 0x1234), (2, 0xFFFF)] 0x00 []) 16 0x5112).map (fun t => (srNumber t.sr, t.pc, t.reg 2)) =
      some (0x00, 0x1002, 0x0034) := by decide

/-- ST.W R1,-(SP) (push): R1=0xBEEF, R15=0x0800; M[0x07FE]=0000 -/
theorem test_stW_push :
    (after (boot [(1, 0xBEEF), (15, 0x0800)] 0x00 [(0x07FE, 0x0000)]) 16 0x641F).map
      (fun t => (srNumber t.sr, t.pc, t.reg 15, t.word 0x07FE 2)) =
      some (0x01, 0x1002, 0x07FE, 0xBEEF) := by decide

/-- ST.W R1,[0(R3)]: R1=0x5555, R3=0x2000; M[0x2000]=3000, M[0x3000]=0000 -/
theorem test_stW_preIndexed :
    (after (boot [(1, 0x5555), (3, 0x2000)] 0x00 [(0x2000, 0x3000), (0x3000, 0x0000)]) 32 0x00006713).map
      (fun t => (srNumber t.sr, t.pc, t.word 0x3000 2)) =
      some (0x00, 0x1004, 0x5555) := by decide

/-! ### Group IV (2.4) -/

/-- JMP (0x2000): M[0x2000]=F000 -/
theorem test_jmp_wraps :
    (after (boot [] 0x00 [(0x2000, 0xF000)]) 32 0x200001D0).map (fun t => (srNumber t.sr, t.pc)) =
      some (0x00, 0x0004) := by decide

/-- JMP (R3)+: R3=0x2000; M[0x2000]=0010 -/
theorem test_jmp_postIncrement :
    (after (boot [(3, 0x2000)] 0x00 [(0x2000, 0x0010)]) 16 0x01B3).map (fun t => (srNumber t.sr, t.pc, t.reg 3)) =
      some (0x00, 0x1012, 0x2002) := by decide

/-- JEQ (R3)+ not taken: R3=0x2000; ZF=0; M[0x2000]=0010 -/
theorem test_jeq_not_taken_increments :
    (after (boot [(3, 0x2000)] 0x00 [(0x2000, 0x0010)]) 16 0x02B3).map (fun t => (srNumber t.sr, t.pc, t.reg 3)) =
      some (0x00, 0x1002, 0x2002) := by decide

theorem test_jeq :
    pcAfter (boot [] 0x08 []) 32 0x00040280 = some 0x1008 ∧
      pcAfter (boot [] 0x00 []) 32 0x00040280 = some 0x1004 := by decide

theorem test_jne :
    pcAfter (boot [] 0x00 []) 32 0x00040380 = some 0x1008 ∧
      pcAfter (boot [] 0x08 []) 32 0x00040380 = some 0x1004 := by decide

theorem test_jge :
    pcAfter (boot [] 0x05 []) 32 0x00040480 = some 0x1008 ∧
      pcAfter (boot [] 0x01 []) 32 0x00040480 = some 0x1004 := by decide

theorem test_jle :
    pcAfter (boot [] 0x01 []) 32 0x00040580 = some 0x1008 ∧
      pcAfter (boot [] 0x00 []) 32 0x00040580 = some 0x1004 := by decide

theorem test_jgt :
    pcAfter (boot [] 0x05 []) 32 0x00040680 = some 0x1008 ∧
      pcAfter (boot [] 0x08 []) 32 0x00040680 = some 0x1004 := by decide

theorem test_jlw :
    pcAfter (boot [] 0x01 []) 32 0x00040780 = some 0x1008 ∧
      pcAfter (boot [] 0x05 []) 32 0x00040780 = some 0x1004 := by decide

theorem test_jae :
    pcAfter (boot [] 0x00 []) 32 0x00040880 = some 0x1008 ∧
      pcAfter (boot [] 0x02 []) 32 0x00040880 = some 0x1004 := by decide

theorem test_jbe :
    pcAfter (boot [] 0x02 []) 32 0x00040980 = some 0x1008 ∧
      pcAfter (boot [] 0x00 []) 32 0x00040980 = some 0x1004 := by decide

theorem test_jab :
    pcAfter (boot [] 0x00 []) 32 0x00040A80 = some 0x1008 ∧
      pcAfter (boot [] 0x08 []) 32 0x00040A80 = some 0x1004 := by decide

theorem test_jbl :
    pcAfter (boot [] 0x02 []) 32 0x00040B80 = some 0x1008 ∧
      pcAfter (boot [] 0x00 []) 32 0x00040B80 = some 0x1004 := by decide

theorem test_jvs :
    pcAfter (boot [] 0x04 []) 32 0x00040C80 = some 0x1008 ∧
      pcAfter (boot [] 0x00 []) 32 0x00040C80 = some 0x1004 := by decide

theorem test_jvc :
    pcAfter (boot [] 0x00 []) 32 0x00040D80 = some 0x1008 ∧
      pcAfter (boot [] 0x04 []) 32 0x00040D80 = some 0x1004 := by decide

/-! ### Group V (2.5) -/

/-- JEA 4(R3): R3=0x3000 -/
theorem test_jea_indexed :
    (after (boot [(3, 0x3000)] 0x00 []) 32 0x00040963).map (fun t => (srNumber t.sr, t.pc)) =
      some (0x00, 0x3004) := by decide

/-- JEA [0(R3)]: R3=0x2000; M[0x2000]=4000 -/
theorem test_jea_preIndexed :
    (after (boot [(3, 0x2000)] 0x00 [(0x2000, 0x4000)]) 32 0x00000973).map (fun t => (srNumber t.sr, t.pc)) =
      some (0x00, 0x4000) := by decide

/-- JSR (0x2000): R15=0x0800; M[0x07FE]=0000 -/
theorem test_jsr_direct :
    (after (boot [(15, 0x0800)] 0x00 [(0x07FE, 0x0000)]) 32 0x20000A50).map
      (fun t => (srNumber t.sr, t.pc, t.reg 15, t.word 0x07FE 2)) =
      some (0x00, 0x2000, 0x07FE, 0x1004) := by decide

/-- TRP #3: R15=0x0800; IF=1, ZF=1, CF=1; M[0x07FC]=0000 0000, M[0x000C]=2001 -/
theorem test_trp_immediate :
    (after (boot [(15, 0x0800)] 0x1A [(0x07FC, 0x0000), (0x07FE, 0x0000), (0x000C, 0x2001)]) 32 0x00030B00).map
      (fun t => (srNumber t.sr, t.pc, t.reg 15, t.word 0x07FE 2, t.word 0x07FC 2)) =
      some (0x0A, 0x2000, 0x07FC, 0x001A, 0x1004) := by decide

/-- TRP R1: R1=0x0020, R15=0x0800; M[0x07FC]=AAAA AAAA, M[0x0080]=3000 -/
theorem test_trp_register :
    (after (boot [(1, 0x0020), (15, 0x0800)] 0x00 [(0x07FC, 0xAAAA), (0x07FE, 0xAAAA), (0x0080, 0x3000)]) 16 0x0B11).map
      (fun t => (srNumber t.sr, t.pc, t.reg 15, t.word 0x07FE 2, t.word 0x07FC 2)) =
      some (0x00, 0x3000, 0x07FC, 0x0000, 0x1002) := by decide

/-- TST R1: R1=0x8000; CF=1, VF=1 -/
theorem test_tst_register :
    (after (boot [(1, 0x8000)] 0x06 []) 16 0x0C11).map (fun t => (srNumber t.sr, t.pc, t.reg 1)) =
      some (0x01, 0x1002, 0x8000) := by decide

/-- TST #0 -/
theorem test_tst_immediate :
    (after (boot [] 0x00 []) 32 0x00000C00).map (fun t => (srNumber t.sr, t.pc)) =
      some (0x08, 0x1004) := by decide

/-- TSR (R2)+: R2=0x2000; M[0x2000]=0000 -/
theorem test_tsr_postIncrement :
    (after (boot [(2, 0x2000)] 0x00 [(0x2000, 0x0000)]) 16 0x0D32).map
      (fun t => (srNumber t.sr, t.pc, t.reg 2, t.word 0x2000 2)) =
      some (0x08, 0x1002, 0x2002, 0x0000) := by decide

/-- TSR R1: R1=0xFFFF -/
theorem test_tsr_register :
    (after (boot [(1, 0xFFFF)] 0x00 []) 16 0x0D11).map (fun t => (srNumber t.sr, t.pc, t.reg 1)) =
      some (0x01, 0x1002, 0x0000) := by decide

/-- MSR -(SP): R15=0x0800; NF=1, VF=1; M[0x07FE]=FFFF -/
theorem test_msr_push :
    (after (boot [(15, 0x0800)] 0x05 [(0x07FE, 0xFFFF)]) 16 0x0E4F).map
      (fun t => (srNumber t.sr, t.pc, t.reg 15, t.word 0x07FE 2)) =
      some (0x05, 0x1002, 0x07FE, 0x0005) := by decide

/-- MSR R1: IF=1, ZF=1, CF=1 -/
theorem test_msr_register :
    (after (boot [] 0x1A []) 16 0x0E11).map (fun t => (srNumber t.sr, t.pc, t.reg 1)) =
      some (0x1A, 0x1002, 0x001A) := by decide

/-- MPC (0x2000): M[0x2000]=0000 -/
theorem test_mpc_direct :
    (after (boot [] 0x00 [(0x2000, 0x0000)]) 32 0x20000F50).map (fun t => (srNumber t.sr, t.pc, t.word 0x2000 2)) =
      some (0x00, 0x1004, 0x1004) := by decide

/-- MPC R1 -/
theorem test_mpc_register :
    (after (boot [] 0x00 []) 16 0x0F11).map (fun t => (srNumber t.sr, t.pc, t.reg 1)) =
      some (0x00, 0x1002, 0x1002) := by decide

/-! ### Group VI (2.6) -/

/-- NOP: ZF=1, CF=1 -/
theorem test_nop :
    (after (boot [] 0x0A []) 16 0x0000).map (fun t => (srNumber t.sr, t.pc)) =
      some (0x0A, 0x1002) := by decide

/-- HLT: IF=1 -/
theorem test_hlt :
    (after (boot [] 0x10 []) 16 0x0100).map (fun t => (srNumber t.sr, t.pc)) =
      some (0x30, 0x1002) := by decide

/-- RTS: R15=0x07FE; M[0x07FE]=1234 -/
theorem test_rts :
    (after (boot [(15, 0x07FE)] 0x00 [(0x07FE, 0x1234)]) 16 0x0200).map (fun t => (srNumber t.sr, t.pc, t.reg 15)) =
      some (0x00, 0x1234, 0x0800) := by decide

/-- RTI: R15=0x07FC; IF=1, CF=1; M[0x07FC]=1004 FFC5 -/
theorem test_rti_ignores_high_bits :
    (after (boot [(15, 0x07FC)] 0x12 [(0x07FC, 0x1004), (0x07FE, 0xFFC5)]) 16 0x0300).map
      (fun t => (srNumber t.sr, t.pc, t.reg 15)) =
      some (0x05, 0x1004, 0x0800) := by decide

/-- RTI: R15=0x07FC; M[0x07FC]=1004 0018 -/
theorem test_rti :
    (after (boot [(15, 0x07FC)] 0x00 [(0x07FC, 0x1004), (0x07FE, 0x0018)]) 16 0x0300).map
      (fun t => (srNumber t.sr, t.pc, t.reg 15)) =
      some (0x18, 0x1004, 0x0800) := by decide

/-- CLC: CF=1, ZF=1 -/
theorem test_clc :
    (after (boot [] 0x0A []) 16 0x0400).map (fun t => (srNumber t.sr, t.pc)) =
      some (0x08, 0x1002) := by decide

/-- STC: CF=0, NF=1 -/
theorem test_stc :
    (after (boot [] 0x01 []) 16 0x0500).map (fun t => (srNumber t.sr, t.pc)) =
      some (0x03, 0x1002) := by decide

/-- DSI: IF=1 -/
theorem test_dsi :
    (after (boot [] 0x10 []) 16 0x0600).map (fun t => (srNumber t.sr, t.pc)) =
      some (0x00, 0x1002) := by decide

/-- ENI: IF=0 -/
theorem test_eni :
    (after (boot [] 0x00 []) 16 0x0700).map (fun t => (srNumber t.sr, t.pc)) =
      some (0x10, 0x1002) := by decide

/-! ### Group VII (2.7) -/

/-- LDQ R1,#-128 -/
theorem test_ldq_least :
    (after (boot [] 0x00 []) 16 0x2801).map (fun t => (srNumber t.sr, t.pc, t.reg 1)) =
      some (0x01, 0x1002, 0xFF80) := by decide

/-- LDQ R1,#0 -/
theorem test_ldq_zero :
    (after (boot [] 0x00 []) 16 0x2001).map (fun t => (srNumber t.sr, t.pc, t.reg 1)) =
      some (0x08, 0x1002, 0x0000) := by decide

/-- ADQ R1,#-1: R1=0x0001 -/
theorem test_adq_minus_one :
    (after (boot [(1, 0x0001)] 0x00 []) 16 0x3FF1).map (fun t => (srNumber t.sr, t.pc, t.reg 1)) =
      some (0x0A, 0x1002, 0x0000) := by decide

/-- ADQ R1,#-128: R1=0x8000 -/
theorem test_adq_overflow :
    (after (boot [(1, 0x8000)] 0x00 []) 16 0x3801).map (fun t => (srNumber t.sr, t.pc, t.reg 1)) =
      some (0x06, 0x1002, 0x7F80) := by decide

/-! ### Group VIII (2.8) -/

/-- BMP #-2 -/
theorem test_bmp_back :
    (after (boot [] 0x00 []) 16 0x11FE).map (fun t => (srNumber t.sr, t.pc)) =
      some (0x00, 0x1000) := by decide

/-- BMP #127 -/
theorem test_bmp_odd :
    (after (boot [] 0x00 []) 16 0x117F).map (fun t => (srNumber t.sr, t.pc)) =
      some (0x00, 0x1081) := by decide

theorem test_beq :
    pcAfter (boot [] 0x08 []) 16 0x1204 = some 0x1006 ∧
      pcAfter (boot [] 0x00 []) 16 0x1204 = some 0x1002 := by decide

theorem test_bne :
    pcAfter (boot [] 0x00 []) 16 0x1304 = some 0x1006 ∧
      pcAfter (boot [] 0x08 []) 16 0x1304 = some 0x1002 := by decide

theorem test_bge :
    pcAfter (boot [] 0x05 []) 16 0x1404 = some 0x1006 ∧
      pcAfter (boot [] 0x01 []) 16 0x1404 = some 0x1002 := by decide

theorem test_ble :
    pcAfter (boot [] 0x01 []) 16 0x1504 = some 0x1006 ∧
      pcAfter (boot [] 0x00 []) 16 0x1504 = some 0x1002 := by decide

theorem test_bgt :
    pcAfter (boot [] 0x05 []) 16 0x1604 = some 0x1006 ∧
      pcAfter (boot [] 0x08 []) 16 0x1604 = some 0x1002 := by decide

theorem test_blw :
    pcAfter (boot [] 0x01 []) 16 0x1704 = some 0x1006 ∧
      pcAfter (boot [] 0x05 []) 16 0x1704 = some 0x1002 := by decide

theorem test_bae :
    pcAfter (boot [] 0x00 []) 16 0x1804 = some 0x1006 ∧
      pcAfter (boot [] 0x02 []) 16 0x1804 = some 0x1002 := by decide

theorem test_bbe :
    pcAfter (boot [] 0x02 []) 16 0x1904 = some 0x1006 ∧
      pcAfter (boot [] 0x00 []) 16 0x1904 = some 0x1002 := by decide

theorem test_bab :
    pcAfter (boot [] 0x00 []) 16 0x1A04 = some 0x1006 ∧
      pcAfter (boot [] 0x08 []) 16 0x1A04 = some 0x1002 := by decide

theorem test_bbl :
    pcAfter (boot [] 0x02 []) 16 0x1B04 = some 0x1006 ∧
      pcAfter (boot [] 0x00 []) 16 0x1B04 = some 0x1002 := by decide

theorem test_bvs :
    pcAfter (boot [] 0x04 []) 16 0x1C04 = some 0x1006 ∧
      pcAfter (boot [] 0x00 []) 16 0x1C04 = some 0x1002 := by decide

theorem test_bvc :
    pcAfter (boot [] 0x00 []) 16 0x1D04 = some 0x1006 ∧
      pcAfter (boot [] 0x04 []) 16 0x1D04 = some 0x1002 := by decide
/-! ### Beyond the vectors -/

/-- INP: the register holds what the environment answers to this draw for the port, whatever that is (R149, R60). -/
theorem test_inp : (after (boot [(1, 0x0010)] 0x02 []) 16 0x4812).map (fun t => (t.reg 2, t.sr.CF, t.draws)) =
    some ((boot [] 0 []).ws.narrow ((boot [] 0 []).ws.narrow
      ((boot [] 0 []).ws.narrow (Config.portAnswer 0 0x0010).toNat).toNat).toNat, false, 1) := rfl

/-- OUT: R1 = 0xBEEF goes to port R2 = 0x0020 (2.2). -/
theorem test_out : (after (boot [(1, 0xBEEF), (2, 0x0020)] 0x00 []) 16 0x4912).map (fun t => (t.outputs, srNumber t.sr)) =
    some ([(0x0020, 0xBEEF)], 0x01) := by decide

/-- LD.L and ST.L at N = 32 (R187, R190). -/
theorem test_ldL : (after (bootWith p32 [(2, 0x2000)] 0 [(0x2000, 0x8001), (0x2002, 0x0203)]) 16 0x7B12).map
    (fun t => (t.reg 1, t.reg 2, srNumber t.sr)) = some (0x80010203, 0x2004, 0x01) := by decide
theorem test_stL : (after (bootWith p32 [(1, 0x12345678), (2, 0x2004)] 0 []) 16 0x7412).map
    (fun t => (t.word 0x2000 4, t.reg 2)) = some (0x12345678, 0x2000) := by decide

/-- N = 32: LD.W zero-extends, SWB exchanges the outer bytes, LDQ extends to 32 bits (R183, R151, R94). -/
theorem test_n32_narrow_load : (after (bootWith p32 [(1, 0xFFFFFFFF), (2, 0x2000)] 0 [(0x2000, 0x8001)]) 16 0x6A12).map
    (fun t => (t.reg 1, t.sr.NF)) = some (0x00008001, false) := by decide
theorem test_n32_swb : (after (bootWith p32 [(1, 0x12345678)] 0 []) 16 0x4A12).map (fun t => t.reg 2) = some 0x78345612 := by
  decide

/-- Refused data and forms (2.1, 2.3). -/
theorem test_refused_data :
    refusal (boot [(1, 7)] 0 []) 16 0xA123 = some .divisionByZero ∧
    refusal (boot [(1, 0x8000), (2, 0xFFFF)] 0 []) 16 0xA123 = some .divisionOverflow ∧
    refusal (boot [(1, 7), (2, 2)] 0 []) 16 0xA121 = some .divisionOverlap ∧
    refusal (boot [(2, 0x2001)] 0 []) 16 0x6A12 = some .misaligned ∧
    refusal (boot [(1, 0x2000)] 0 []) 16 0x6B11 = some .transferOverlap ∧
    refusal (boot [] 0 []) 16 0x0A3F = some .autoModifiedSp ∧
    refusal { boot [] 0 [] with pc := 0x1001 } 16 0 = some .oddPc := by decide

/-! ### Exceptions and reset (2.9) -/

/-- The state after one boundary. -/
def stepped (s : State) : Option State :=
  match step s with
  | .next t => some t
  | .fault _ => none
  | .refused _ => none

/-- The situation of E2: IF and ZF set, SP = 0x0800, line 2 pending. -/
def e2 : State := { boot [(15, 0x0800)] 0x18 [(0x0088, 0x3001)] with pending := [2] }

theorem test_e1_reset : (stepped { boot [(1, 5)] 0x3F [(0x0088, 0x3001)] with rstLow := true, pending := [3] }).map
    (fun t => (srNumber t.sr, t.pc, t.pending, t.word 0x0088 2)) = some (0, 0xFFFA, [], 0x3001) := by decide
theorem test_e2_interrupt : (stepped e2).map
    (fun t => (t.word 0x07FE 2, t.word 0x07FC 2, t.reg 15, srNumber t.sr, t.pc)) =
      some (0x0018, 0x1000, 0x07FC, 0x08, 0x3000) := by decide
theorem test_e2_no_longer_pending : (stepped e2).map State.pending = some [] := by decide
theorem test_e3_stays_pending : (stepped { e2 with sr := SR.ofImage 0x08 }).map (fun t => (t.pc, t.pending)) =
    some (0x1002, [2]) := by decide
theorem test_e4_leaves_stop :
    (stepped { boot [(15, 0x0800)] 0x38 [(0x0080, 0x3000)] with pc := 0x100A, pending := [0] }).map
      (fun t => (t.word 0x07FE 2, t.word 0x07FC 2, srNumber t.sr, t.pc)) = some (0x0018, 0x100A, 0x08, 0x3000) := by decide
theorem test_e5_stays_stopped : (stepped { boot [] 0x20 [] with pending := [0] }) =
    some { boot [] 0x20 [] with pending := [0] } := by decide
theorem test_e6_lowest_first :
    (stepped { boot [(15, 0x0800)] 0x10 [(0x0084, 0x3000)] with pending := [1, 3] }).map (fun t => (t.pc, t.pending)) =
      some (0x3000, [3]) := by decide
theorem test_e7_rti : ((stepped e2).bind fun t => after t 16 0x0300).map (fun t => (t.pc, srNumber t.sr, t.reg 15)) =
    some (0x1000, 0x18, 0x0800) := by decide
theorem test_e8_misaligned_entry : step (e2.setReg 15 0x0801) = .refused .misaligned := rfl
theorem test_edges : (State.reset.afterEvents [.irqEdge 5, .irqEdge 2, .irqEdge 5, .irqEdge 8]).pending = [2, 5] := by decide

/-- A fall and a rise of /RST between two steps reset a stopped CPU (R304, R341), and an edge that comes between them does not
outlive it (log entry 29). -/
theorem test_reset_pulse :
    let t := (boot [] 0x3F [(0x0088, 0x3001)]).afterEvents [.rstFalls, .irqEdge 2, .rstRises]
    (srNumber t.sr, t.pc, t.pending, t.rstLow, t.word 0x0088 2) = (0, 0xFFFA, [], false, 0x3001) := by decide
theorem test_edge_after_release : (State.reset.afterEvents [.rstFalls, .rstRises, .irqEdge 2]).pending = [2] := by decide

/-- From reset the first step fetches at 0xFFFA; memory lists nothing, and the all-zero word is NOP (R251). -/
theorem test_reset_runs : (stepped State.reset).map State.pc = some 0xFFFC := by decide

/-- An access to an address without memory and a write to read-only memory (R52, R53, R61). -/
theorem test_memory_map :
    memRead (bootWith pSmall [] 0 []) 0x1000 2 = .fault .unmapped ∧
    memWrite (bootWith pSmall [] 0 []) 0x0F00 2 5 = .fault .readOnly ∧
    memRead (bootWith pSmall [] 0 []) 0x0F00 2 = .next 0 := ⟨rfl, rfl, rfl⟩

/-! ## Witnesses: states and operands that meet the hypotheses of each obligation that has some -/

/-- A running machine with a stack, a table of vectors and data at 0x2000. -/
def lab : State := boot [(1, 0x8001), (2, 0x2000), (3, 0x0004), (15, 0x0800)] 0x00 [(0x2000, 0x1234), (0x000C, 0x3000)]

/-- Right after exception 3 has been entered. -/
def entered : State :=
  match enter lab 3 0x1002 with
  | .next t => t
  | .fault _ => lab
  | .refused _ => lab

theorem test_witness_DecodeOfEncode :
    (Instr.adi 1 2 0xFFFF).wf p16 = true ∧ (Instr.stL 15 (.preIndexed 0xFFFFFFFF 15)).wf p32 = true ∧
      (Instr.bmp 0x80).wf { p16 with encVariant := .b } = true := by decide
theorem test_witness_EncodeOfDecode :
    decodeBytes p16 [0x4E, 0x12, 0xFF, 0xFF, 0x00] = .ok (.adi 1 2 0xFFFF, [0x00]) := rfl
theorem test_witness_LengthFromTheWord :
    (Instr.adi 1 2 0xFFFF).wf p16 = true ∧ (Instr.nop).wf p16 = true ∧ p16.encVariant = .a := by decide
/-- Words of which two items of R100 hold: the first of the list is named (log entry 25). Then one word of variant B. -/
theorem test_reserved_order :
    refusal (boot [] 0 []) 16 0x0085 = some (.reservedEncoding .conditionCode) ∧
    refusal (boot [] 0 []) 16 0x0805 = some (.reservedEncoding .operationZero) ∧
    refusal (boot [] 0 []) 16 0x7010 = some (.reservedEncoding .longOperand) ∧
    refusal (boot [] 0 []) 16 0x0E05 = some (.reservedEncoding .registerField) ∧
    refusal (boot [] 0 []) 16 0x0905 = some (.reservedEncoding .registerField) ∧
    refusal (bootWith { p16 with encVariant := .b } [] 0 []) 16 0x5F04 = some (.reservedEncoding .conditionCode) := by decide
theorem test_witness_EveryRowHasItsWord :
    (Instr.sub 15 15 15, 0xFFFF) ∈ groupOneWords 15 15 15 ∧ (Instr.stB 1 (.preDec 2), 0x5412, 0x1412) ∈ groupThreeWords 1 (.preDec 2) ∧
      (Operand.direct 5, 5, 0, some 5) ∈ modeCodes 5 9 ∧ (Instr.adi 1 2 0xFFFF).extension = some 0xFFFF ∧
      1 < p16.wordSize.bytes ∧ 3 < p32.wordSize.bytes := by decide
theorem test_witness_StepRunsTheDecodedInstruction :
    let s := ({ lab with pc := 0xFFFE }).withFetchWord 32 0x00054E12
    s.fetches ∧ (Instr.adi 1 2 5).wf s.params = true ∧ s.pc.toNat % 2 = 0 ∧
      (s.span s.pc (encode s.params (.adi 1 2 5)).length).all (populated s.params) = true ∧
      s.bytesFrom s.pc (encode s.params (.adi 1 2 5)).length = encode s.params (.adi 1 2 5) :=
  ⟨⟨rfl, rfl, rfl⟩, by decide, by decide, by decide, by decide⟩
theorem test_witness_BoundaryOrder :
    ({ lab with rstLow := true }).rstLow = true ∧ (e2.rstLow = false ∧ e2.acceptable = some 2) ∧
      (({ lab with sr := SR.ofImage 0x20 }).acceptable = none ∧ ({ lab with sr := SR.ofImage 0x20 }).sr.WF = true) ∧
      lab.fetches := ⟨rfl, ⟨rfl, rfl⟩, ⟨rfl, rfl⟩, rfl, rfl, rfl⟩
theorem test_witness_OddPcIsRefused :
    ({ lab with pc := 0xFFFF }).fetches ∧ ({ lab with pc := 0xFFFF }).pc.toNat % 2 = 1 := ⟨⟨rfl, rfl, rfl⟩, by decide⟩
theorem test_witness_ReservedWordIsRefused :
    let s := lab.withFetchWord 16 0x0811
    s.fetches ∧ s.pc.toNat % 2 = 0 ∧ canRead s s.pc 2 = true ∧
      decodeWord s.params (BitVec.ofNat 16 (s.word s.pc 2)) = .error .operationZero :=
  ⟨⟨rfl, rfl, rfl⟩, by decide, by decide, rfl⟩
theorem test_witness_ResetEvent :
    ({ lab with rstLow := true }).rstLow = true ∧ ({ lab with rstLow := true }).ws = .n16 ∧
      ({ bootWith p32 [] 0 [] with rstLow := true }).rstLow = true ∧ (bootWith p32 [] 0 []).ws = .n32 := ⟨rfl, rfl, rfl, rfl⟩
theorem test_witness_ReleaseTakesReset :
    (∀ e ∈ [EnvEvent.irqEdge 0, .irqEdge 7], e.isEdge = true) ∧ e2.ws = .n16 ∧
      ({ e2 with rstLow := true }).rstLow = true ∧ (bootWith p32 [] 0 []).ws = .n32 := by decide
theorem test_witness_InterruptEntry :
    e2.rstLow = false ∧ e2.mem.wf = true ∧ e2.acceptable = some 2 ∧ canEnter e2 (2 + 32) = true := by decide
theorem test_witness_LowestLineFirst :
    e2.params.irqPriority = [] ∧ e2.sr.IF = true ∧ 2 ∈ e2.pending ∧ ∀ j ∈ e2.pending, 2 ≤ j := by decide

/-- Three pending lines under a priority list: a preferred pending line wins, and where none is preferred the lowest does. -/
theorem test_witness_LowestLineFirst_priority :
    ({ e2 with pending := [0, 1, 3], params := { p16 with irqPriority := [5, 3, 1] } }).acceptable = some 3 ∧
      ({ e2 with pending := [0, 1, 3], params := { p16 with irqPriority := [5] } }).acceptable = some 0 ∧
      ({ e2 with sr := SR.cleared }).acceptable = none := by decide
theorem test_witness_EdgeSetsOnePendingBit : 0 < lab.params.nirq ∧ 7 < lab.params.nirq := by decide
theorem test_witness_HandlerAddressIsEven : enter lab 3 0x1002 = .next entered := rfl
theorem test_witness_RtiUndoesEntry : lab.mem.wf = true ∧ enter lab 3 0x1002 = .next entered := ⟨by decide, rfl⟩
theorem test_witness_EndedRunStaysEnded :
    ({ lab with sr := SR.ofImage 0x20 }).ended = true ∧ ({ lab with sr := SR.ofImage 0x20 }).rstLow = false ∧
      ∀ es ∈ [[EnvEvent.irqEdge 0, .irqEdge 7], []], ∀ e ∈ es, e.isEdge = true := by decide
theorem test_witness_StepKeepsInvariant : State.reset.Inv ∧ ∃ t, step State.reset = .next t :=
  ⟨⟨by decide, by decide, by decide, by decide, by decide, by decide, fun _ h => nomatch h⟩, _, rfl⟩
theorem test_witness_EnvironmentKeepsInvariant :
    State.reset.Inv ∧ (EnvEvent.irqEdge 7).isEdge = true ∧ State.reset.rstLow = false ∧
      ({ State.reset with rstLow := true }).Inv ∧ ({ State.reset with rstLow := true }).rstLow = true :=
  ⟨⟨by decide, by decide, by decide, by decide, by decide, by decide, fun _ h => nomatch h⟩, rfl, rfl,
    ⟨by decide, by decide, by decide, by decide, by decide, by decide, fun _ h => nomatch h⟩, rfl⟩

/-- The machine with read-only memory, about to run ST.W R1, (R2). -/
def rom : State := ({ bootWith pSmall [(1, 5), (2, 0x0EFE)] 0 [] with pc := 0x0100 }).withFetchWord 16 0x6212

theorem test_witness_ReadOnlyMemoryNeverChanges :
    (∃ t, step rom = .next t) ∧ writable rom.params 0x0F00 = false ∧ writable rom.params 0x0EFF = true :=
  ⟨⟨_, rfl⟩, by decide, by decide⟩
/-- PC past the end of memory, and at its last word, which begins ADI R1, R2, #0. -/
theorem test_witness_UnpopulatedFetchStops :
    let s := ({ rom with pc := 0x0FFE }).withFetchWord 32 0x00004E12
    (({ rom with pc := 0x1000 }).fetches ∧ ({ rom with pc := 0x1000 }).pc.toNat % 2 = 0 ∧
      ∃ x ∈ ({ rom with pc := 0x1000 }).span 0x1000 2, populated rom.params x = false) ∧
    (s.fetches ∧ s.pc.toNat % 2 = 0 ∧ (Instr.adi 1 2 0).wf s.params = true ∧
      s.bytesFrom s.pc 2 = (encode s.params (.adi 1 2 0)).take 2 ∧
      ∃ x ∈ s.span s.pc (encode s.params (.adi 1 2 0)).length, populated s.params x = false) :=
  ⟨⟨⟨rfl, rfl, rfl⟩, by decide, by decide⟩, ⟨⟨rfl, rfl, rfl⟩, by decide, by decide, by decide, by decide⟩⟩
theorem test_witness_ModesChangeOnlyByFiveInstructions :
    (∃ t, exec (.ldq 5 1) lab = .next t) ∧ Instr.ldq 5 1 ≠ .hlt ∧ Instr.ldq 5 1 ≠ .eni ∧ Instr.ldq 5 1 ≠ .dsi ∧
      Instr.ldq 5 1 ≠ .rti ∧ ∀ a, Instr.ldq 5 1 ≠ .trp a :=
  ⟨⟨_, rfl⟩, nofun, nofun, nofun, nofun, nofun⟩
theorem test_witness_FlaglessInstructionsKeepSR :
    (∃ t, exec .nop lab = .next t) ∧ (∃ t, exec .rts lab = .next t) ∧ (∃ t, exec (.jsr (.ind 2)) lab = .next t) ∧
      (∃ t, exec (Instr.jcc (.reg 3) .eq) lab = .next t) ∧ (∃ t, exec (Instr.bcc 4 .ne) lab = .next t) :=
  ⟨⟨_, rfl⟩, ⟨_, rfl⟩, ⟨_, rfl⟩, ⟨_, rfl⟩, ⟨_, rfl⟩⟩
theorem test_witness_MemoryWrittenOnlyByStoresAndPushes :
    (∃ t, exec (.ldW 1 (.ind 2)) lab = .next t) ∧
      (∀ ra b, Instr.ldW 1 (.ind 2) ≠ .stB ra b ∧ Instr.ldW 1 (.ind 2) ≠ .stW ra b ∧ Instr.ldW 1 (.ind 2) ≠ .stL ra b) ∧
      (∀ a, Instr.ldW 1 (.ind 2) ≠ .jsr a ∧ Instr.ldW 1 (.ind 2) ≠ .trp a ∧ Instr.ldW 1 (.ind 2) ≠ .tsr a ∧
        Instr.ldW 1 (.ind 2) ≠ .msr a ∧ Instr.ldW 1 (.ind 2) ≠ .mpc a) :=
  ⟨⟨_, rfl⟩, fun _ _ => ⟨nofun, nofun, nofun⟩, fun _ => ⟨nofun, nofun, nofun, nofun, nofun⟩⟩
theorem test_witness_InstructionsLeaveLinesAndPortsAlone :
    (∃ t, exec (.ldq 5 1) lab = .next t) ∧ (∀ a b, Instr.ldq 5 1 ≠ .out a b) ∧ (∀ a b, Instr.ldq 5 1 ≠ .inp a b) ∧
      (∀ a b d, Instr.ldq 5 1 ≠ .mul a b d ∧ Instr.ldq 5 1 ≠ .div a b d) :=
  ⟨⟨_, rfl⟩, nofun, nofun, fun _ _ _ => ⟨nofun, nofun⟩⟩

theorem test_witness_MemReadIsBigEndian :
    canRead rom 0x0FFE 2 = true ∧ canRead lab 0xFFFF 1 = true ∧ canRead lab 0xFFFC 4 = true ∧
      (0x0FFF : Word).toNat % 2 ≠ 0 ∧
      ((0x1000 : Word).toNat % 2 = 0 ∧ ∃ x ∈ rom.span 0x1000 2, populated rom.params x = false) := by decide
theorem test_witness_MemWriteIsBigEndian :
    rom.mem.wf = true ∧ canWrite rom 0x0EFE 2 = true ∧ canWrite rom 0x0EFF 1 = true ∧ canWrite rom 0x0EFC 4 = true ∧
      (0x0EFF : Word).toNat % 2 ≠ 0 ∧
      ((0x1000 : Word).toNat % 2 = 0 ∧ ∃ x ∈ rom.span 0x1000 2, populated rom.params x = false) ∧
      ((0x0F00 : Word).toNat % 2 = 0 ∧ (∀ x ∈ rom.span 0x0F00 2, populated rom.params x = true) ∧
        ∃ x ∈ rom.span 0x0F00 2, writable rom.params x = false) := by decide
theorem test_witness_ModeTable :
    2 ≤ lab.ws.bytes ∧ 1 ≤ lab.ws.bytes ∧ 4 ≤ (bootWith p32 [] 0 []).ws.bytes ∧ canRead lab 0x2004 lab.ws.bytes = true := by
  decide
theorem test_witness_AdditionsSetSumAndFlags : (0xFFFF : Word).toNat < 2 ^ lab.ws.bits := by decide

/-- The four cases of DIV R1, R2 at the ends of their ranges. -/
theorem test_witness_DivQuotientAndRemainder :
    lab.params.divRound = .truncate ∧
      signed .n16 ((boot [(1, 7)] 0 []).reg 2) = 0 ∧
      (signed .n16 ((boot [(1, 0x8000), (2, 0xFFFF)] 0 []).reg 1) = -(2 ^ 15) ∧
        signed .n16 ((boot [(1, 0x8000), (2, 0xFFFF)] 0 []).reg 2) = -1) ∧
      (signed .n16 ((boot [(1, 0x8001), (2, 0xFFFF)] 0 []).reg 2) ≠ 0 ∧
        ¬(signed .n16 ((boot [(1, 0x8001), (2, 0xFFFF)] 0 []).reg 1) = -(2 ^ 15) ∧
          signed .n16 ((boot [(1, 0x8001), (2, 0xFFFF)] 0 []).reg 2) = -1) ∧ (3 : Reg) ≠ 1) := by decide
theorem test_witness_ByteMovesBitByBit : lab.params.hasRlbExt = true ∧ rom.params.hasRlbExt = false := by decide

theorem test_witness_LoadsFillRa :
    ((2, Instr.ldW 1 (.ind 2)) ∈ loadTable 1 (.ind 2) ∧ modifiedRegister (.ind 2) ≠ some 1 ∧
      resolve lab (.ind 2) 2 = .next (.mem 0x2000, lab) ∧ readable lab (.mem 0x2000) 2 = true) ∧
    ((1, Instr.ldB 1 (.postInc 2)) ∈ loadTable 1 (.postInc 2) ∧ modifiedRegister (.postInc 2) ≠ some 1 ∧
      resolve lab (.postInc 2) 1 = .next (.mem 0x2000, lab) ∧ readable lab (.mem 0x2000) 1 = true) ∧
    ((4, Instr.ldL 1 (.imm 7)) ∈ loadTable 1 (.imm 7) ∧ (bootWith p32 [] 0 []).ws = .n32 ∧
      resolve (bootWith p32 [] 0 []) (.imm 7) 4 = .next (.imm 7, bootWith p32 [] 0 []) ∧
      readable (bootWith p32 [] 0 []) (.imm 7) 4 = true) :=
  ⟨⟨by decide, by decide, rfl, by decide⟩, ⟨by decide, by decide, rfl, by decide⟩, ⟨by decide, by decide, rfl, by decide⟩⟩
theorem test_witness_StoresWriteOperandB :
    ((2, Instr.stW 1 (.preDec 2)) ∈ storeTable 1 (.preDec 2) ∧ lab.mem.wf = true ∧
      modifiedRegister (.preDec 2) ≠ some 1 ∧
      resolve lab (.preDec 2) 2 = .next (.mem 0x1FFE, lab.setReg 2 0x1FFE) ∧
      writableLoc (lab.setReg 2 0x1FFE) (.mem 0x1FFE) 2 = true) ∧
    ((1, Instr.stB 1 (.reg 2)) ∈ storeTable 1 (.reg 2) ∧ resolve lab (.reg 2) 1 = .next (.reg 2, lab) ∧
      writableLoc lab (.reg 2) 1 = true) ∧
    ((4, Instr.stL 1 (.direct 0xFFFFFFFC)) ∈ storeTable 1 (.direct 0xFFFFFFFC) ∧ (bootWith p32 [] 0 []).ws = .n32 ∧
      resolve (bootWith p32 [] 0 []) (.direct 0xFFFFFFFC) 4 = .next (.mem 0xFFFFFFFC, bootWith p32 [] 0 []) ∧
      writableLoc (bootWith p32 [] 0 []) (.mem 0xFFFFFFFC) 4 = true) :=
  ⟨⟨by decide, by decide, by decide, rfl, by decide⟩, ⟨by decide, rfl, by decide⟩, ⟨by decide, by decide, rfl, by decide⟩⟩
theorem test_witness_RefusedForms : (Operand.postInc 1 = .postInc 1 ∨ Operand.postInc 1 = .preDec 1) ∧
    (Operand.preDec sp = .postInc sp ∨ Operand.preDec sp = .preDec sp) ∧ lab.ws = .n16 ∧
    (bootWith p32 [] 0 []).ws = .n32 := by decide

/-- The stops of an operand, of the stack and of a fetch at the ends of the memory of `rom` (R52, R53, R55, R96). -/
theorem test_stops :
    exec (.ldW 1 (.direct 0x0001)) rom = .refused .misaligned ∧ exec (.ldW 1 (.direct 0x1000)) rom = .fault .unmapped ∧
    exec (.stW 1 (.direct 0x0F00)) rom = .fault .readOnly ∧ exec (.jea (.preIndexed 0x1000 0)) rom = .fault .unmapped ∧
    exec .rti (rom.setReg sp 0x0FFE) = .fault .unmapped ∧ exec (.trp (.imm 3)) (rom.setReg sp 0x1000) = .fault .readOnly ∧
    step { rom with pc := 0x1000 } = .fault .unmapped := ⟨rfl, rfl, rfl, rfl, rfl, rfl, rfl⟩

theorem test_witness_UnusableOperandStops :
    (Operand.preIndexed 0x1000 0 = .preIndexed 0x1000 0 ∧
      ReadsOperand rom (.preIndexed 0x1000 0) 2 (.ldW 1 (.preIndexed 0x1000 0)) ∧
      canRead rom (rom.ws.narrow ((0x1000 : Word).toNat + (rom.reg 0).toNat)) rom.ws.bytes = false) ∧
    (resolve rom (.direct 0x0FFF) rom.ws.bytes = .next (.mem 0x0FFF, rom) ∧
      ReadsOperand rom (.direct 0x0FFF) rom.ws.bytes (.tst (.direct 0x0FFF)) ∧
      readable rom (.mem 0x0FFF) rom.ws.bytes = false ∧ readable rom (.mem 0x0FFE) rom.ws.bytes = true) ∧
    (resolve rom (.direct 0x0F00) 1 = .next (.mem 0x0F00, rom) ∧
      WritesOperand rom (.direct 0x0F00) 1 (.stB 1 (.direct 0x0F00)) ∧ canWrite rom 0x0F00 1 = false ∧
      canWrite rom 0x0EFF 1 = true) :=
  ⟨⟨rfl, .inl ⟨1, by decide, by decide, by decide⟩, by decide⟩,
    ⟨rfl, .inr ⟨rfl, .inr (.inr (.inl rfl))⟩, by decide, by decide⟩,
    ⟨rfl, .inl ⟨1, by decide, by decide, by decide⟩, by decide, by decide⟩⟩

/-- The five clauses, with SP at the last address of memory, past it, below it and odd. -/
theorem test_witness_UnusableStackStops :
    (modifiedRegister (.ind 2) ≠ some sp ∧
      resolve (rom.setReg sp 0x1000) (.ind 2) rom.ws.bytes = .next (.mem 0x0EFE, rom.setReg sp 0x1000) ∧
      canWrite (rom.setReg sp 0x1000) ((rom.setReg sp 0x1000).slotBelow 1) rom.ws.bytes = false) ∧
    canRead (rom.setReg sp 0x1000) ((rom.setReg sp 0x1000).reg sp) rom.ws.bytes = false ∧
    (canRead (rom.setReg sp 0x0FFE) ((rom.setReg sp 0x0FFE).reg sp) rom.ws.bytes = true ∧
      canRead (rom.setReg sp 0x0FFE) 0x1000 rom.ws.bytes = false) ∧
    (modifiedRegister (.imm 3) ≠ some sp ∧
      resolve (rom.setReg sp 0x0F02) (.imm 3) rom.ws.bytes = .next (.imm 3, rom.setReg sp 0x0F02) ∧
      readable (rom.setReg sp 0x0F02) (.imm 3) rom.ws.bytes = true ∧
      canEnter (rom.setReg sp 0x0F02) 3 = false ∧ canEnter (rom.setReg sp 0x0F00) 3 = true) ∧
    ((e2.setReg 15 0x0801).rstLow = false ∧ (e2.setReg 15 0x0801).acceptable = some 2 ∧
      canEnter (e2.setReg 15 0x0801) (2 + 32) = false) :=
  ⟨⟨by decide, rfl, by decide⟩, by decide, by decide, ⟨by decide, rfl, by decide, by decide, by decide⟩, by decide⟩
theorem test_witness_JumpsFollowTheConditionTable :
    (Instr.jne (.ind 2), true) ∈ jumpTable lab.sr (.ind 2) ∧ (Instr.jeq (.ind 2), false) ∈ jumpTable lab.sr (.ind 2) ∧
      resolve lab (.ind 2) lab.ws.bytes = .next (.mem 0x2000, lab) ∧ readable lab (.mem 0x2000) lab.ws.bytes = true :=
  ⟨by decide, by decide, rfl, by decide⟩
theorem test_witness_BranchesFollowTheConditionTable :
    (Instr.bne 0x80, true) ∈ branchTable lab.sr 0x80 ∧ (Instr.bvs 0x7F, false) ∈ branchTable lab.sr 0x7F := by decide
theorem test_witness_JeaJumpsToTheAddress :
    resolve lab (.indexed 0xFFFF 2) lab.ws.bytes = .next (.mem 0x1FFF, lab) := rfl
theorem test_witness_JsrPushesTheReturnAddress :
    lab.mem.wf = true ∧ modifiedRegister (.preIndexed 0 2) ≠ some sp ∧
      resolve lab (.preIndexed 0 2) lab.ws.bytes = .next (.mem 0x1234, lab) ∧
      canWrite lab (lab.slotBelow 1) lab.ws.bytes = true :=
  ⟨by decide, by decide, rfl, by decide⟩
theorem test_witness_RtsReturnsPastJsr : lab.mem.wf = true ∧ ∃ t, exec (.jsr (.ind 2)) lab = .next t := ⟨by decide, _, rfl⟩
theorem test_witness_TrpEntersTheException :
    lab.mem.wf = true ∧ modifiedRegister (.imm 3) ≠ some sp ∧ resolve lab (.imm 3) lab.ws.bytes = .next (.imm 3, lab) ∧
      readable lab (.imm 3) lab.ws.bytes = true ∧ canEnter lab (lab.datum (.imm 3) lab.ws.bytes) = true :=
  ⟨by decide, by decide, rfl, by decide, by decide⟩
theorem test_witness_TstSetsFlagsFromTheOperand :
    resolve lab (.postInc 2) lab.ws.bytes = .next (.mem 0x2000, lab) ∧ readable lab (.mem 0x2000) lab.ws.bytes = true :=
  ⟨rfl, by decide⟩
theorem test_witness_TsrTestsThenClears :
    lab.mem.wf = true ∧ resolve lab (.direct 0x2000) lab.ws.bytes = .next (.mem 0x2000, lab) ∧
      readable lab (.mem 0x2000) lab.ws.bytes = true ∧ writableLoc lab (.mem 0x2000) lab.ws.bytes = true ∧
      resolve lab (.reg 1) lab.ws.bytes = .next (.reg 1, lab) ∧ writableLoc lab (.reg 1) lab.ws.bytes = true :=
  ⟨by decide, rfl, by decide, by decide, rfl, by decide⟩
theorem test_witness_MsrAndMpcStoreSrAndPc :
    (Instr.msr (.preDec 15), srNumber lab.sr) ∈
        [(Instr.msr (.preDec 15), srNumber lab.sr), (.mpc (.preDec 15), lab.pc.toNat % 2 ^ lab.ws.bits)] ∧
      lab.mem.wf = true ∧ resolve lab (.preDec 15) lab.ws.bytes = .next (.mem 0x07FE, lab.setReg 15 0x07FE) ∧
      writableLoc (lab.setReg 15 0x07FE) (.mem 0x07FE) lab.ws.bytes = true :=
  ⟨by decide, by decide, rfl, by decide⟩
theorem test_witness_ReturnsPopTheStack :
    canRead lab (lab.reg sp) lab.ws.bytes = true ∧
      canRead lab (lab.ws.narrow ((lab.reg sp).toNat + lab.ws.bytes)) lab.ws.bytes = true := by decide
theorem test_witness_PushThenPopMovesTheValue :
    lab.ws = .n16 ∧ lab.mem.wf = true ∧ (1 : Reg) ≠ sp ∧ (3 : Reg) ≠ sp ∧ canWrite lab (lab.slotBelow 1) 2 = true := by
  decide

end Sys2Proof.Tests
end

section
/-! Boundaries of a step, and the acts of the environment around a Reset (O13, O14). -/

namespace Sys2Proof.Machine

/-! ## What a step does at each kind of boundary (R310) -/

theorem step_of_rstLow (s : State) (h : s.rstLow = true) : step s = .next (takeReset s) := by
  rw [step, if_pos h]

theorem step_of_fetches (s : State) (h : s.fetches) : step s = andThen (fetch s) fun r => exec r.1 r.2 := by
  obtain ⟨hr, ha, hw⟩ := h
  simp only [step, hr, ha, hw, Bool.false_eq_true, if_false]

theorem acceptable_of_IF_false (s : State) (h : s.sr.IF = false) : s.acceptable = none := by
  simp [State.acceptable, h]

/-- With SR cleared and /RST at 1 there is nothing to do at a boundary but to fetch. -/
theorem fetches_of_cleared (s : State) (hr : s.rstLow = false) (hs : s.sr = SR.cleared) : s.fetches :=
  ⟨hr, acceptable_of_IF_false s (by rw [hs]; rfl), by rw [hs]; rfl⟩

/-- START as R5 gives it, for each word size. -/
theorem startAddress_spec (ws : WordSize) :
    (ws = .n16 → startAddress ws = 0xFFFA) ∧ (ws = .n32 → startAddress ws = Config.start32) :=
  ⟨fun h => by rw [h]; rfl, fun h => by rw [h]; rfl⟩

/-! ## Edges, and the release of /RST -/

/-- An edge changes pending bits only (R309). -/
theorem afterEvent_of_isEdge (s : State) (e : EnvEvent) (h : e.isEdge = true) :
    ∃ ps, s.afterEvent e = { s with pending := ps } := by
  obtain he | ⟨i, -, -, he⟩ | ⟨rfl, -⟩ | ⟨rfl, -⟩ := s.afterEvent_cases e
  · exact ⟨s.pending, he⟩
  · exact ⟨_, he⟩
  · cases h
  · cases h

/-- Any number of edges change pending bits only. -/
theorem afterEvents_of_edges (edges : List EnvEvent) (s : State) (h : ∀ e ∈ edges, e.isEdge = true) :
    ∃ ps, s.afterEvents edges = { s with pending := ps } := by
  induction edges generalizing s with
  | nil => exact ⟨s.pending, rfl⟩
  | cons e es ih =>
    obtain ⟨he, hes⟩ := List.forall_mem_cons.mp h
    obtain ⟨ps, hs⟩ := afterEvent_of_isEdge s e he
    obtain ⟨qs, ht⟩ := ih { s with pending := ps } hes
    exact ⟨qs, by rw [State.afterEvents_cons, hs, ht]⟩

/-- The Reset of the release forgets which lines were pending. -/
theorem released_with_pending (s : State) (ps : List Nat) : State.released { s with pending := ps } = s.released := rfl

/-- The Reset of the release forgets at what level /RST was. -/
theorem released_with_rstLow (s : State) (b : Bool) : State.released { s with rstLow := b } = s.released := rfl

/-- While /RST is 0, edges followed by its rise leave what the rise alone leaves. -/
theorem afterEvents_edges_rise (s : State) (edges : List EnvEvent) (he : ∀ e ∈ edges, e.isEdge = true)
    (hr : s.rstLow = true) : s.afterEvents (edges ++ [.rstRises]) = s.released := by
  obtain ⟨ps, hs⟩ := afterEvents_of_edges edges s he
  rw [State.afterEvents_append, hs, State.afterEvents_cons, State.afterEvents_nil, State.afterEvent, if_pos hr,
    released_with_pending]

/-- A fall of /RST, edges, and a rise leave what a release of the state before them leaves. -/
theorem afterEvents_fall_edges_rise (s : State) (edges : List EnvEvent) (he : ∀ e ∈ edges, e.isEdge = true) :
    s.afterEvents (.rstFalls :: edges ++ [.rstRises]) = s.released :=
  (afterEvents_edges_rise { s with rstLow := true } edges he rfl).trans (released_with_rstLow s true)

/-- Settles O13: the step is `takeReset`. -/
theorem resetEvent : Obligations.ResetEvent := by
  intro s hr
  obtain ⟨h16, h32⟩ := startAddress_spec s.ws
  rw [← takeReset_pc] at h16 h32
  exact ⟨takeReset s, step_of_rstLow s hr, takeReset_sr s, h16, h32, takeReset_pending s, takeReset_mem s, takeReset_params s,
    hr, takeReset_outputs s⟩

/-- Settles O14: in both forms the state reached is the release of the state before, and the release leaves nothing to do but
to fetch. -/
theorem releaseTakesReset : Obligations.ReleaseTakesReset := by
  intro s edges he t ht
  have hreleased : t = s.released := by
    obtain rfl | ⟨hr, rfl⟩ := ht
    · exact afterEvents_fall_edges_rise s edges he
    · exact afterEvents_edges_rise s edges he hr
  subst hreleased
  obtain ⟨h16, h32⟩ := startAddress_spec s.ws
  rw [← State.released_pc] at h16 h32
  have hf : s.released.fetches := fetches_of_cleared _ s.released_rstLow s.released_sr
  exact ⟨s.released_sr, h16, h32, s.released_pending, s.released_rstLow, s.released_mem, s.released_params,
    s.released_outputs, s.released_draws, hf, step_of_fetches _ hf⟩

end Sys2Proof.Machine
end

section
/-! What each shared operation does to SR, and which instructions can change WF and IF (O25). -/

namespace Sys2Proof.Machine

/-! ## Guarded meanings -/

/-- A meaning under a condition answers only where the condition holds. -/
theorem guarded_eq_next {c : Prop} [Decidable c] {r : Refusal} {o : Answer State} {t : State}
    (h : (if c then o else .refused r) = .next t) : c ∧ o = .next t := by
  split at h
  · next hc => exact ⟨hc, h⟩
  · cases h

/-- A meaning behind a refusal answers only where the refusal's condition fails. -/
theorem unlessRefused_eq_next {c : Prop} [Decidable c] {r : Refusal} {o : Answer State} {t : State}
    (h : (if c then .refused r else o) = .next t) : ¬c ∧ o = .next t := by
  split at h
  · cases h
  · next hc => exact ⟨hc, h⟩

/-! ## SR after each shared operation -/

theorem push_sr {s t : State} {v : Word} (h : push s v = .next t) : t.sr = s.sr := by
  obtain ⟨-, rfl⟩ := (push_eq_next s t v).mp h
  rfl

theorem pop_sr {s t : State} {v : Word} (h : pop s = .next (v, t)) : t.sr = s.sr := by
  obtain ⟨-, -, rfl⟩ := (pop_eq_next s t v).mp h
  rfl

theorem writeOperand_sr {s t : State} {loc : Resolved} {n : Nat} {v : Word} (h : writeOperand s loc n v = .next t) :
    t.sr = s.sr := by
  obtain ⟨r, -, rfl⟩ | ⟨ea, -, -, rfl⟩ := (writeOperand_eq_next s t loc n v).mp h
  · exact s.setReg_sr _ _
  · exact s.stored_sr _ _ _

/-- A branch, taken or not, changes no flag (R28). -/
theorem branchIf_sr {cc : Cond} {disp : BitVec 8} {s t : State} (h : branchIf cc disp s = .next t) : t.sr = s.sr := by
  cases h
  split
  · exact s.setPc_sr _
  · rfl

/-- A jump, taken or not, changes no flag (R28). -/
theorem jumpIf_sr {cc : Cond} {disp : Operand} {s t : State} (h : jumpIf cc disp s = .next t) : t.sr = s.sr := by
  simp only [jumpIf, andThen_eq_next] at h
  obtain ⟨⟨loc, s1⟩, hres, d, -, hnext⟩ := h
  cases hnext
  split <;> simp [resolve_sr s s1 disp _ loc hres]

/-- Storing to an operand changes no flag. -/
theorem storeOperand_sr {op : Operand} {v : State → Word} {s t : State} (h : storeOperand op v s = .next t) :
    t.sr = s.sr := by
  simp only [storeOperand, andThen_eq_next] at h
  obtain ⟨⟨loc, s1⟩, hres, s2, hwrite, hnext⟩ := h
  cases hnext
  rw [postIncrement_sr, writeOperand_sr hwrite, resolve_sr s s1 op _ loc hres]

theorem execMsr_sr {a : Operand} {s t : State} (h : execMsr a s = .next t) : t.sr = s.sr :=
  storeOperand_sr h

theorem execMpc_sr {a : Operand} {s t : State} (h : execMpc a s = .next t) : t.sr = s.sr :=
  storeOperand_sr h

theorem execJea_sr {a : Operand} {s t : State} (h : execJea a s = .next t) : t.sr = s.sr := by
  simp only [execJea, andThen_eq_next] at h
  obtain ⟨⟨loc, s1⟩, hres, ea, -, hnext⟩ := h
  cases hnext
  rw [postIncrement_sr, State.setPc_sr, resolve_sr s s1 a _ loc hres]

theorem execJsr_sr {a : Operand} {s t : State} (h : execJsr a s = .next t) : t.sr = s.sr := by
  obtain ⟨-, h⟩ := unlessRefused_eq_next h
  simp only [andThen_eq_next] at h
  obtain ⟨⟨loc, s1⟩, hres, target, -, s2, hpush, hnext⟩ := h
  cases hnext
  rw [postIncrement_sr, State.setPc_sr, push_sr hpush, resolve_sr s s1 a _ loc hres]

theorem execRts_sr {s t : State} (h : execRts s = .next t) : t.sr = s.sr := by
  simp only [execRts, andThen_eq_next] at h
  obtain ⟨⟨v, s1⟩, hpop, hnext⟩ := h
  cases hnext
  rw [State.setPc_sr, pop_sr hpop]

/-! ## WF and IF after each flag computation (R27) -/

theorem addFlags_modes (ws : WordSize) (sr : SR) (a b : Word) (c : Bool) :
    (addFlags ws sr a b c).2.WF = sr.WF ∧ (addFlags ws sr a b c).2.IF = sr.IF := ⟨rfl, rfl⟩

theorem subFlags_modes (ws : WordSize) (sr : SR) (a b : Word) (c : Bool) :
    (subFlags ws sr a b c).2.WF = sr.WF ∧ (subFlags ws sr a b c).2.IF = sr.IF := ⟨rfl, rfl⟩

theorem logicFlags_modes (ws : WordSize) (sr : SR) (r : Word) :
    (logicFlags ws sr r).WF = sr.WF ∧ (logicFlags ws sr r).IF = sr.IF := ⟨rfl, rfl⟩

theorem shiftFlags_modes (ws : WordSize) (sr : SR) (r : Word) (out : Bool) :
    (shiftFlags ws sr r out).WF = sr.WF ∧ (shiftFlags ws sr r out).IF = sr.IF := ⟨rfl, rfl⟩

/-! ## WF and IF after each shared operation -/

theorem SameModes.of_sr {s t : State} (h : t.sr = s.sr) : SameModes s t :=
  ⟨congrArg SR.WF h, congrArg SR.IF h⟩

theorem SameModes.of_next {s t u : State} (h : (.next u : Answer State) = .next t) (hu : SameModes s u) :
    SameModes s t := by
  cases h
  exact hu

/-- Writing a result keeps WF and IF where the computation of its flags does. -/
theorem finish_sameModes (s : State) (d : Reg) (out : Word × SR) (h : out.2.WF = s.sr.WF ∧ out.2.IF = s.sr.IF) :
    SameModes s (s.finish d out) := h

theorem finishLogic_sameModes (s : State) (d : Reg) (r : Word) : SameModes s (s.finishLogic d r) :=
  finish_sameModes s d _ (logicFlags_modes s.ws s.sr r)

theorem finishShift_sameModes (s : State) (d : Reg) (r : Word) (out : Bool) : SameModes s (s.finishShift d r out) :=
  finish_sameModes s d _ (shiftFlags_modes s.ws s.sr r out)

/-- TST's flags keep WF and IF (R234, R235). -/
theorem testFlags_sameModes {s u : State} (v : Word) (h : u.sr = s.sr) : SameModes s (u.testFlags v) := by
  rw [SameModes, ← h]
  exact logicFlags_modes u.ws u.sr v

theorem load_sameModes {size : Nat} {ra : Reg} {b : Operand} {s t : State} (h : load size ra b s = .next t) :
    SameModes s t := by
  obtain ⟨-, h⟩ := unlessRefused_eq_next h
  simp only [andThen_eq_next] at h
  obtain ⟨⟨loc, s1⟩, hres, datum, -, hnext⟩ := h
  refine SameModes.of_next hnext (testFlags_sameModes _ ?_)
  rw [postIncrement_sr, State.setReg_sr, resolve_sr s s1 b _ loc hres]

theorem store_sameModes {size : Nat} {ra : Reg} {b : Operand} {s t : State} (h : store size ra b s = .next t) :
    SameModes s t := by
  obtain ⟨-, h⟩ := unlessRefused_eq_next h
  simp only [andThen_eq_next] at h
  obtain ⟨⟨loc, s1⟩, hres, s2, hwrite, hnext⟩ := h
  refine SameModes.of_next hnext (testFlags_sameModes _ ?_)
  rw [postIncrement_sr, writeOperand_sr hwrite, resolve_sr s s1 b _ loc hres]

theorem execDiv_sameModes {sa sb d : Reg} {s t : State} (h : execDiv sa sb d s = .next t) : SameModes s t := by
  obtain ⟨-, h⟩ := unlessRefused_eq_next h
  obtain ⟨-, h⟩ := unlessRefused_eq_next h
  obtain ⟨-, h⟩ := unlessRefused_eq_next h
  exact SameModes.of_next h ⟨rfl, rfl⟩

theorem execMul_sameModes {sa sb d : Reg} {s t : State} (h : execMul sa sb d s = .next t) : SameModes s t :=
  .of_next h ⟨rfl, rfl⟩

/-- INP's answer is drawn before its flags are set; the draw changes no flag. -/
theorem execInp_sameModes {src d : Reg} {s t : State} (h : execInp src d s = .next t) : SameModes s t :=
  .of_next h (finishLogic_sameModes s.drawn d _)

theorem execTst_sameModes {a : Operand} {s t : State} (h : execTst a s = .next t) : SameModes s t := by
  simp only [execTst, andThen_eq_next] at h
  obtain ⟨⟨loc, s1⟩, hres, v, -, hnext⟩ := h
  refine SameModes.of_next hnext (testFlags_sameModes _ ?_)
  rw [postIncrement_sr, resolve_sr s s1 a _ loc hres]

theorem execTsr_sameModes {a : Operand} {s t : State} (h : execTsr a s = .next t) : SameModes s t := by
  simp only [execTsr, andThen_eq_next] at h
  obtain ⟨⟨loc, s1⟩, hres, v, -, s2, hwrite, hnext⟩ := h
  cases hnext
  rw [SameModes, postIncrement_sr, writeOperand_sr hwrite]
  exact testFlags_sameModes v (resolve_sr s s1 a _ loc hres)

/-- Settles O25, by cases on the instruction: each is written from a shared operation that keeps WF and IF, or is one of the
five. -/
theorem modesChangeOnlyByFiveInstructions : Obligations.ModesChangeOnlyByFiveInstructions := by
  intro i s t h hhlt heni hdsi hrti htrp
  cases i
  case hlt => exact absurd rfl hhlt
  case eni => exact absurd rfl heni
  case dsi => exact absurd rfl hdsi
  case rti => exact absurd rfl hrti
  case trp a => exact absurd rfl (htrp a)
  case adc | add | adi | adq => exact .of_next h (finish_sameModes _ _ _ (addFlags_modes _ _ _ _ _))
  case sub | sbb | neg => exact .of_next h (finish_sameModes _ _ _ (subFlags_modes _ _ _ _ _))
  case cmp => exact .of_next h (subFlags_modes _ _ _ _ _)
  case xor | and | or | not | swb | ani | ldq => exact .of_next h (finishLogic_sameModes _ _ _)
  case rlb | ext => exact .of_next (guarded_eq_next h).2 (finishLogic_sameModes _ _ _)
  case rlc | rrc | srl | sra | shl => exact .of_next h (finishShift_sameModes _ _ _ _)
  case div => exact execDiv_sameModes h
  case mul => exact execMul_sameModes h
  case inp => exact execInp_sameModes h
  case out => exact .of_next h (logicFlags_modes _ _ _)
  case ldB | ldW => exact load_sameModes h
  case ldL => exact load_sameModes (guarded_eq_next h).2
  case stB | stW => exact store_sameModes h
  case stL => exact store_sameModes (guarded_eq_next h).2
  case tst => exact execTst_sameModes h
  case tsr => exact execTsr_sameModes h
  case msr => exact .of_sr (execMsr_sr h)
  case mpc => exact .of_sr (execMpc_sr h)
  case jea => exact .of_sr (execJea_sr h)
  case jsr => exact .of_sr (execJsr_sr h)
  case rts => exact .of_sr (execRts_sr h)
  case nop | clc | stc => exact .of_next h ⟨rfl, rfl⟩
  case jmp | jeq | jne | jge | jle | jgt | jlw | jae | jbe | jab | jbl | jvs | jvc => exact .of_sr (jumpIf_sr h)
  case bmp | beq | bne | bge | ble | bgt | blw | bae | bbe | bab | bbl | bvs | bvc => exact .of_sr (branchIf_sr h)

end Sys2Proof.Machine
end

section
/-! Decoding the word of a well-formed instruction, down to the fields of each format (R82 to R89, R99, R100). -/

namespace Sys2Proof

/-! ## Operands -/

/-- The operand with its extension word, if its mode has one, replaced. -/
def Operand.withExtension : Operand → Word → Operand
  | .imm _, ie => .imm ie
  | .direct _, ie => .direct ie
  | .indexed _ r, ie => .indexed ie r
  | .preIndexed _ r, ie => .preIndexed ie r
  | op, _ => op

/-- An operand with its own extension word is itself. -/
@[simp] theorem Operand.withExtension_self (op : Operand) : op.withExtension (op.extension.getD 0) = op := by
  cases op <;> rfl

@[simp] theorem Operand.isDestination_withExtension (op : Operand) (ie : Word) :
    (op.withExtension ie).isDestination = op.isDestination := by
  cases op <;> rfl

@[simp] theorem Operand.hasAddress_withExtension (op : Operand) (ie : Word) :
    (op.withExtension ie).hasAddress = op.hasAddress := by
  cases op <;> rfl

/-- The decoder reads an operand back from its mode and register code, awaiting its extension word (R92). -/
theorem decodeOperand_mode (op : Operand) : decodeOperand op.mode (Fin.ofNat 16 op.code) = .ok op.withExtension := by
  cases op <;> simp [decodeOperand, Operand.mode, Operand.code] <;> rfl

theorem needDestination_ok (op : Operand) (h : op.isDestination = true) :
    needDestination (.ok op.withExtension) = .ok op.withExtension := by
  simp [needDestination, h]

theorem needAddress_ok (op : Operand) (h : op.hasAddress = true) :
    needAddress (.ok op.withExtension) = .ok op.withExtension := by
  simp [needAddress, h]

/-! ## The decoder on the word of each format -/

/-- The word decodes to the instruction, once its extension word is supplied. -/
def DecodesTo (o : Except Reserved (Word → Instr)) (i : Instr) : Prop :=
  ∃ f, o = .ok f ∧ f (i.extension.getD 0) = i

theorem DecodesTo.const {o : Except Reserved (Word → Instr)} {i : Instr} (h : o = .ok fun _ => i) : DecodesTo o i :=
  ⟨_, h, rfl⟩

/-- An instruction made from one operand decodes where that operand does. -/
theorem DecodesTo.operand (op : Operand) (mk : Operand → Instr) (h : (mk op).extension = op.extension) :
    DecodesTo (withOperand (.ok op.withExtension) mk) (mk op) :=
  ⟨_, rfl, by rw [h, op.withExtension_self]⟩

theorem regField_eq (w lo : Nat) (r : Reg) (h : field w (lo + 3) lo = r.val) : regField w lo = r := by
  rw [regField, h]
  exact Fin.ofNat_val_eq_self r

/-- A mode field and a register field that hold an operand's codes decode to that operand. -/
theorem decodeOperand_fields (w hi lo : Nat) (op : Operand) (hmode : field w hi lo = op.mode) (hcode : field w 3 0 = op.code) :
    decodeOperand (field w hi lo) (regField w 0) = .ok op.withExtension := by
  rw [hmode, regField, Nat.zero_add, hcode, decodeOperand_mode]

theorem byteField_eq (w lo : Nat) (v : BitVec 8) (h : field w (lo + 7) lo = v.toNat) : byteField w lo = v := by
  rw [byteField, h, BitVec.ofNat_toNat, BitVec.setWidth_eq]

section
variable (p : Params)

theorem decodeNormal_word1 (k : Nat) (sa sb d : Reg) (hk : k < 8) :
    decodeNormal p (word1 k sa sb d) = .ok fun _ => decodeGroup1 (word1 k sa sb d) := by
  have h : field (word1 k sa sb d) 15 15 = 1 := by simp only [field, word1]; omega
  simp [decodeNormal, h]

/-- The fields of a word of format I (R82). -/
theorem fields_word1 (k : Nat) (sa sb d : Reg) (hk : k < 8) :
    field (word1 k sa sb d) 14 12 = k ∧ regField (word1 k sa sb d) 8 = sa ∧ regField (word1 k sa sb d) 4 = sb ∧
      regField (word1 k sa sb d) 0 = d := by
  refine ⟨?_, regField_eq _ _ _ ?_, regField_eq _ _ _ ?_, regField_eq _ _ _ ?_⟩ <;> simp only [field, word1] <;> omega

theorem decodeNormal_word2 (k : Nat) (s d : Reg) (hk : k < 16) :
    decodeNormal p (word2 k s d) = decodeGroup2 p (word2 k s d) := by
  have h1 : field (word2 k s d) 15 15 = 0 := by simp only [field, word2]; omega
  have h2 : field (word2 k s d) 15 14 = 1 := by simp only [field, word2]; omega
  have h3 : field (word2 k s d) 13 12 = 0 := by simp only [field, word2]; omega
  simp [decodeNormal, h1, h2, h3]

/-- The fields of a word of format II (R83). -/
theorem fields_word2 (k : Nat) (s d : Reg) (hk : k < 16) :
    field (word2 k s d) 11 8 = k ∧ regField (word2 k s d) 4 = s ∧ regField (word2 k s d) 0 = d := by
  refine ⟨?_, regField_eq _ _ _ ?_, regField_eq _ _ _ ?_⟩ <;> simp only [field, word2] <;> omega

theorem decodeNormal_word3 (type dir : Nat) (ra : Reg) (b : Operand) (ht : 1 ≤ type ∧ type < 4) (hd : dir < 2) :
    decodeNormal p (word3 type dir ra b) = decodeGroup3 p (word3 type dir ra b) := by
  have hm := b.mode_lt
  have hc := b.code_lt
  have h1 : field (word3 type dir ra b) 15 15 = 0 := by simp only [field, word3]; omega
  have h2 : field (word3 type dir ra b) 15 14 = 1 := by simp only [field, word3]; omega
  have h3 : field (word3 type dir ra b) 13 12 ≠ 0 := by simp only [field, word3]; omega
  simp [decodeNormal, h1, h2, h3]

/-- The fields of a word of format III (R84, R91). -/
theorem fields_word3 (type dir : Nat) (ra : Reg) (b : Operand) (ht : 1 ≤ type ∧ type < 4) (hd : dir < 2) :
    field (word3 type dir ra b) 13 12 = type ∧ field (word3 type dir ra b) 11 11 = dir ∧
      regField (word3 type dir ra b) 4 = ra ∧
      decodeOperand (field (word3 type dir ra b) 10 8) (regField (word3 type dir ra b) 0) = .ok b.withExtension := by
  have hm := b.mode_lt
  have hc := b.code_lt
  refine ⟨?_, ?_, regField_eq _ _ _ ?_, decodeOperand_fields _ _ _ _ ?_ ?_⟩ <;> simp only [field, word3] <;> omega

/-- Format IV: the condition and the displacement are read back (R85). -/
theorem decodeNormal_word4 (cc : Cond) (disp : Operand) :
    decodeNormal p (word4 cc disp) = withOperand (.ok disp.withExtension) fun d => .jcc d cc := by
  have hm := disp.mode_lt
  have hc := disp.code_lt
  have hr := cc.code_range
  have h1 : field (word4 cc disp) 15 15 = 0 := by simp only [field, word4]; omega
  have h2 : field (word4 cc disp) 15 14 = 0 := by simp only [field, word4]; omega
  have h3 : field (word4 cc disp) 15 13 = 0 := by simp only [field, word4]; omega
  have h4 : field (word4 cc disp) 15 12 = 0 := by simp only [field, word4]; omega
  have h5 : field (word4 cc disp) 7 7 = 1 := by simp only [field, word4]; omega
  have hcond : field (word4 cc disp) 11 8 = cc.code := by simp only [field, word4]; omega
  have hdisp : decodeOperand (field (word4 cc disp) 6 4) (regField (word4 cc disp) 0) = .ok disp.withExtension :=
    decodeOperand_fields _ _ _ _ (by simp only [field, word4]; omega) (by simp only [field, word4]; omega)
  simp [decodeNormal, h1, h2, h3, h4, h5, decodeGroup4, hcond, Cond.ofCode_code, hdisp]

theorem decodeNormal_word5 (k : Nat) (a : Operand) (hk : k < 8) :
    decodeNormal p (word5 k a) = decodeGroup5 (word5 k a) := by
  have hm := a.mode_lt
  have hc := a.code_lt
  have h1 : field (word5 k a) 15 15 = 0 := by simp only [field, word5]; omega
  have h2 : field (word5 k a) 15 14 = 0 := by simp only [field, word5]; omega
  have h3 : field (word5 k a) 15 13 = 0 := by simp only [field, word5]; omega
  have h4 : field (word5 k a) 15 12 = 0 := by simp only [field, word5]; omega
  have h5 : field (word5 k a) 7 7 = 0 := by simp only [field, word5]; omega
  have h6 : field (word5 k a) 11 11 = 1 := by simp only [field, word5]; omega
  simp [decodeNormal, h1, h2, h3, h4, h5, h6]

/-- The fields of a word of format V (R86). -/
theorem fields_word5 (k : Nat) (a : Operand) (hk : k < 8) :
    field (word5 k a) 10 8 = k ∧
      decodeOperand (field (word5 k a) 6 4) (regField (word5 k a) 0) = .ok a.withExtension := by
  have hm := a.mode_lt
  have hc := a.code_lt
  refine ⟨?_, decodeOperand_fields _ _ _ _ ?_ ?_⟩ <;> simp only [field, word5] <;> omega

/-- Format VI: bits 6 to 0 of the word are zero (R87). -/
theorem decodeNormal_word6 (k : Nat) (hk : k < 8) : decodeNormal p (word6 k) = .ok fun _ => decodeGroup6 (word6 k) := by
  have h1 : field (word6 k) 15 15 = 0 := by simp only [field, word6]; omega
  have h2 : field (word6 k) 15 14 = 0 := by simp only [field, word6]; omega
  have h3 : field (word6 k) 15 13 = 0 := by simp only [field, word6]; omega
  have h4 : field (word6 k) 15 12 = 0 := by simp only [field, word6]; omega
  have h5 : field (word6 k) 7 7 = 0 := by simp only [field, word6]; omega
  have h6 : field (word6 k) 11 11 = 0 := by simp only [field, word6]; omega
  have h7 : field (word6 k) 6 0 = 0 := by simp only [field, word6]; omega
  simp [decodeNormal, h1, h2, h3, h4, h5, h6, h7]

theorem decodeNormal_word7 (k : Nat) (v : BitVec 8) (r : Reg) (hk : k < 2) :
    decodeNormal p (word7 k v r) = .ok fun _ => decodeGroup7 (word7 k v r) := by
  have hv := v.isLt
  have h1 : field (word7 k v r) 15 15 = 0 := by simp only [field, word7]; omega
  have h2 : field (word7 k v r) 15 14 = 0 := by simp only [field, word7]; omega
  have h3 : field (word7 k v r) 15 13 = 1 := by simp only [field, word7]; omega
  simp [decodeNormal, h1, h2, h3]

/-- The fields of a word of format VII (R88). -/
theorem fields_word7 (k : Nat) (v : BitVec 8) (r : Reg) (hk : k < 2) :
    field (word7 k v r) 12 12 = k ∧ byteField (word7 k v r) 4 = v ∧ regField (word7 k v r) 0 = r := by
  have hv := v.isLt
  refine ⟨?_, byteField_eq _ _ _ ?_, regField_eq _ _ _ ?_⟩ <;> simp only [field, word7] <;> omega

/-- Format VIII: the condition and the displacement are read back (R89). -/
theorem decodeNormal_word8 (cc : Cond) (disp : BitVec 8) :
    decodeNormal p (word8 cc disp) = .ok fun _ => .bcc disp cc := by
  have hv := disp.isLt
  have hr := cc.code_range
  have h1 : field (word8 cc disp) 15 15 = 0 := by simp only [field, word8]; omega
  have h2 : field (word8 cc disp) 15 14 = 0 := by simp only [field, word8]; omega
  have h3 : field (word8 cc disp) 15 13 = 0 := by simp only [field, word8]; omega
  have h4 : field (word8 cc disp) 15 12 = 1 := by simp only [field, word8]; omega
  have hcond : field (word8 cc disp) 11 8 = cc.code := by simp only [field, word8]; omega
  have hdisp : byteField (word8 cc disp) 0 = disp := byteField_eq _ _ _ (by simp only [field, word8]; omega)
  simp [decodeNormal, h1, h2, h3, h4, decodeGroup8, hcond, Cond.ofCode_code, hdisp]

theorem field_word6 (k : Nat) (hk : k < 8) : field (word6 k) 10 8 = k := by
  simp only [field, word6]; omega

/-- The word of a well-formed instruction decodes to it, by the format of its group. -/
theorem decodesTo_word (i : Instr) (h : i.wf p = true) : DecodesTo (decodeNormal p i.word) i := by
  cases i <;> simp only [Instr.wf, Bool.and_eq_true, decide_eq_true_eq] at h <;> rw [Instr.word]
  case adc | xor | div | mul | and | or | add | sub =>
    exact .const (by simp [decodeNormal_word1, decodeGroup1, fields_word1])
  case rlc | rrc | srl | sra | not | sbb | shl | neg | inp | out | swb | cmp =>
    exact .const (by simp [decodeNormal_word2, decodeGroup2, fields_word2])
  case rlb | ext => exact .const (by simp [decodeNormal_word2, decodeGroup2, fields_word2, h])
  case ani | adi => exact ⟨_, by simp only [decodeNormal_word2, decodeGroup2, fields_word2, Nat.reduceLT], rfl⟩
  case ldB ra b | ldW ra b =>
    simpa [decodeNormal_word3, decodeGroup3, fields_word3] using DecodesTo.operand b _ rfl
  case ldL ra b => simpa [decodeNormal_word3, decodeGroup3, fields_word3, h.2] using DecodesTo.operand b _ rfl
  case stB ra b | stW ra b =>
    simpa [decodeNormal_word3, decodeGroup3, fields_word3, needDestination_ok, h.2] using DecodesTo.operand b _ rfl
  case stL ra b =>
    obtain ⟨⟨-, hdest⟩, hlong⟩ := h
    simpa [decodeNormal_word3, decodeGroup3, fields_word3, needDestination_ok, hdest, hlong] using DecodesTo.operand b _ rfl
  case jmp d | jeq d | jne d | jge d | jle d | jgt d | jlw d | jae d | jbe d | jab d | jbl d | jvs d | jvc d =>
    rw [decodeNormal_word4]
    exact .operand d _ rfl
  case jea a | jsr a =>
    simpa [decodeNormal_word5, decodeGroup5, fields_word5, needAddress_ok, h.2] using DecodesTo.operand a _ rfl
  case trp a | tst a => simpa [decodeNormal_word5, decodeGroup5, fields_word5] using DecodesTo.operand a _ rfl
  case tsr a | msr a | mpc a =>
    simpa [decodeNormal_word5, decodeGroup5, fields_word5, needDestination_ok, h.2] using DecodesTo.operand a _ rfl
  case nop | hlt | rts | rti | clc | stc | dsi | eni =>
    exact .const (by simp [decodeNormal_word6, decodeGroup6, field_word6])
  case ldq | adq => exact .const (by simp [decodeNormal_word7, decodeGroup7, fields_word7])
  case bmp | beq | bne | bge | ble | bgt | blw | bae | bbe | bab | bbl | bvs | bvc =>
    exact .const (decodeNormal_word8 p _ _)

/-- The instruction word of a well-formed instruction decodes to it, in either variant of the encoding (R99). -/
theorem decodesTo_encodeWord (i : Instr) (h : i.wf p = true) : DecodesTo (decodeWord p (encodeWord p i)) i := by
  rw [decodeWord, normalise_encodeWord]
  exact decodesTo_word p i h

/-- A well-formed instruction is followed by an extension word exactly when it carries one (R98). -/
theorem hasExtension_encodeWord (i : Instr) (h : i.wf p = true) :
    hasExtension p (encodeWord p i) = i.extension.isSome := by
  refine Laws.ExtensionKnown.of_word i ?_ p h
  cases i
  case adc | xor | div | mul | and | or | add | sub => exact extensionNormal_word1 _ _ _ _ (by decide)
  case rlc | rrc | srl | sra | not | sbb | shl | neg | inp | out | swb | rlb | ani | ext | adi | cmp =>
    exact extensionNormal_word2 _ _ _ (by decide)
  case ldB | ldW | ldL | stB | stW | stL => exact extensionNormal_word3 _ _ _ _ (by decide) (by decide)
  case jmp | jeq | jne | jge | jle | jgt | jlw | jae | jbe | jab | jbl | jvs | jvc => exact extensionNormal_word4 _ _
  case jea | jsr | trp | tst | tsr | msr | mpc => exact extensionNormal_word5 _ _ (by decide)
  case nop | hlt | rts | rti | clc | stc | dsi | eni => exact extensionNormal_word6 _ (by decide)
  case ldq | adq => exact extensionNormal_word7 _ _ _ (by decide)
  case bmp | beq | bne | bge | ble | bgt | blw | bae | bbe | bab | bbl | bvs | bvc => exact extensionNormal_word8 _ _

end

theorem Operand.fits_of_wf (p : Params) (op : Operand) (h : op.wf p = true) (ie : Word) (he : op.extension = some ie) :
    p.wordSize.fits ie = true := by
  rwa [Operand.wf, he] at h

/-- The extension word of a well-formed instruction has N bits (R97). -/
theorem Instr.fits_of_wf (p : Params) (i : Instr) (h : i.wf p = true) (ie : Word) (he : i.extension = some ie) :
    p.wordSize.fits ie = true := by
  cases i <;> simp only [Instr.wf, Bool.and_eq_true] at h
  case ani | adi => cases he; exact h
  case ldB b | ldW b => exact b.fits_of_wf p h ie he
  case jmp d | jeq d | jne d | jge d | jle d | jgt d | jlw d | jae d | jbe d | jab d | jbl d | jvs d | jvc d | trp d | tst d =>
    exact d.fits_of_wf p h ie he
  case ldL b | stB b | stW b | jea b | jsr b | tsr b | msr b | mpc b => exact b.fits_of_wf p h.1 ie he
  case stL b => exact b.fits_of_wf p h.1.1 ie he
  -- every other instruction carries no extension word
  all_goals cases he

end Sys2Proof
end

section
/-! Fetching an instruction whose bytes stand in memory, and the step that runs it (O7). -/

namespace Sys2Proof

@[simp] theorem length_bigEndian (n v : Nat) : (bigEndian n v).length = n := by
  induction n generalizing v with
  | zero => rfl
  | succ n ih => simp [bigEndian, ih]

namespace Machine

/-! ## Spans and the bytes in them -/

/-- A span cut in two: the second part starts where the first ends, modulo 2^N. -/
theorem span_add (s : State) (a : Word) (m n : Nat) :
    s.span a (m + n) = s.span a m ++ s.span (s.ws.narrow (a.toNat + m)) n := by
  simp [State.span, List.range_add, Function.comp_def, Nat.add_assoc]

theorem bytesFrom_add (s : State) (a : Word) (m n : Nat) :
    s.bytesFrom a (m + n) = s.bytesFrom a m ++ s.bytesFrom (s.ws.narrow (a.toNat + m)) n := by
  rw [State.bytesFrom, span_add, List.map_append, State.bytesFrom, State.bytesFrom]

@[simp] theorem length_bytesFrom (s : State) (a : Word) (n : Nat) : (s.bytesFrom a n).length = n := by
  simp [State.bytesFrom, State.span]

/-- Where the big-endian bytes of a number stand, the word read is that number, cut to its bytes (R51). -/
theorem word_of_bytesFrom (s : State) (a : Word) (n v : Nat) (h : s.bytesFrom a n = bigEndian n v) :
    s.word a n = v % 256 ^ n := by
  induction n generalizing v with
  | zero => simp [State.word, Memory.readBig, Nat.mod_one]
  | succ n ih =>
    have hcut : s.bytesFrom a n ++ [s.byteAt ((a.toNat + n) % s.ws.modulus)] = bigEndian n (v / 256) ++ [BitVec.ofNat 8 v] := by
      simpa [State.bytesFrom, State.span, List.range_succ, bigEndian] using h
    obtain ⟨hinit, hlast⟩ := List.append_inj hcut (by simp)
    have hbyte : s.mem.read ((a.toNat + n) % s.ws.modulus) = BitVec.ofNat 8 v := List.singleton_inj.mp hlast
    have hword : Memory.readBig s.ws.modulus s.mem a.toNat n = v / 256 % 256 ^ n := ih _ hinit
    rw [State.word, Memory.readBig, hbyte, hword, BitVec.toNat_ofNat, pow_succ' 256 n, Nat.mod_mul]
    omega

/-- A fetch of `n` bytes at an even, populated address reads the number whose bytes stand there (R52, R56). -/
theorem memReadAligned_of_bytesFrom (s : State) (a : Word) (n v : Nat) (heven : a.toNat % 2 = 0)
    (hpop : (s.span a n).all (populated s.params) = true) (h : s.bytesFrom a n = bigEndian n v) :
    memReadAligned 2 s a n = .next (BitVec.ofNat 32 (v % 256 ^ n)) := by
  have hword : Memory.readBig s.ws.modulus s.mem a.toNat n = v % 256 ^ n := word_of_bytesFrom s a n v h
  simp only [memReadAligned, heven, ne_eq, not_true_eq_false, if_false, hpop, if_true, hword]

/-! ## PC in two moves -/

/-- Narrowing before an addition changes nothing modulo 2^N. -/
theorem narrow_narrow_add (ws : WordSize) (k m : Nat) : ws.narrow ((ws.narrow k).toNat + m) = ws.narrow (k + m) := by
  rw [ws.toNat_narrow, ← ws.narrow_mod, Nat.mod_add_mod, ws.narrow_mod]

theorem setPc_setPc (s : State) (k m : Nat) : (s.setPc k).setPc ((s.setPc k).pc.toNat + m) = s.setPc (k + m) :=
  congrArg (fun pc => { s with pc := pc }) (narrow_narrow_add s.ws k m)

/-- An even address stays even modulo 2^N. -/
theorem narrow_even (ws : WordSize) (k : Nat) (h : k % 2 = 0) : (ws.narrow k).toNat % 2 = 0 := by
  rw [ws.toNat_narrow, Nat.mod_mod_of_dvd k ⟨ws.half, ws.modulus_half⟩, h]

/-! ## The fetch -/

/-- The bytes of an instruction without an extension word. -/
theorem encode_of_none (p : Params) (i : Instr) (h : i.extension = none) :
    encode p i = bigEndian 2 (encodeWord p i).toNat := by
  rw [encode, h, List.append_nil]

/-- The bytes of an instruction with an extension word. -/
theorem encode_of_some (p : Params) (i : Instr) (ie : Word) (h : i.extension = some ie) :
    encode p i = bigEndian 2 (encodeWord p i).toNat ++ bigEndian p.wordSize.bytes ie.toNat := by
  rw [encode, h]

/-- The word read at PC where the bytes of an instruction's word stand, as `fetch` takes it. -/
theorem ofNat_fetched (c : Code) : BitVec.ofNat 16 (BitVec.ofNat 32 (c.toNat % 256 ^ 2)).toNat = c := by
  apply BitVec.eq_of_toNat_eq
  simp only [BitVec.toNat_ofNat]
  omega

/-- The extension word read where its bytes stand. -/
theorem ofNat_extension (ws : WordSize) (ie : Word) (h : ws.fits ie = true) :
    BitVec.ofNat 32 (ie.toNat % 256 ^ ws.bytes) = ie := by
  rw [← ws.modulus_bytes, Nat.mod_eq_of_lt (of_decide_eq_true h), BitVec.ofNat_toNat, BitVec.setWidth_eq]

/-- R96: the fetch at an even PC where the bytes of a well-formed instruction stand answers that instruction, with PC past it. -/
theorem fetch_of_encode (s : State) (i : Instr) (hwf : i.wf s.params = true) (heven : s.pc.toNat % 2 = 0)
    (hpop : (s.span s.pc (encode s.params i).length).all (populated s.params) = true)
    (hbytes : s.bytesFrom s.pc (encode s.params i).length = encode s.params i) :
    fetch s = .next (i, s.setPc (s.pc.toNat + (encode s.params i).length)) := by
  obtain ⟨f, hdecode, hf⟩ := decodesTo_encodeWord s.params i hwf
  have hodd : ¬s.pc.toNat % 2 = 1 := by omega
  have hext := hasExtension_encodeWord s.params i hwf
  cases he : i.extension with
  | none =>
    rw [he, Option.getD_none] at hf
    rw [he, Option.isSome_none] at hext
    rw [encode_of_none s.params i he, length_bigEndian] at hpop hbytes ⊢
    have hread := memReadAligned_of_bytesFrom s s.pc 2 _ heven hpop hbytes
    simp only [fetch, if_neg hodd, hread, andThen_next, ofNat_fetched, hdecode, hext, hf,
      Bool.false_eq_true, if_false]
  | some ie =>
    rw [he, Option.getD_some] at hf
    rw [he, Option.isSome_some] at hext
    rw [encode_of_some s.params i ie he, List.length_append, length_bigEndian, length_bigEndian, ← State.ws]
      at hpop hbytes ⊢
    rw [span_add, List.all_append, Bool.and_eq_true] at hpop
    rw [bytesFrom_add] at hbytes
    obtain ⟨hpop2, hpopIe⟩ := hpop
    obtain ⟨hbytes2, hbytesIe⟩ := List.append_inj hbytes (by simp)
    have hread := memReadAligned_of_bytesFrom s s.pc 2 _ heven hpop2 hbytes2
    have hreadIe : memReadAligned 2 (s.setPc (s.pc.toNat + 2)) (s.setPc (s.pc.toNat + 2)).pc s.ws.bytes = .next ie := by
      rw [← ofNat_extension s.ws ie (i.fits_of_wf s.params hwf ie he)]
      exact memReadAligned_of_bytesFrom (s.setPc (s.pc.toNat + 2)) _ _ _ (narrow_even _ _ (by omega)) hpopIe hbytesIe
    simp only [fetch, if_neg hodd, hread, andThen_next, ofNat_fetched, hdecode, hext, if_true, State.setPc_ws, hreadIe, hf,
      setPc_setPc, Nat.add_assoc]

/-- Settles O7: such a fetch answers the instruction, and a step that fetches runs what the fetch answers. -/
theorem stepRunsTheDecodedInstruction : Obligations.StepRunsTheDecodedInstruction := by
  intro s i hfetches hwf heven hpop hbytes
  rw [step_of_fetches s hfetches, fetch_of_encode s i hwf heven hpop hbytes, andThen_next]

end Machine

end Sys2Proof
end

section
/-! What an instruction is made of: every instruction that completes is a chain of updates of the state (O27, O28, and the
invariant of O21). -/

namespace Sys2Proof.Machine

/-- What an instruction may do to the state besides moving registers, PC and SR. -/
inductive Effect where
  /-- it stores bytes in memory -/
  | store
  /-- it hands a datum to a port -/
  | output
  /-- it draws a free value -/
  | draw

/-- The effects an instruction may have, the others being registers, PC and SR (R30, R60, R123, R124). -/
def effectsOf : Instr → List Effect
  | .stB _ _ | .stW _ _ | .stL _ _ | .jsr _ | .trp _ | .tsr _ | .msr _ | .mpc _ => [.store]
  | .out _ _ => [.output]
  | .inp _ _ | .mul _ _ _ | .div _ _ _ => [.draw]
  | _ => []

/-- One update of the state with no effect outside `es`. A store has a meaning as an access (R53); an output is the content of
two registers (R150). -/
inductive Update (es : List Effect) : State → State → Prop where
  | setReg (s : State) (r : Reg) (v : Word) : Update es s (s.setReg r v)
  | setPc (s : State) (v : Nat) : Update es s (s.setPc v)
  | setSR (s : State) (sr : SR) : Update es s (s.setSR sr)
  | stored (s : State) (a v : Word) (n : Nat) (hstore : .store ∈ es) (hw : canWrite s a n = true) :
      Update es s (s.stored a n v)
  | ioWrite (s : State) (port datum : Reg) (houtput : .output ∈ es) :
      Update es s (ioWrite s (s.reg port) (s.reg datum))
  | drawn (s : State) (hdraw : .draw ∈ es) : Update es s s.drawn

/-- Updates in a row, with no effect outside `es`. -/
def Updates (es : List Effect) : State → State → Prop :=
  Relation.ReflTransGen (Update es)

/-! ## Chains of updates -/

namespace Updates
variable {es : List Effect} {s t u : State}

theorem refl : Updates es s s :=
  Relation.ReflTransGen.refl

theorem trans (h : Updates es s t) (h' : Updates es t u) : Updates es s u :=
  Relation.ReflTransGen.trans h h'

theorem tail (h : Updates es s t) (h' : Update es t u) : Updates es s u :=
  Relation.ReflTransGen.tail h h'

theorem setReg (h : Updates es s t) (r : Reg) (v : Word) : Updates es s (t.setReg r v) :=
  h.tail (.setReg t r v)

theorem setPc (h : Updates es s t) (v : Nat) : Updates es s (t.setPc v) :=
  h.tail (.setPc t v)

theorem setSR (h : Updates es s t) (sr : SR) : Updates es s (t.setSR sr) :=
  h.tail (.setSR t sr)

theorem drawn (h : Updates es s t) (hdraw : .draw ∈ es) : Updates es s t.drawn :=
  h.tail (.drawn t hdraw)

theorem of_next (h : (.next u : Answer State) = .next t) (hu : Updates es s u) : Updates es s t := by
  cases h
  exact hu

/-- What every update keeps, a chain keeps. -/
theorem keeps {P : State → Prop} (hP : ∀ u v, Update es u v → P u → P v) (h : Updates es s t) (hs : P s) : P t := by
  induction h with
  | refl => exact hs
  | tail _ hlast ih => exact hP _ _ hlast ih

theorem finish (h : Updates es s t) (d : Reg) (out : Word × SR) : Updates es s (t.finish d out) :=
  (h.setReg d _).setSR _

theorem finishLogic (h : Updates es s t) (d : Reg) (r : Word) : Updates es s (t.finishLogic d r) :=
  h.finish d _

theorem finishShift (h : Updates es s t) (d : Reg) (r : Word) (out : Bool) : Updates es s (t.finishShift d r out) :=
  h.finish d _

theorem postIncrement (h : Updates es s t) (op : Operand) (n : Nat) : Updates es s (postIncrement t op n) := by
  cases op
  case postInc r => exact h.setReg r _
  all_goals exact h

end Updates

section
variable {es : List Effect} {s t : State}

/-! ## The shared operations -/

theorem resolve_updates {op : Operand} {n : Nat} {loc : Resolved} (h : resolve s op n = .next (loc, t)) :
    Updates es s t := by
  obtain rfl | ⟨r, -, -, rfl⟩ := resolve_cases s t op n loc h
  · exact .refl
  · exact Updates.refl.setReg r _

theorem writeOperand_updates {loc : Resolved} {n : Nat} {v : Word} (hstore : .store ∈ es)
    (h : writeOperand s loc n v = .next t) : Updates es s t := by
  obtain ⟨r, -, rfl⟩ | ⟨ea, -, hw, rfl⟩ := (writeOperand_eq_next s t loc n v).mp h
  · exact Updates.refl.setReg r _
  · exact Updates.refl.tail (.stored s ea v n hstore hw)

theorem push_updates {v : Word} (hstore : .store ∈ es) (h : push s v = .next t) : Updates es s t := by
  obtain ⟨hw, rfl⟩ := (push_eq_next s t v).mp h
  exact (Updates.refl.setReg sp _).tail (.stored _ _ v _ hstore hw)

theorem pop_updates {v : Word} (h : pop s = .next (v, t)) : Updates es s t := by
  obtain ⟨-, -, rfl⟩ := (pop_eq_next s t v).mp h
  exact Updates.refl.setReg sp _

theorem enter_updates {n : Nat} {ret : Word} (hstore : .store ∈ es) (h : enter s n ret = .next t) : Updates es s t := by
  obtain ⟨s1, s2, v, hpush1, hpush2, -, rfl⟩ := (enter_eq_next s t n ret).mp h
  have h1 : Updates es s s1 := push_updates hstore hpush1
  exact ((h1.setSR _).trans (push_updates hstore hpush2)).setPc _

theorem returnFromException_updates (h : returnFromException s = .next t) : Updates es s t := by
  obtain ⟨v, s1, w, s2, hpop1, hpop2, rfl⟩ := (returnFromException_eq_next s t).mp h
  have h1 : Updates es s s1 := pop_updates hpop1
  exact ((h1.trans (pop_updates hpop2)).setPc _).setSR _

/-! ## The meanings -/

theorem branchIf_updates {cc : Cond} {disp : BitVec 8} (h : branchIf cc disp s = .next t) : Updates es s t := by
  refine .of_next h ?_
  split
  · exact Updates.refl.setPc _
  · exact .refl

theorem jumpIf_updates {cc : Cond} {disp : Operand} (h : jumpIf cc disp s = .next t) : Updates es s t := by
  simp only [jumpIf, andThen_eq_next] at h
  obtain ⟨⟨loc, s1⟩, hres, d, -, hnext⟩ := h
  have hmoved : Updates es s (postIncrement s1 disp s1.ws.bytes) := (resolve_updates hres).postIncrement _ _
  refine .of_next hnext ?_
  split
  · exact hmoved.setPc _
  · exact hmoved

theorem load_updates {n : Nat} {ra : Reg} {b : Operand} (h : load n ra b s = .next t) : Updates es s t := by
  obtain ⟨-, h⟩ := unlessRefused_eq_next h
  simp only [andThen_eq_next] at h
  obtain ⟨⟨loc, s1⟩, hres, datum, -, hnext⟩ := h
  have h1 : Updates es s s1 := resolve_updates hres
  exact .of_next hnext (((h1.setReg ra _).postIncrement b n).setSR _)

theorem store_updates {n : Nat} {ra : Reg} {b : Operand} (hstore : .store ∈ es) (h : store n ra b s = .next t) :
    Updates es s t := by
  obtain ⟨-, h⟩ := unlessRefused_eq_next h
  simp only [andThen_eq_next] at h
  obtain ⟨⟨loc, s1⟩, hres, s2, hwrite, hnext⟩ := h
  have h1 : Updates es s s1 := resolve_updates hres
  exact .of_next hnext (((h1.trans (writeOperand_updates hstore hwrite)).postIncrement b n).setSR _)

theorem storeOperand_updates {op : Operand} {v : State → Word} (hstore : .store ∈ es)
    (h : storeOperand op v s = .next t) : Updates es s t := by
  simp only [storeOperand, andThen_eq_next] at h
  obtain ⟨⟨loc, s1⟩, hres, s2, hwrite, hnext⟩ := h
  have h1 : Updates es s s1 := resolve_updates hres
  exact .of_next hnext ((h1.trans (writeOperand_updates hstore hwrite)).postIncrement op _)

theorem execMsr_updates {a : Operand} (hstore : .store ∈ es) (h : execMsr a s = .next t) : Updates es s t :=
  storeOperand_updates hstore h

theorem execMpc_updates {a : Operand} (hstore : .store ∈ es) (h : execMpc a s = .next t) : Updates es s t :=
  storeOperand_updates hstore h

theorem execJea_updates {a : Operand} (h : execJea a s = .next t) : Updates es s t := by
  simp only [execJea, andThen_eq_next] at h
  obtain ⟨⟨loc, s1⟩, hres, ea, -, hnext⟩ := h
  have h1 : Updates es s s1 := resolve_updates hres
  exact .of_next hnext ((h1.setPc _).postIncrement a _)

theorem execJsr_updates {a : Operand} (hstore : .store ∈ es) (h : execJsr a s = .next t) : Updates es s t := by
  obtain ⟨-, h⟩ := unlessRefused_eq_next h
  simp only [andThen_eq_next] at h
  obtain ⟨⟨loc, s1⟩, hres, target, -, s2, hpush, hnext⟩ := h
  have h1 : Updates es s s1 := resolve_updates hres
  exact .of_next hnext (((h1.trans (push_updates hstore hpush)).setPc _).postIncrement a _)

theorem execTrp_updates {a : Operand} (hstore : .store ∈ es) (h : execTrp a s = .next t) : Updates es s t := by
  obtain ⟨-, h⟩ := unlessRefused_eq_next h
  simp only [andThen_eq_next] at h
  obtain ⟨⟨loc, s1⟩, hres, n, -, henter⟩ := h
  have h1 : Updates es s s1 := resolve_updates hres
  exact (h1.postIncrement a _).trans (enter_updates hstore henter)

theorem execTst_updates {a : Operand} (h : execTst a s = .next t) : Updates es s t := by
  simp only [execTst, andThen_eq_next] at h
  obtain ⟨⟨loc, s1⟩, hres, v, -, hnext⟩ := h
  have h1 : Updates es s s1 := resolve_updates hres
  exact .of_next hnext ((h1.postIncrement a _).setSR _)

theorem execTsr_updates {a : Operand} (hstore : .store ∈ es) (h : execTsr a s = .next t) : Updates es s t := by
  simp only [execTsr, andThen_eq_next] at h
  obtain ⟨⟨loc, s1⟩, hres, v, -, s2, hwrite, hnext⟩ := h
  have h1 : Updates es s s1 := resolve_updates hres
  exact .of_next hnext (((h1.setSR _).trans (writeOperand_updates hstore hwrite)).postIncrement a _)

theorem execRts_updates (h : execRts s = .next t) : Updates es s t := by
  simp only [execRts, andThen_eq_next] at h
  obtain ⟨⟨v, s1⟩, hpop, hnext⟩ := h
  have h1 : Updates es s s1 := pop_updates hpop
  exact .of_next hnext (h1.setPc _)

theorem execDiv_updates {sa sb d : Reg} (hdraw : .draw ∈ es) (h : execDiv sa sb d s = .next t) : Updates es s t := by
  obtain ⟨-, h⟩ := unlessRefused_eq_next h
  obtain ⟨-, h⟩ := unlessRefused_eq_next h
  obtain ⟨-, h⟩ := unlessRefused_eq_next h
  exact .of_next h ((((Updates.refl.setReg d _).setReg sa _).setSR _).drawn hdraw)

theorem execMul_updates {sa sb d : Reg} (hdraw : .draw ∈ es) (h : execMul sa sb d s = .next t) : Updates es s t :=
  .of_next h ((Updates.refl.finish d _).drawn hdraw)

theorem execInp_updates {src d : Reg} (hdraw : .draw ∈ es) (h : execInp src d s = .next t) : Updates es s t :=
  .of_next h ((Updates.refl.drawn hdraw).finishLogic d _)

theorem execOut_updates {src d : Reg} (houtput : .output ∈ es) (h : execOut src d s = .next t) : Updates es s t :=
  .of_next h ((Updates.refl.tail (.ioWrite s d src houtput)).setSR _)

/-- What an instruction that completes can do: updates with its own effects, and no others. -/
theorem exec_updates {i : Instr} (h : exec i s = .next t) : Updates (effectsOf i) s t := by
  cases i
  case adc | add | sub | adi | sbb | neg | adq => exact .of_next h (.finish .refl _ _)
  case xor | and | or | not | swb | ani | ldq => exact .of_next h (.finishLogic .refl _ _)
  case rlb | ext => exact .of_next (guarded_eq_next h).2 (.finishLogic .refl _ _)
  case rlc | rrc | srl | sra | shl => exact .of_next h (.finishShift .refl _ _ _)
  case cmp | hlt | clc | stc | dsi | eni => exact .of_next h (.setSR .refl _)
  case div => exact execDiv_updates (.head _) h
  case mul => exact execMul_updates (.head _) h
  case inp => exact execInp_updates (.head _) h
  case out => exact execOut_updates (.head _) h
  case ldB | ldW => exact load_updates h
  case ldL => exact load_updates (guarded_eq_next h).2
  case stB | stW => exact store_updates (.head _) h
  case stL => exact store_updates (.head _) (guarded_eq_next h).2
  case jea => exact execJea_updates h
  case jsr => exact execJsr_updates (.head _) h
  case trp => exact execTrp_updates (.head _) h
  case tst => exact execTst_updates h
  case tsr => exact execTsr_updates (.head _) h
  case msr => exact execMsr_updates (.head _) h
  case mpc => exact execMpc_updates (.head _) h
  case nop => exact .of_next h .refl
  case rts => exact execRts_updates h
  case rti => exact returnFromException_updates h
  case jmp | jeq | jne | jge | jle | jgt | jlw | jae | jbe | jab | jbl | jvs | jvc => exact jumpIf_updates h
  case bmp | beq | bne | bge | ble | bgt | blw | bae | bbe | bab | bbl | bvs | bvc => exact branchIf_updates h

/-! ## What updates leave alone -/

namespace Updates

theorem sameLines (h : Updates es s t) : SameLines s t := by
  refine h.keeps (P := SameLines s) (fun u v huv hu => ?_) ⟨rfl, rfl, rfl⟩
  cases huv <;> exact hu

theorem mem_eq (h : Updates es s t) (hstore : .store ∉ es) : t.mem = s.mem := by
  refine h.keeps (P := fun u => u.mem = s.mem) (fun u v huv hu => ?_) rfl
  cases huv
  case stored hmem _ => exact absurd hmem hstore
  all_goals exact hu

theorem outputs_eq (h : Updates es s t) (houtput : .output ∉ es) : t.outputs = s.outputs := by
  refine h.keeps (P := fun u => u.outputs = s.outputs) (fun u v huv hu => ?_) rfl
  cases huv
  case ioWrite hout => exact absurd hout houtput
  all_goals exact hu

theorem draws_eq (h : Updates es s t) (hdraw : .draw ∉ es) : t.draws = s.draws := by
  refine h.keeps (P := fun u => u.draws = s.draws) (fun u v huv hu => ?_) rfl
  cases huv
  case drawn hd => exact absurd hd hdraw
  all_goals exact hu

end Updates

end

/-- Settles O27: an instruction outside the list has no store among its effects. -/
theorem memoryWrittenOnlyByStoresAndPushes : Obligations.MemoryWrittenOnlyByStoresAndPushes := by
  intro i s t h hst hstack
  refine (exec_updates h).mem_eq fun hstore => ?_
  cases i
  case stB ra b => exact (hst ra b).1 rfl
  case stW ra b => exact (hst ra b).2.1 rfl
  case stL ra b => exact (hst ra b).2.2 rfl
  case jsr a => exact (hstack a).1 rfl
  case trp a => exact (hstack a).2.1 rfl
  case tsr a => exact (hstack a).2.2.1 rfl
  case msr a => exact (hstack a).2.2.2.1 rfl
  case mpc a => exact (hstack a).2.2.2.2 rfl
  all_goals simp [effectsOf] at hstore

theorem output_mem_effectsOf {i : Instr} (h : .output ∈ effectsOf i) : ∃ a b, i = .out a b := by
  cases i
  case out a b => exact ⟨a, b, rfl⟩
  all_goals simp [effectsOf] at h

theorem draw_mem_effectsOf {i : Instr} (h : .draw ∈ effectsOf i) :
    (∃ a b, i = .inp a b) ∨ ∃ a b d, i = .mul a b d ∨ i = .div a b d := by
  cases i
  case inp a b => exact .inl ⟨a, b, rfl⟩
  case mul a b d => exact .inr ⟨a, b, d, .inl rfl⟩
  case div a b d => exact .inr ⟨a, b, d, .inr rfl⟩
  all_goals simp [effectsOf] at h

/-- Settles O28: updates touch no line, and outputs and draws are effects of the named instructions only. -/
theorem instructionsLeaveLinesAndPortsAlone : Obligations.InstructionsLeaveLinesAndPortsAlone := by
  intro i s t h
  have hu := exec_updates h
  refine ⟨hu.sameLines, fun hout => hu.outputs_eq fun houtput => ?_, fun hinp harith => hu.draws_eq fun hdraw => ?_⟩
  · obtain ⟨a, b, rfl⟩ := output_mem_effectsOf houtput
    exact hout a b rfl
  · obtain ⟨a, b, rfl⟩ | ⟨a, b, d, rfl | rfl⟩ := draw_mem_effectsOf hdraw
    · exact hinp a b rfl
    · exact (harith a b d).1 rfl
    · exact (harith a b d).2 rfl

end Sys2Proof.Machine
end

section
/-! The invariant of the machine at reset and across every step (O21, O22), and the flags that O26 keeps. -/

namespace Sys2Proof.Machine

/-! ## N bits -/

theorem narrow_lt_two_pow (ws : WordSize) (k : Nat) : (ws.narrow k).toNat < 2 ^ ws.bits := by
  rw [← ws.modulus_eq]
  exact ws.narrow_lt k

theorem State.reg_lt_two_pow (s : State) (r : Reg) : (s.reg r).toNat < 2 ^ s.ws.bits :=
  narrow_lt_two_pow s.ws _

theorem startAddress_lt (ws : WordSize) : (startAddress ws).toNat < 2 ^ ws.bits := by
  cases ws
  · decide
  · exact Config.start32.isLt

/-! ## The invariant after each update -/

namespace State.Inv
variable {s : State}

/-- The content of every register has N bits after a write to one of them. -/
theorem setReg (h : s.Inv) (r : Reg) (v : Word) : (s.setReg r v).Inv := by
  refine ⟨fun q => ?_, h.pc, h.memForm, h.memRange, h.pendingOrder, h.pendingLines, h.outputs⟩
  change ((s.regs.set r.val (s.ws.narrow v.toNat) r.isLt)[q.val]).toNat < 2 ^ s.ws.bits
  rw [Vector.getElem_set]
  split
  · exact narrow_lt_two_pow s.ws _
  · exact h.regs q

theorem setPc (h : s.Inv) (v : Nat) : (s.setPc v).Inv :=
  ⟨h.regs, narrow_lt_two_pow s.ws v, h.memForm, h.memRange, h.pendingOrder, h.pendingLines, h.outputs⟩

theorem setSR (h : s.Inv) (sr : SR) : (s.setSR sr).Inv :=
  ⟨h.regs, h.pc, h.memForm, h.memRange, h.pendingOrder, h.pendingLines, h.outputs⟩

theorem drawn (h : s.Inv) : s.drawn.Inv :=
  ⟨h.regs, h.pc, h.memForm, h.memRange, h.pendingOrder, h.pendingLines, h.outputs⟩

/-- A store lists no address of more than N bits, since addresses wrap modulo 2^N (R58). -/
theorem stored (h : s.Inv) (a v : Word) (n : Nat) : (s.stored a n v).Inv := by
  refine ⟨h.regs, h.pc, s.wf_stored a v n h.memForm, fun c hc => ?_, h.pendingOrder, h.pendingLines, h.outputs⟩
  obtain hold | ⟨k, -, haddr⟩ := Memory.mem_writeBig _ _ _ _ _ c hc
  · exact h.memRange c hold
  · rw [haddr, State.stored_ws, ← s.ws.modulus_eq]
    exact Nat.mod_lt _ s.ws.modulus_pos

/-- What a port is handed, and the port's number, are contents of registers (R150). -/
theorem ioWrite (h : s.Inv) (port datum : Reg) : (Machine.ioWrite s (s.reg port) (s.reg datum)).Inv :=
  ⟨h.regs, h.pc, h.memForm, h.memRange, h.pendingOrder, h.pendingLines,
    List.forall_mem_cons.mpr ⟨⟨s.reg_lt_two_pow port, s.reg_lt_two_pow datum⟩, h.outputs⟩⟩

/-- Acknowledging a line takes it off the list and leaves the others in order (R305). -/
theorem acknowledge (h : s.Inv) (i : Nat) (sr : SR) : ({ s with pending := s.pending.erase i, sr := sr } : State).Inv :=
  ⟨h.regs, h.pc, h.memForm, h.memRange, h.pendingOrder.sublist List.erase_sublist,
    fun j hj => h.pendingLines j (List.mem_of_mem_erase hj), h.outputs⟩

theorem update {es : List Effect} {t : State} (h : s.Inv) (hu : Update es s t) : t.Inv := by
  cases hu with
  | setReg r v => exact h.setReg r v
  | setPc v => exact h.setPc v
  | setSR sr => exact h.setSR sr
  | stored a v n => exact h.stored a v n
  | ioWrite port datum => exact h.ioWrite port datum
  | drawn => exact h.drawn

theorem updates {es : List Effect} {t : State} (h : s.Inv) (hu : Updates es s t) : t.Inv :=
  hu.keeps (fun _ _ hlast hs => hs.update hlast) h

end State.Inv

/-! ## What a step can do -/

/-- A fetch that answers has moved PC and nothing else (R96). -/
theorem fetch_updates {s t : State} {i : Instr} {es : List Effect} (h : fetch s = .next (i, t)) : Updates es s t := by
  unfold fetch at h
  split at h
  · cases h
  · obtain ⟨w, -, h⟩ := (andThen_eq_next _ _ _).mp h
    dsimp only at h
    split at h
    · cases h
    · have hpast : Updates es s (s.setPc (s.pc.toNat + 2)) := Updates.refl.setPc _
      split at h
      · obtain ⟨ie, -, h⟩ := (andThen_eq_next _ _ _).mp h
        cases h
        exact hpast.setPc _
      · cases h
        exact hpast

/-- The four kinds of boundary (R310). -/
theorem step_cases {s t : State} (h : step s = .next t) :
    t = takeReset s ∨ (∃ i, takeInterrupt s i = .next t) ∨ t = s ∨
      ∃ i s1, fetch s = .next (i, s1) ∧ exec i s1 = .next t := by
  unfold step at h
  split at h
  · cases h
    exact .inl rfl
  · split at h
    · next i _ => exact .inr (.inl ⟨i, h⟩)
    · split at h
      · cases h
        exact .inr (.inr (.inl rfl))
      · obtain ⟨⟨i, s1⟩, hfetch, hexec⟩ := (andThen_eq_next _ _ _).mp h
        exact .inr (.inr (.inr ⟨i, s1, hfetch, hexec⟩))

/-- Settles O21: Reset, the entry of an interrupt, standing still, and a fetch with the instruction's updates. -/
theorem stepKeepsInvariant : Obligations.StepKeepsInvariant := by
  intro s t hinv h
  obtain rfl | ⟨i, henter⟩ | rfl | ⟨i, s1, hfetch, hexec⟩ := step_cases h
  · exact takeReset_inv s hinv
  · exact (hinv.acknowledge i _).updates (enter_updates (es := [.store]) (.head _) henter)
  · exact hinv
  · exact (hinv.updates (es := []) (fetch_updates hfetch)).updates (exec_updates hexec)

/-! ## Reset -/

/-- Settles O12. -/
theorem resetState : Obligations.ResetState :=
  ⟨rfl, rfl, rfl, rfl, rfl, rfl⟩

theorem resetWith_inv (p : Params) : (State.resetWith p).Inv := by
  refine ⟨fun r => ?_, startAddress_lt p.wordSize, rfl, ?_, .nil, ?_, ?_⟩
  · simp [State.resetWith]
  all_goals exact List.forall_mem_nil _

/-- Settles O22. -/
theorem resetHasInvariant : Obligations.ResetHasInvariant :=
  ⟨resetWith_inv _, resetWith_inv⟩

/-! ## Flags that do not change (R28) -/

theorem exec_jcc (d : Operand) (cc : Cond) (s : State) : exec (.jcc d cc) s = jumpIf cc d s := by
  cases cc <;> rfl

theorem exec_bcc (d : BitVec 8) (cc : Cond) (s : State) : exec (.bcc d cc) s = branchIf cc d s := by
  cases cc <;> rfl

/-- Settles O26, by the kinds of instruction it names. -/
theorem flaglessInstructionsKeepSR : Obligations.FlaglessInstructionsKeepSR := by
  intro i s t h hi
  obtain rfl | rfl | ⟨a, rfl | rfl | rfl | rfl⟩ | ⟨d, cc, rfl⟩ | ⟨d, cc, rfl⟩ := hi
  · cases h
    rfl
  · exact execRts_sr h
  · exact execJea_sr h
  · exact execJsr_sr h
  · exact execMsr_sr h
  · exact execMpc_sr h
  · exact jumpIf_sr ((exec_jcc d cc s).symm.trans h)
  · exact branchIf_sr ((exec_bcc d cc s).symm.trans h)

end Sys2Proof.Machine
end

section
/-! What a register instruction that writes a result and its flags leaves alone, and the four subtractions (O33). -/

namespace Sys2Proof.Machine

/-! ## A result and its flags written -/

section
variable (s : State)

theorem finish_reg_self (d : Reg) (out : Word × SR) : (s.finish d out).reg d = s.ws.narrow out.1.toNat :=
  s.reg_setReg_self d out.1

/-- A result written to Rd changes Rd and the arithmetic flags only. -/
theorem finish_registerFrame (d : Reg) (out : Word × SR) (h : out.2.WF = s.sr.WF ∧ out.2.IF = s.sr.IF) :
    RegisterFrame [d] s (s.finish d out) :=
  ⟨fun r hr => s.reg_setReg_ne d r _ (List.ne_of_not_mem_cons hr), fun _ _ => rfl, rfl, h, ⟨rfl, rfl, rfl⟩, rfl⟩

/-- New arithmetic flags alone change no register. -/
theorem setSR_registerFrame (sr : SR) (h : sr.WF = s.sr.WF ∧ sr.IF = s.sr.IF) : RegisterFrame [] s (s.setSR sr) :=
  ⟨fun _ _ => rfl, fun _ _ => rfl, rfl, h, ⟨rfl, rfl, rfl⟩, rfl⟩

/-- ZF and NF as `setZN` computes them from an N-bit result (R26). -/
theorem zeroNegative_setZN {t : State} {r : Word} {sr : SR} (hr : r.toNat < s.ws.modulus) (ht : t.sr = setZN s.ws sr r) :
    ZeroNegative s t r := by
  rw [ZeroNegative, ht]
  exact ⟨decide_eq_zero r, signBit_eq s.ws r hr⟩

end

/-! ## Subtraction (R27) -/

/-- The difference is the residue modulo 2^N. -/
theorem toNat_subFlags (ws : WordSize) (sr : SR) (a b : Word) (c : Bool) :
    ((subFlags ws sr a b c).1.toNat : Int) = ((a.toNat : Int) - b.toNat - c.toNat) % 2 ^ ws.bits := by
  rw [subFlags, ws.toNat_narrowInt, ws.modulus_eq, flagNat_toNat]
  norm_cast

/-- CF is the borrow. -/
theorem subFlags_CF (ws : WordSize) (sr : SR) (a b : Word) (c : Bool) :
    (subFlags ws sr a b c).2.CF = decide (a.toNat < b.toNat + c.toNat) := by
  change decide ((a.toNat : Int) - b.toNat - flagNat c < 0) = _
  rw [flagNat_toNat, decide_eq_decide]
  omega

/-- An instruction that writes the difference of two N-bit values to `dest`, with the flags of `sub_flags`, is a subtraction. -/
theorem subtracts_of_subFlags (s : State) {i : Instr} {t : State} {dest : List Reg} {a b : Word} {c : Bool}
    (ha : a.toNat < s.ws.modulus) (hb : b.toNat < s.ws.modulus) (hexec : exec i s = .next t)
    (hdest : ∀ d ∈ dest, t.reg d = (subFlags s.ws s.sr a b c).1) (hsr : t.sr = (subFlags s.ws s.sr a b c).2)
    (hframe : RegisterFrame dest s t) : Subtracts i s dest a b c := by
  refine ⟨t, (subFlags s.ws s.sr a b c).1, hexec, toNat_subFlags s.ws s.sr a b c, hdest, ?_, ?_, ?_, hframe⟩
  · exact zeroNegative_setZN s (s.ws.narrowInt_lt _) hsr
  · rw [hsr, subFlags_CF]
  · rw [hsr]
    exact overflow_sub s.ws a b c ha hb

/-- An instruction that finishes with the difference in Rd is a subtraction. -/
theorem subtracts_of_finish (s : State) {i : Instr} {d : Reg} {a b : Word} {c : Bool} (ha : a.toNat < s.ws.modulus)
    (hb : b.toNat < s.ws.modulus) (hexec : exec i s = .next (s.finish d (subFlags s.ws s.sr a b c))) :
    Subtracts i s [d] a b c := by
  refine subtracts_of_subFlags s ha hb hexec (List.forall_mem_singleton.mpr ?_) rfl
    (finish_registerFrame s d _ (subFlags_modes _ _ _ _ _))
  rw [finish_reg_self]
  exact s.ws.narrow_of_lt _ (s.ws.narrowInt_lt _)

theorem toNat_zero_lt_modulus (ws : WordSize) : (0 : Word).toNat < ws.modulus :=
  ws.modulus_pos

/-- Settles O33: three finish with a difference in Rd, and CMP keeps only its flags. -/
theorem subtractionsSetDifferenceAndFlags : Obligations.SubtractionsSetDifferenceAndFlags := by
  intro s sa sb d
  refine ⟨subtracts_of_finish s (s.reg_lt sa) (s.reg_lt sb) rfl,
    subtracts_of_finish s (s.reg_lt sa) (toNat_zero_lt_modulus s.ws) rfl,
    subtracts_of_finish s (toNat_zero_lt_modulus s.ws) (s.reg_lt sa) rfl,
    subtracts_of_subFlags s (s.reg_lt sa) (s.reg_lt sb) rfl (List.forall_mem_nil _) rfl
      (setSR_registerFrame s _ (subFlags_modes _ _ _ _ _))⟩

end Sys2Proof.Machine
end

section
/-! What uses the stack: its stops by name where a slot or a vector has no meaning as an access, and what the returns pop
(O47, O58). -/

namespace Sys2Proof.Machine

/-! ## Stops and accesses depend on the parameters and SP only -/

section
variable {s t : State} (hp : t.params = s.params)
include hp

theorem ws_congr : t.ws = s.ws :=
  congrArg Params.wordSize hp

theorem span_congr (a : Word) (n : Nat) : t.span a n = s.span a n := by
  rw [State.span, State.span, ws_congr hp]

theorem readStop_congr {α : Type} {a : Word} {n : Nat} {o : Answer α} (h : ReadStop t a n o) : ReadStop s a n o := by
  rwa [ReadStop, span_congr hp, hp] at h

theorem writeStop_congr {α : Type} {a : Word} {n : Nat} {o : Answer α} (h : WriteStop t a n o) : WriteStop s a n o := by
  rwa [WriteStop, span_congr hp, hp] at h

variable (hsp : t.reg sp = s.reg sp)
include hsp

theorem slotBelow_congr (k : Nat) : t.slotBelow k = s.slotBelow k := by
  rw [State.slotBelow, State.slotBelow, ws_congr hp, hsp]

theorem canEnter_congr (n : Nat) : canEnter t n = canEnter s n := by
  simp only [canEnter, slotBelow_congr hp hsp, ws_congr hp, canWrite_congr s t _ _ hp, canRead_congr s t _ _ hp]

theorem entryStop_congr {n : Nat} {o : Answer State} (h : EntryStop t n o) : EntryStop s n o := by
  simp only [EntryStop, slotBelow_congr hp hsp, ws_congr hp, canWrite_congr s t _ _ hp] at h
  obtain h | ⟨h1, h⟩ | ⟨h1, h2, h⟩ := h
  · exact .inl (writeStop_congr hp h)
  · exact .inr (.inl ⟨h1, writeStop_congr hp h⟩)
  · exact .inr (.inr ⟨h1, h2, readStop_congr hp h⟩)

end

/-! ## The stop of an entry (R303, R321) -/

/-- The entry of an exception stops at the first of its three accesses that has no meaning. -/
theorem enter_stop (s : State) (n : Nat) (ret : Word) (h : canEnter s n = false) : EntryStop s n (enter s n ret) := by
  rw [enter]
  cases h1 : canWrite s (s.slotBelow 1) s.ws.bytes with
  | false => exact .inl (push_stop s _ _ h1)
  | true =>
    rw [push_of_canWrite s _ h1, andThen_next]
    generalize ht : ((s.setReg sp (s.slotBelow 1)).stored (s.slotBelow 1) s.ws.bytes s.sr.image).setSR _ = t
    have hp : t.params = s.params := by rw [← ht]; rfl
    have hslot : t.slotBelow 1 = s.slotBelow 2 :=
      slotBelow_of_pushed s t hp (by rw [← ht]; exact (s.reg_setReg_self sp _).trans (s.ws.narrow_narrow _))
    have hcan : canWrite t (t.slotBelow 1) t.ws.bytes = canWrite s (s.slotBelow 2) s.ws.bytes := by
      rw [hslot, ws_congr hp, canWrite_congr s t _ _ hp]
    cases h2 : canWrite s (s.slotBelow 2) s.ws.bytes with
    | false =>
      refine .inr (.inl ⟨h1, writeStop_congr hp ?_⟩)
      rw [← hslot, ← ws_congr hp]
      exact push_stop t ret _ (hcan.trans h2)
    | true =>
      rw [push_of_canWrite t _ (hcan.trans h2), andThen_next]
      have h3 : canRead s (s.ws.narrow (4 * n)) s.ws.bytes = false := by simpa [canEnter, h1, h2] using h
      refine .inr (.inr ⟨h1, h2, readStop_congr hp ?_⟩)
      rw [← canRead_congr s t _ _ hp] at h3
      rw [← ws_congr hp] at h3 ⊢
      exact memRead_stop ((t.setReg sp (t.slotBelow 1)).stored (t.slotBelow 1) t.ws.bytes ret) _ _ _ h3

/-! ## The stops of JSR and TRP -/

theorem execJsr_stop {s s1 : State} {a : Operand} {ea : Word} (hsp : modifiedRegister a ≠ some sp)
    (hres : resolve s a s.ws.bytes = .next (.mem ea, s1)) (h : canWrite s (s.slotBelow 1) s.ws.bytes = false) :
    WriteStop s (s.slotBelow 1) s.ws.bytes (exec (.jsr a) s) := by
  have hp : s1.params = s.params := resolve_params s s1 a _ _ hres
  have hslot : s1.slotBelow 1 = s.slotBelow 1 := slotBelow_congr hp (resolve_reg s s1 a _ _ hres sp hsp) 1
  change WriteStop _ _ _ (execJsr a s)
  simp only [execJsr, if_neg hsp, hres, andThen_next, addressOf]
  have hstop := push_stop s1 s1.pc (fun s2 => .next (postIncrement (s2.setPc ea.toNat) a s2.ws.bytes))
    (by rw [hslot, ws_congr hp, canWrite_congr s s1 _ _ hp, h])
  rw [hslot, ws_congr hp] at hstop
  exact writeStop_congr hp hstop

/-- The datum of an operand of T bytes fits its container. -/
theorem toNat_datum (s : State) (loc : Resolved) : (BitVec.ofNat 32 (s.datum loc s.ws.bytes)).toNat = s.datum loc s.ws.bytes := by
  have hle : 256 ^ s.ws.bytes ≤ 2 ^ 32 := s.ws.modulus_bytes ▸ s.ws.modulus_le
  rw [BitVec.toNat_ofNat]
  refine Nat.mod_eq_of_lt ?_
  cases loc with
  | imm v => exact v.isLt
  | reg r => exact (Nat.mod_lt _ (by positivity)).trans_le hle
  | mem ea => exact (s.word_lt ea _).trans_le hle

theorem execTrp_stop {s s1 : State} {a : Operand} {loc : Resolved} (hsp : modifiedRegister a ≠ some sp)
    (hres : resolve s a s.ws.bytes = .next (loc, s1)) (hread : readable s1 loc s.ws.bytes = true)
    (h : canEnter s (s1.datum loc s.ws.bytes) = false) :
    EntryStop s (s1.datum loc s.ws.bytes) (exec (.trp a) s) := by
  have hws : s1.ws = s.ws := resolve_ws s s1 a _ _ hres
  have hn := toNat_datum s1 loc
  rw [hws] at hn
  have hp : (postIncrement s1 a s.ws.bytes).params = s.params := by
    rw [postIncrement_params, resolve_params s s1 a _ _ hres]
  have hreg : (postIncrement s1 a s.ws.bytes).reg sp = s.reg sp := by
    rw [postIncrement_reg s1 a _ sp hsp, resolve_reg s s1 a _ _ hres sp hsp]
  change EntryStop _ _ (execTrp a s)
  simp only [execTrp, if_neg hsp, hres, andThen_next, hws, readOperand_of_readable s1 loc _ hread, hn]
  exact entryStop_congr hp hreg (enter_stop _ _ _ (by rw [canEnter_congr hp hreg, h]))

/-! ## Pops -/

/-- The word at an address fits its container. -/
theorem toNat_word (s : State) (a : Word) : (BitVec.ofNat 32 (s.word a s.ws.bytes)).toNat = s.word a s.ws.bytes :=
  toNat_datum s (.mem a)

/-- SP after a pop: SP + T modulo 2^N (R23). -/
def State.slotAbove (s : State) : Word :=
  s.ws.narrow ((s.reg sp).toNat + s.ws.bytes)

/-- The state a pop leaves. -/
def State.popped (s : State) : State :=
  s.setReg sp s.slotAbove

@[simp] theorem popped_reg_sp (s : State) : s.popped.reg sp = s.slotAbove :=
  (s.reg_setReg_self sp _).trans (s.ws.narrow_narrow _)

theorem popped_sameRegs (s : State) : SameRegs [sp] s s.popped :=
  fun r hr => s.reg_setReg_ne sp r _ (List.ne_of_not_mem_cons hr)

theorem pop_eq_popped (s : State) (h : canRead s (s.reg sp) s.ws.bytes = true) :
    pop s = .next (BitVec.ofNat 32 (s.word (s.reg sp) s.ws.bytes), s.popped) :=
  pop_of_canRead s h

/-- The second of two pops takes the word above the first. -/
theorem pop_popped (s : State) (h : canRead s s.slotAbove s.ws.bytes = true) :
    pop s.popped = .next (BitVec.ofNat 32 (s.word s.slotAbove s.ws.bytes), s.popped.popped) := by
  have hpop := pop_eq_popped s.popped (by rw [popped_reg_sp]; exact h)
  rw [popped_reg_sp] at hpop
  exact hpop

/-- The second of two pops stops by name where the word above cannot be read. -/
theorem pop_popped_stop {α : Type} (s : State) (f : Word × State → Answer α)
    (h : canRead s s.slotAbove s.ws.bytes = false) :
    ReadStop s s.slotAbove s.ws.bytes (andThen (pop s.popped) f) := by
  have hstop := pop_stop s.popped f (by rw [popped_reg_sp]; exact h)
  rw [popped_reg_sp] at hstop
  exact hstop

/-- After two pops SP has moved by two words. -/
theorem toNat_slotAbove_popped (s : State) :
    s.popped.slotAbove.toNat = ((s.reg sp).toNat + 2 * s.ws.bytes) % 2 ^ s.ws.bits := by
  change (s.ws.narrow ((s.popped.reg sp).toNat + s.ws.bytes)).toNat = _
  rw [popped_reg_sp, State.slotAbove, narrow_narrow_add, s.ws.toNat_narrow, s.ws.modulus_eq]
  congr 1
  omega

/-- A word of memory loaded into PC is not cut (R253, R254). -/
theorem toNat_narrow_word (s : State) (a : Word) :
    (s.ws.narrow (BitVec.ofNat 32 (s.word a s.ws.bytes)).toNat).toNat = s.word a s.ws.bytes := by
  rw [toNat_word, s.ws.toNat_narrow, Nat.mod_eq_of_lt (s.ws.modulus_bytes ▸ s.word_lt a _)]

/-- Of a word, SR keeps bits 5 to 0. -/
theorem srNumber_ofImage_word (s : State) (a : Word) :
    srNumber (SR.ofImage (BitVec.ofNat 32 (s.word a s.ws.bytes))) = s.word a s.ws.bytes % 64 := by
  rw [← SR.toNat_image, toNat_ofImage_image, toNat_word]

/-! ## The returns -/

theorem execRts_of_canRead (s : State) (h : canRead s (s.reg sp) s.ws.bytes = true) :
    exec .rts s = .next (s.popped.setPc (BitVec.ofNat 32 (s.word (s.reg sp) s.ws.bytes)).toNat) := by
  change execRts s = _
  rw [execRts, pop_eq_popped s h, andThen_next]

theorem execRti_of_canRead (s : State) (h : canRead s (s.reg sp) s.ws.bytes = true)
    (h' : canRead s s.slotAbove s.ws.bytes = true) :
    exec .rti s = .next ((s.popped.popped.setPc (BitVec.ofNat 32 (s.word (s.reg sp) s.ws.bytes)).toNat).setSR
      (SR.ofImage (BitVec.ofNat 32 (s.word s.slotAbove s.ws.bytes)))) := by
  change returnFromException s = _
  rw [returnFromException, pop_eq_popped s h, andThen_next, pop_popped s h', andThen_next]

theorem execRti_stop (s : State) (h : canRead s (s.reg sp) s.ws.bytes = true)
    (h' : canRead s s.slotAbove s.ws.bytes = false) : ReadStop s s.slotAbove s.ws.bytes (exec .rti s) := by
  change ReadStop _ _ _ (returnFromException s)
  rw [returnFromException, pop_eq_popped s h, andThen_next]
  exact pop_popped_stop s _ h'

/-- Settles O58: RTS is one pop, RTI two. -/
theorem returnsPopTheStack : Obligations.ReturnsPopTheStack := by
  refine fun s => ⟨fun h => ?_, fun h h' => ?_⟩
  · exact ⟨_, execRts_of_canRead s h, toNat_narrow_word s _, popped_reg_sp s, rfl, popped_sameRegs s, fun _ _ => rfl,
      ⟨rfl, rfl, rfl⟩, rfl⟩
  · refine ⟨_, execRti_of_canRead s h h', toNat_narrow_word s _, ?_, srNumber_ofImage_word s _, fun r hr => ?_,
      fun _ _ => rfl, ⟨rfl, rfl, rfl⟩, rfl⟩
    · exact (congrArg BitVec.toNat (popped_reg_sp s.popped)).trans (toNat_slotAbove_popped s)
    · exact (popped_sameRegs s.popped r hr).trans (popped_sameRegs s r hr)

/-- Settles O47: each user of the stack stops at the first of its accesses that has no meaning. -/
theorem unusableStackStops : Obligations.UnusableStackStops := by
  refine fun s => ⟨fun a ea s1 => execJsr_stop, fun h => ⟨pop_stop s _ h, pop_stop s _ h⟩, execRti_stop s,
    fun a loc s1 => execTrp_stop, fun i hrst hacc h => ?_⟩
  have hstep : step s = takeInterrupt s i := by simp only [step, hrst, hacc, Bool.false_eq_true, if_false]
  rw [hstep, takeInterrupt]
  refine entryStop_congr (s := s) ?_ ?_ (enter_stop _ _ _ ?_)
  · rfl
  · rfl
  · exact h

end Sys2Proof.Machine
end

section
/-! Operands as destinations, and transfers through SP as a stack (O56, O60). -/

namespace Sys2Proof.Machine

/-! ## Data of N bits -/

theorem toNat_lowBytes (n : Nat) (v : Word) : (lowBytes n v).toNat = v.toNat % 256 ^ n := by
  rw [lowBytes, BitVec.toNat_ofNat]
  exact Nat.mod_eq_of_lt ((Nat.mod_le _ _).trans_lt v.isLt)

/-- A datum of N bits fills the whole register, whatever NARROW_EXT says (R183). -/
theorem fillRegister_of_lt (p : Params) (old v : Word) (hold : old.toNat < p.wordSize.modulus)
    (hv : v.toNat < p.wordSize.modulus) : fillRegister p p.wordSize.bytes old v = v := by
  have hnarrow := p.wordSize.narrow_of_lt v hv
  rw [fillRegister, ← p.wordSize.modulus_bytes]
  split
  · exact hnarrow
  · rw [Nat.sub_self, Nat.add_zero, hnarrow, ite_self]
  · rw [Nat.div_eq_of_lt hold, Nat.zero_mul, Nat.zero_add, hnarrow]

/-- Storing T bytes of a value in a register keeps the value modulo 2^N. -/
theorem toNat_fillRegister_lowBytes (s : State) (old v : Word) (hold : old.toNat < s.ws.modulus) :
    (fillRegister s.params s.ws.bytes old (lowBytes s.ws.bytes v)).toNat = v.toNat % 2 ^ s.ws.bits := by
  have hlow : (lowBytes s.ws.bytes v).toNat = v.toNat % s.ws.modulus := by
    rw [toNat_lowBytes, s.ws.modulus_bytes]
  have hlt : (lowBytes s.ws.bytes v).toNat < s.ws.modulus := hlow ▸ Nat.mod_lt _ s.ws.modulus_pos
  rw [← s.ws.modulus_eq, ← hlow]
  exact congrArg BitVec.toNat (fillRegister_of_lt s.params old _ hold hlt)

/-! ## The operand as a destination -/

theorem bytes_le_four (ws : WordSize) : ws.bytes ≤ 4 := by
  cases ws <;> decide

theorem bytes_le_modulus (ws : WordSize) : ws.bytes ≤ ws.modulus := by
  cases ws <;> decide

theorem not_mem_autoRegs {op : Operand} {r : Reg} (h : r ∉ autoRegs op) : modifiedRegister op ≠ some r := by
  rwa [autoRegs, Option.mem_toList] at h

/-- Only mode 001 resolves to a register, and it changes nothing (R92). -/
theorem resolve_eq_reg {s s1 : State} {op : Operand} {n : Nat} {r : Reg} (h : resolve s op n = .next (.reg r, s1)) :
    op = .reg r ∧ s1 = s := by
  cases op <;> simp only [resolve, andThen_eq_next] at h
  case reg q =>
    cases h
    exact ⟨rfl, rfl⟩
  case preIndexed =>
    obtain ⟨ea, -, e⟩ := h
    cases e
  all_goals cases h

theorem postIncrement_word (s : State) (op : Operand) (m : Nat) (a : Word) (n : Nat) :
    (postIncrement s op m).word a n = s.word a n := by
  cases op <;> rfl

/-- The operand resolved to `loc` has taken the number `v`: in memory, or in a register; no other byte changed, and no other
register but the one the mode moves. -/
def DestinationTook (s t : State) (op : Operand) (loc : Resolved) (v : Nat) : Prop :=
  (∀ ea, loc = .mem ea → t.word ea s.ws.bytes = v ∧ SameRegs (autoRegs op) s t) ∧
  (∀ r, loc = .reg r → (t.reg r).toNat = v ∧ SameRegs [r] s t) ∧
  SameBytes (s.locSpan loc s.ws.bytes) s t ∧ AutoMoved op s.ws.bytes s t ∧ t.pc = s.pc

theorem destinationTook_mem {s s1 : State} {op : Operand} {ea : Word} (v : Word) (hwf : s.mem.wf = true)
    (hres : resolve s op s.ws.bytes = .next (.mem ea, s1)) :
    DestinationTook s (postIncrement (s1.stored ea s.ws.bytes v) op s.ws.bytes) op (.mem ea) (v.toNat % 2 ^ s.ws.bits) := by
  have hp : s1.params = s.params := resolve_params s s1 op _ _ hres
  have hmem : s1.mem = s.mem := resolve_mem s s1 op _ _ hres
  refine ⟨fun ea' he => ?_, fun r he => (nomatch he), fun x hx => ?_, ?_, ?_⟩
  · cases he
    refine ⟨?_, fun r hr => ?_⟩
    · rw [postIncrement_word, s1.word_stored ea v _ (hmem ▸ hwf) (bytes_le_four _), ← s.ws.modulus_bytes, s.ws.modulus_eq]
    · have hmod := not_mem_autoRegs hr
      rw [postIncrement_reg _ _ _ _ hmod, State.stored_reg, resolve_reg s s1 op _ _ hres r hmod]
  · have hx' : x ∉ s1.span ea s.ws.bytes := by rwa [span_congr hp]
    rw [postIncrement_byteAt, s1.byteAt_stored ea v _ x hx', State.byteAt, hmem, State.byteAt]
  · exact auto_moved s s1 _ op _ _ hres (ws_congr hp) (bytes_le_modulus _) fun _ _ => rfl
  · rw [postIncrement_pc, State.stored_pc, resolve_pc s s1 op _ _ hres]

theorem destinationTook_reg (s : State) (r : Reg) (v : Word) :
    DestinationTook s (s.setReg r (fillRegister s.params s.ws.bytes (s.reg r) (lowBytes s.ws.bytes v))) (.reg r) (.reg r)
      (v.toNat % 2 ^ s.ws.bits) := by
  refine ⟨fun ea he => (nomatch he), fun q he => ?_, fun _ _ => rfl, trivial, rfl⟩
  cases he
  refine ⟨?_, fun q hq => s.reg_setReg_ne r q _ (List.ne_of_not_mem_cons hq)⟩
  rw [s.reg_setReg_self, s.ws.toNat_narrow, toNat_fillRegister_lowBytes s _ _ (s.reg_lt r), s.ws.modulus_eq, Nat.mod_mod]

/-- Storing to an operand that can be written completes, and the operand takes the value modulo 2^N (R230). -/
theorem storeOperand_of_writable {s s1 : State} {op : Operand} {loc : Resolved} (v : State → Word) (hwf : s.mem.wf = true)
    (hres : resolve s op s.ws.bytes = .next (loc, s1)) (hw : writableLoc s1 loc s.ws.bytes = true) :
    ∃ t, storeOperand op v s = .next t ∧ DestinationTook s t op loc ((v s1).toNat % 2 ^ s.ws.bits) := by
  have hws : s1.ws = s.ws := resolve_ws s s1 op _ loc hres
  cases loc with
  | imm ie => cases hw
  | reg r =>
    obtain ⟨rfl, rfl⟩ := resolve_eq_reg hres
    exact ⟨_, rfl, destinationTook_reg s1 r _⟩
  | mem ea =>
    refine ⟨_, ?_, destinationTook_mem (v s1) hwf hres⟩
    simp only [storeOperand, hres, andThen_next, writeOperand, hws, memWrite_of_canWrite s1 ea _ _ hw, State.stored_ws]

theorem sixtyFour_le_two_pow (ws : WordSize) : 64 ≤ 2 ^ ws.bits := by
  cases ws <;> decide

/-- Settles O56: both are `storeOperand`, of the image of SR and of PC, which resolution does not change. -/
theorem msrAndMpcStoreSrAndPc : Obligations.MsrAndMpcStoreSrAndPc := by
  intro s s1 a loc i v hi hwf hres hw
  obtain ⟨value, hexec, rfl⟩ : ∃ value : State → Word,
      exec i s = storeOperand a value s ∧ v = (value s1).toNat % 2 ^ s.ws.bits := by
    simp only [List.mem_cons, Prod.mk.injEq, List.not_mem_nil, or_false] at hi
    obtain ⟨rfl, rfl⟩ | ⟨rfl, rfl⟩ := hi
    · have hfits := (srNumber_lt s.sr).trans_le (sixtyFour_le_two_pow s.ws)
      exact ⟨fun u => u.sr.image, rfl, by simp only [resolve_sr s s1 a _ loc hres, SR.toNat_image, Nat.mod_eq_of_lt hfits]⟩
    · exact ⟨fun u => u.pc, rfl, by simp only [resolve_pc s s1 a _ loc hres]⟩
  obtain ⟨t, hstore, hmem, hreg, hbytes, hauto, hpc⟩ := storeOperand_of_writable value hwf hres hw
  have hu : Updates [.store] s t := storeOperand_updates (.head _) hstore
  exact ⟨t, hexec.trans hstore, storeOperand_sr hstore, hmem, hreg, hbytes, hauto, hpc, hu.sameLines,
    hu.outputs_eq (by simp)⟩

/-! ## Transfers through a register that the mode moves (R92, R184) -/

/-- ST through -(Rb), where the bytes below Rb can be written. -/
theorem store_preDec (s : State) (n : Nat) (ra rb : Reg) (hne : ra ≠ rb) (h : canWrite s (s.decremented rb n) n = true) :
    store n ra (.preDec rb) s =
      .next (((s.setReg rb (s.decremented rb n)).stored (s.decremented rb n) n (lowBytes n (s.reg ra))).setSR
        (logicFlags s.ws s.sr (lowBytes n (s.reg ra)))) := by
  have hauto : ¬modifiedRegister (.preDec rb) = some ra := fun e => hne (Option.some.inj e).symm
  have hwrite := memWrite_of_canWrite (s.setReg rb (s.decremented rb n)) _ (lowBytes n (s.reg ra)) n h
  simp only [store, if_neg hauto, resolve, andThen_next, writeOperand, s.reg_setReg_ne rb ra _ hne, hwrite]
  rfl

/-- LD through (Rb)+, where the bytes at Rb can be read: Ra is filled, and Rb moves up. -/
theorem load_postInc (s : State) (n : Nat) (ra rb : Reg) (hne : ra ≠ rb) (h : canRead s (s.reg rb) n = true) :
    ∃ sr, load n ra (.postInc rb) s =
      .next (((s.setReg ra (fillRegister s.params n (s.reg ra) (BitVec.ofNat 32 (s.word (s.reg rb) n)))).setReg rb
        (s.ws.narrow ((s.reg rb).toNat + n))).setSR sr) := by
  have hauto : ¬modifiedRegister (.postInc rb) = some ra := fun e => hne (Option.some.inj e).symm
  simp only [load, if_neg hauto, resolve, andThen_next, readOperand, memRead_of_canRead s _ n h, postIncrement,
    s.reg_setReg_ne ra rb _ hne.symm]
  exact ⟨_, rfl⟩

/-- Moving a register down by a size and then up again gives its content back. -/
theorem narrow_decremented_add (s : State) (r : Reg) (n : Nat) (hn : n ≤ s.ws.modulus) :
    s.ws.narrow ((s.decremented r n).toNat + n) = s.reg r := by
  rw [State.decremented, narrow_narrow_add, Nat.add_assoc, Nat.sub_add_cancel hn, ← s.ws.narrow_mod, Nat.add_mod_right,
    s.ws.narrow_mod, s.narrow_reg]

theorem lowBytes_reg (s : State) (r : Reg) : lowBytes s.ws.bytes (s.reg r) = s.reg r := by
  apply BitVec.eq_of_toNat_eq
  rw [toNat_lowBytes, ← s.ws.modulus_bytes, Nat.mod_eq_of_lt (s.reg_lt r)]

/-- A push by ST of T bytes: SP moves down, and the word it then points to is the value of Ra. -/
theorem store_preDec_pushes (s : State) (ra : Reg) (hwf : s.mem.wf = true) (hra : ra ≠ sp)
    (h : canWrite s (s.decremented sp s.ws.bytes) s.ws.bytes = true) :
    ∃ t, store s.ws.bytes ra (.preDec sp) s = .next t ∧ t.params = s.params ∧ t.reg sp = s.decremented sp s.ws.bytes ∧
      BitVec.ofNat 32 (t.word (s.decremented sp s.ws.bytes) s.ws.bytes) = s.reg ra ∧ SameRegs [sp] s t := by
  refine ⟨_, store_preDec s s.ws.bytes ra sp hra h, rfl, ?_, ?_, fun r hr => ?_⟩
  · exact (s.reg_setReg_self sp _).trans (s.ws.narrow_narrow _)
  · have hword := State.word_stored (s.setReg sp (s.decremented sp s.ws.bytes)) (s.decremented sp s.ws.bytes)
      (lowBytes s.ws.bytes (s.reg ra)) s.ws.bytes hwf (bytes_le_four _)
    rw [lowBytes_reg, ← s.ws.modulus_bytes, Nat.mod_eq_of_lt (s.reg_lt ra)] at hword
    rw [lowBytes_reg]
    exact (congrArg (BitVec.ofNat 32) hword).trans (by simp)
  · exact s.reg_setReg_ne sp r _ (List.ne_of_not_mem_cons hr)

/-- A pop by LD of T bytes: Rb takes the word at SP, and SP moves up. -/
theorem load_postInc_pops (s : State) (rb : Reg) (v : Word) (hrb : rb ≠ sp) (h : canRead s (s.reg sp) s.ws.bytes = true)
    (hv : v.toNat < s.ws.modulus) (hword : BitVec.ofNat 32 (s.word (s.reg sp) s.ws.bytes) = v) :
    ∃ u, load s.ws.bytes rb (.postInc sp) s = .next u ∧ u.reg rb = v ∧
      u.reg sp = s.ws.narrow ((s.reg sp).toNat + s.ws.bytes) ∧ SameRegs [rb, sp] s u := by
  have hfill : fillRegister s.params s.ws.bytes (s.reg rb) v = v := fillRegister_of_lt s.params _ v (s.reg_lt rb) hv
  obtain ⟨sr, hload⟩ := load_postInc s s.ws.bytes rb sp hrb h
  rw [hword, hfill] at hload
  refine ⟨_, hload, ?_, ?_, fun r hr => ?_⟩ <;> rw [State.setSR_reg]
  · rw [State.reg_setReg_ne _ sp rb _ hrb, State.reg_setReg_self, s.ws.narrow_of_lt v hv]
  · rw [State.reg_setReg_self, State.setReg_ws, s.ws.narrow_narrow]
  · obtain ⟨hr1, hr2⟩ := List.ne_and_not_mem_of_not_mem_cons hr
    rw [State.reg_setReg_ne _ sp r _ (List.ne_of_not_mem_cons hr2), s.reg_setReg_ne rb r _ hr1]

/-- A push by ST and a pop by LD, both of T bytes, move the value of Ra to Rb and give SP back. -/
theorem store_preDec_load_postInc (s : State) (ra rb : Reg) (hwf : s.mem.wf = true) (hra : ra ≠ sp) (hrb : rb ≠ sp)
    (h : canWrite s (s.decremented sp s.ws.bytes) s.ws.bytes = true) :
    ∃ t u, store s.ws.bytes ra (.preDec sp) s = .next t ∧ load s.ws.bytes rb (.postInc sp) t = .next u ∧
      u.reg rb = s.reg ra ∧ u.reg sp = s.reg sp ∧ SameRegs [rb] s u := by
  obtain ⟨t, hstore, hp, hsp, hword, hothers⟩ := store_preDec_pushes s ra hwf hra h
  have hws : t.ws = s.ws := ws_congr hp
  have hread : canRead t (t.reg sp) t.ws.bytes = true := by
    rw [hsp, hws, canRead_congr s t _ _ hp]
    exact canRead_of_canWrite s _ _ h
  obtain ⟨u, hload, hrbv, hspu, hothers'⟩ :=
    load_postInc_pops t rb (s.reg ra) hrb hread (hws ▸ s.reg_lt ra) (by rw [hsp, hws, hword])
  have hback : u.reg sp = s.reg sp := by
    rw [hspu, hsp, hws, narrow_decremented_add s sp _ (bytes_le_modulus _)]
  refine ⟨t, u, hstore, hws ▸ hload, hrbv, hback, fun r hr => ?_⟩
  by_cases hr' : r = sp
  · rw [hr', hback]
  · have hrb' : r ≠ rb := List.ne_of_not_mem_cons hr
    exact (hothers' r (by simp [hrb', hr'])).trans (hothers r (by simpa using hr'))

/-- Settles O60: at N = 16 a transfer of type W has T bytes. -/
theorem pushThenPopMovesTheValue : Obligations.PushThenPopMovesTheValue := by
  intro s ra rb hws hwf hra hrb hcan
  have hT : s.ws.bytes = 2 := by rw [hws]; rfl
  have hslot : s.slotBelow 1 = s.decremented sp s.ws.bytes := by
    rw [State.slotBelow, State.decremented, s.ws.modulus_eq, Nat.one_mul]
  rw [hslot, ← hT] at hcan
  have hmoves := store_preDec_load_postInc s ra rb hwf hra hrb hcan
  rw [hT] at hmoves
  exact hmoves

end Sys2Proof.Machine
end

section
/-! Single accesses to memory: the bytes a read answers and a write stores, and their stops by name (O29, O30). -/

namespace Sys2Proof.Machine

theorem not_all_of_exists_false {f : Nat → Bool} {l : List Nat} (h : ∃ x ∈ l, f x = false) : ¬l.all f = true := by
  simpa using h

section
variable (s : State) (a v : Word) (n : Nat)

/-! ## The stops of a read and of a write (R52, R53, R55) -/

theorem memReadAligned_misaligned (align : Nat) (h : a.toNat % align ≠ 0) :
    memReadAligned align s a n = .refused .misaligned :=
  if_pos h

theorem memReadAligned_unmapped (align : Nat) (h : a.toNat % align = 0)
    (hpop : ∃ x ∈ s.span a n, populated s.params x = false) : memReadAligned align s a n = .fault .unmapped := by
  rw [memReadAligned, if_neg (not_not.mpr h), if_neg (not_all_of_exists_false hpop)]

theorem memWrite_misaligned (h : a.toNat % n ≠ 0) : memWrite s a n v = .refused .misaligned :=
  if_pos h

theorem memWrite_unmapped (h : a.toNat % n = 0) (hpop : ∃ x ∈ s.span a n, populated s.params x = false) :
    memWrite s a n v = .fault .unmapped := by
  rw [memWrite, if_neg (not_not.mpr h), if_neg (not_all_of_exists_false hpop)]

theorem memWrite_readOnly (h : a.toNat % n = 0) (hpop : ∀ x ∈ s.span a n, populated s.params x = true)
    (hro : ∃ x ∈ s.span a n, writable s.params x = false) : memWrite s a n v = .fault .readOnly := by
  rw [memWrite, if_neg (not_not.mpr h), if_pos (List.all_eq_true.mpr hpop), if_neg (not_all_of_exists_false hro)]

/-! ## The bytes of a value (R51) -/

/-- The word of a span of at most four bytes fits its container. -/
theorem toNat_ofNat_word (hn : n ≤ 4) : (BitVec.ofNat 32 (s.word a n)).toNat = s.word a n := by
  have hle : 256 ^ n ≤ 2 ^ 32 := Nat.pow_le_pow_right (by decide) hn
  rw [BitVec.toNat_ofNat, Nat.mod_eq_of_lt ((s.word_lt a n).trans_le hle)]

/-- Each byte of the word of a span is the byte at its address, the most significant first. -/
theorem State.word_byte (k : Nat) (hk : k < n) :
    s.word a n / 256 ^ (n - 1 - k) % 256 = (s.byteAt ((a.toNat + k) % 2 ^ s.ws.bits)).toNat := by
  rw [← s.ws.modulus_eq]
  exact Memory.readBig_byte _ _ _ _ _ hk

/-- Each byte of a stored value stands at its address, the most significant first. -/
theorem State.byteAt_stored_place (k : Nat) (hwf : s.mem.wf = true) (hn : n ≤ 4) (hk : k < n) :
    ((s.stored a n v).byteAt ((a.toNat + k) % 2 ^ s.ws.bits)).toNat = v.toNat / 256 ^ (n - 1 - k) % 256 := by
  have hsize : n ≤ s.ws.modulus := hn.trans (by cases s.ws <;> decide)
  rw [← s.ws.modulus_eq]
  exact Memory.read_writeBig _ _ _ _ _ _ hwf hsize hk

end

/-- Settles O29: a read with a meaning answers the word of its span. -/
theorem memReadIsBigEndian : Obligations.MemReadIsBigEndian := by
  intro s a n hn
  have hn4 : n ≤ 4 := by omega
  refine ⟨fun h => ⟨_, memRead_of_canRead s a n h, ?_, fun k hk => ?_⟩, memReadAligned_misaligned s a n n,
    memReadAligned_unmapped s a n n⟩
  · rw [toNat_ofNat_word s a n hn4]
    exact s.word_lt a n
  · rw [toNat_ofNat_word s a n hn4]
    exact s.word_byte a n k hk

/-- Settles O30: a write with a meaning leaves the stored state. -/
theorem memWriteIsBigEndian : Obligations.MemWriteIsBigEndian := by
  intro s a n v hn hwf
  refine ⟨fun h => ⟨_, memWrite_of_canWrite s a v n h, fun k hk => ?_, s.byteAt_stored a v n, rfl⟩,
    memWrite_misaligned s a v n, memWrite_unmapped s a v n, memWrite_readOnly s a v n⟩
  exact s.byteAt_stored_place a v n k hwf (by omega) hk

end Sys2Proof.Machine
end

section
/-! What no step changes: memory that is not writable, and the parameters (O24). -/

namespace Sys2Proof.Machine

/-- The parameters are the same, and so is every byte that is not writable (R53, R61). -/
def KeepsReadOnly (s t : State) : Prop :=
  t.params = s.params ∧ ∀ a : Nat, writable s.params a = false → t.byteAt a = s.byteAt a

namespace KeepsReadOnly
variable {s t u : State}

theorem refl (s : State) : KeepsReadOnly s s :=
  ⟨rfl, fun _ _ => rfl⟩

theorem trans (h : KeepsReadOnly s t) (h' : KeepsReadOnly t u) : KeepsReadOnly s u := by
  obtain ⟨hparams, hbytes⟩ := h
  obtain ⟨hparams', hbytes'⟩ := h'
  exact ⟨hparams'.trans hparams, fun a ha => (hbytes' a (hparams ▸ ha)).trans (hbytes a ha)⟩

/-- A store has a meaning only where every byte is writable, so it changes no other (R53). -/
theorem stored (a v : Word) (n : Nat) (hw : canWrite s a n = true) : KeepsReadOnly s (s.stored a n v) :=
  ⟨rfl, fun x hx => memWrite_keeps_readOnly s _ a v n x (memWrite_of_canWrite s a v n hw) hx⟩

/-- Of the updates of an instruction only a store touches memory, and none touches the parameters. -/
theorem of_update {es : List Effect} (h : Update es s t) : KeepsReadOnly s t := by
  cases h with
  | stored a v n _ hw => exact stored a v n hw
  | setReg | setPc | setSR | ioWrite | drawn => exact ⟨rfl, fun _ _ => rfl⟩

theorem of_updates {es : List Effect} (h : Updates es s t) : KeepsReadOnly s t :=
  h.keeps (fun _ _ hlast hs => hs.trans (of_update hlast)) (refl s)

end KeepsReadOnly

/-- Acknowledging the line touches no byte; the entry that follows is two pushes. -/
theorem takeInterrupt_keepsReadOnly {s t : State} {i : Nat} (h : takeInterrupt s i = .next t) : KeepsReadOnly s t :=
  have hack : KeepsReadOnly s { s with pending := s.pending.erase i, sr := { s.sr with WF := false } } :=
    ⟨rfl, fun _ _ => rfl⟩
  hack.trans (.of_updates (enter_updates (es := [.store]) (.head _) h))

/-- Settles O24: Reset, the entry of an interrupt, standing still, and a fetch with the instruction's updates. -/
theorem readOnlyMemoryNeverChanges : Obligations.ReadOnlyMemoryNeverChanges := by
  intro s t h
  change KeepsReadOnly s t
  obtain rfl | ⟨i, henter⟩ | rfl | ⟨i, s1, hfetch, hexec⟩ := step_cases h
  · exact ⟨takeReset_params s, fun _ _ => rfl⟩
  · exact takeInterrupt_keepsReadOnly henter
  · exact .refl t
  · exact .trans (.of_updates (es := []) (fetch_updates hfetch)) (.of_updates (exec_updates hexec))

end Sys2Proof.Machine
end

section
/-! Fetches without a meaning: an odd PC, and unpopulated bytes of the instruction (O9, O11). -/

namespace Sys2Proof.Machine

theorem fetch_of_odd (s : State) (h : s.pc.toNat % 2 = 1) : fetch s = .refused .oddPc :=
  if_pos h

/-- Settles O9: the fetch looks at bit 0 of PC before it reads. -/
theorem oddPcIsRefused : Obligations.OddPcIsRefused := by
  intro s hfetches hodd
  rw [step_of_fetches s hfetches, fetch_of_odd s hodd, andThen_refused]

/-- The fetch stops where a byte of the instruction word is unpopulated (R52, R96). -/
theorem fetch_of_unpopulated_word (s : State) (heven : s.pc.toNat % 2 = 0)
    (hpop : ∃ x ∈ s.span s.pc 2, populated s.params x = false) : fetch s = .fault .unmapped := by
  have hodd : ¬s.pc.toNat % 2 = 1 := by omega
  rw [fetch, if_neg hodd, memReadAligned_unmapped s s.pc 2 2 heven hpop, andThen_fault]

/-- Where the word of an instruction with an extension word stands at PC, the fetch goes on to read the extension word. -/
theorem fetch_reads_extension (s : State) (i : Instr) (hwf : i.wf s.params = true) (heven : s.pc.toNat % 2 = 0)
    (hpop : (s.span s.pc 2).all (populated s.params) = true)
    (hbytes : s.bytesFrom s.pc 2 = bigEndian 2 (encodeWord s.params i).toNat) (hext : i.extension.isSome = true) :
    ∃ f, fetch s = andThen (memReadAligned 2 (s.setPc (s.pc.toNat + 2)) (s.ws.narrow (s.pc.toNat + 2)) s.ws.bytes) f := by
  obtain ⟨mk, hdecode, -⟩ := decodesTo_encodeWord s.params i hwf
  have hodd : ¬s.pc.toNat % 2 = 1 := by omega
  have hread := memReadAligned_of_bytesFrom s s.pc 2 _ heven hpop hbytes
  rw [fetch, if_neg hodd, hread]
  simp only [andThen_next, ofNat_fetched, hdecode, hasExtension_encodeWord s.params i hwf, hext, if_true, State.setPc_ws,
    State.setPc_pc]
  exact ⟨_, rfl⟩

/-- An instruction begins with its instruction word (R80). -/
theorem take_two_encode (p : Params) (i : Instr) : (encode p i).take 2 = bigEndian 2 (encodeWord p i).toNat :=
  List.take_left' (length_bigEndian 2 _)

/-- The span of an instruction is that of its word, and of its extension word if it has one (R80, R97). -/
theorem span_encode (s : State) (i : Instr) (a : Word) :
    s.span a (encode s.params i).length =
      s.span a 2 ++ if i.extension.isSome then s.span (s.ws.narrow (a.toNat + 2)) s.ws.bytes else [] := by
  cases he : i.extension with
  | none => simp [encode_of_none s.params i he]
  | some ie =>
    rw [encode_of_some s.params i ie he, List.length_append, length_bigEndian, length_bigEndian, span_add]
    rfl

/-- The fetch stops where the word of a well-formed instruction stands at PC and a byte of the instruction is unpopulated. -/
theorem fetch_of_unpopulated_instruction (s : State) (i : Instr) (hwf : i.wf s.params = true) (heven : s.pc.toNat % 2 = 0)
    (hbytes : s.bytesFrom s.pc 2 = (encode s.params i).take 2)
    (hpop : ∃ x ∈ s.span s.pc (encode s.params i).length, populated s.params x = false) : fetch s = .fault .unmapped := by
  by_cases hword : ∃ x ∈ s.span s.pc 2, populated s.params x = false
  · exact fetch_of_unpopulated_word s heven hword
  · have hall : (s.span s.pc 2).all (populated s.params) = true := by simpa using hword
    obtain ⟨x, hx, hxpop⟩ := hpop
    rw [span_encode, List.mem_append] at hx
    obtain hx | hx := hx
    · exact absurd ⟨x, hx, hxpop⟩ hword
    · split at hx
      · next hext =>
        obtain ⟨f, hf⟩ := fetch_reads_extension s i hwf heven hall (hbytes.trans (take_two_encode _ i)) hext
        have hevenIe := narrow_even s.ws (s.pc.toNat + 2) (by omega)
        rw [hf, memReadAligned_unmapped (s.setPc _) _ _ 2 hevenIe ⟨x, hx, hxpop⟩, andThen_fault]
      · cases hx

/-- Settles O11: in both cases the fetch stops, and the step with it. -/
theorem unpopulatedFetchStops : Obligations.UnpopulatedFetchStops := by
  intro s hfetches heven
  rw [step_of_fetches s hfetches]
  refine ⟨fun hpop => ?_, fun i hwf hbytes hpop => ?_⟩
  · rw [fetch_of_unpopulated_word s heven hpop, andThen_fault]
  · rw [fetch_of_unpopulated_instruction s i hwf heven hbytes hpop, andThen_fault]

end Sys2Proof.Machine
end

section
/-! Acts of the environment keep the invariant (O23). -/

namespace Sys2Proof.Machine

/-! ## A line put into the list of pending lines -/

theorem mem_insertLine (i j : Nat) (l : List Nat) : j ∈ insertLine i l ↔ j = i ∨ j ∈ l := by
  induction l with
  | nil => simp [insertLine]
  | cons k ks ih =>
    rw [insertLine]
    split
    · exact List.mem_cons
    · split
      · next hik => simp [hik]
      · rw [List.mem_cons, ih, List.mem_cons, or_left_comm]

/-- The list stays ascending: a line goes before the first greater one, and is not repeated. -/
theorem pairwise_insertLine (i : Nat) (l : List Nat) (h : l.Pairwise (· < ·)) : (insertLine i l).Pairwise (· < ·) := by
  induction l with
  | nil => exact List.pairwise_singleton _ i
  | cons k ks ih =>
    obtain ⟨hk, hks⟩ := List.pairwise_cons.mp h
    rw [insertLine]
    split
    · next hlt =>
      exact List.pairwise_cons.mpr ⟨List.forall_mem_cons.mpr ⟨hlt, fun j hj => hlt.trans (hk j hj)⟩, h⟩
    · split
      · exact h
      · refine List.pairwise_cons.mpr ⟨fun j hj => ?_, ih hks⟩
        obtain rfl | hj := (mem_insertLine i j ks).mp hj
        · omega
        · exact hk j hj

/-! ## The invariant after an act -/

theorem State.Inv.edge {s : State} (h : s.Inv) (i : Nat) (hi : i < s.params.nirq) :
    ({ s with pending := insertLine i s.pending } : State).Inv := by
  refine ⟨h.regs, h.pc, h.memForm, h.memRange, pairwise_insertLine i _ h.pendingOrder, fun j hj => ?_, h.outputs⟩
  obtain rfl | hj := (mem_insertLine i j s.pending).mp hj
  · exact hi
  · exact h.pendingLines j hj

theorem State.Inv.rstFalls {s : State} (h : s.Inv) : ({ s with rstLow := true } : State).Inv :=
  ⟨h.regs, h.pc, h.memForm, h.memRange, h.pendingOrder, h.pendingLines, h.outputs⟩

theorem afterEvent_inv (s : State) (e : EnvEvent) (h : s.Inv) : (s.afterEvent e).Inv := by
  obtain he | ⟨i, -, hi, he⟩ | ⟨-, he⟩ | ⟨-, -, he⟩ := s.afterEvent_cases e <;> rw [he]
  · exact h
  · exact h.edge i hi
  · exact h.rstFalls
  · exact released_inv s h

/-- An act of the environment leaves memory, the parameters and the outputs alone (R68). -/
theorem afterEvent_frame (s : State) (e : EnvEvent) :
    (s.afterEvent e).mem = s.mem ∧ (s.afterEvent e).params = s.params ∧ (s.afterEvent e).outputs = s.outputs := by
  obtain he | ⟨i, -, -, he⟩ | ⟨-, he⟩ | ⟨-, -, he⟩ := s.afterEvent_cases e <;> rw [he]
  · exact ⟨rfl, rfl, rfl⟩
  · exact ⟨rfl, rfl, rfl⟩
  · exact ⟨rfl, rfl, rfl⟩
  · exact ⟨s.released_mem, s.released_params, s.released_outputs⟩

/-- A rise of /RST while it is at 1 is no act. -/
theorem afterEvent_rise_of_high (s : State) (h : s.rstLow = false) : s.afterEvent .rstRises = s := by
  simp [State.afterEvent, h]

/-- A rise of /RST from 0 is its release. -/
theorem afterEvent_rise_of_low (s : State) (h : s.rstLow = true) : s.afterEvent .rstRises = s.released :=
  if_pos h

/-- Settles O23, act by act. -/
theorem environmentKeepsInvariant : Obligations.EnvironmentKeepsInvariant := by
  intro s e hinv
  obtain ⟨hmem, hparams, houtputs⟩ := afterEvent_frame s e
  refine ⟨afterEvent_inv s e hinv, hmem, hparams, houtputs, fun hedge => ?_, ?_, ?_, ?_⟩
  · obtain ⟨ps, he⟩ := afterEvent_of_isEdge s e hedge
    rw [he]
  · rintro rfl
    rfl
  · rintro rfl hhigh
    exact afterEvent_rise_of_high s hhigh
  · rintro rfl hlow
    rw [afterEvent_rise_of_low s hlow]
    exact ⟨rfl, s.released_draws⟩

end Sys2Proof.Machine
end

section
/-! The two instructions of the I/O space (O41). -/

namespace Sys2Proof.Machine

/-- The flags of a logic result describe it (R27). -/
theorem logicOutcome_of_logicFlags {s t : State} {r : Word} (hr : r.toNat < s.ws.modulus) (ht : t.sr = logicFlags s.ws s.sr r) :
    LogicOutcome s t r :=
  ⟨zeroNegative_setZN s hr ht, by rw [ht]; rfl, by rw [ht]; rfl⟩

/-- A logic result of N bits stands in Rd, the flags describe it, and nothing else changes. -/
theorem finishLogic_spec (s : State) (d : Reg) (r : Word) (hr : r.toNat < s.ws.modulus) :
    (s.finishLogic d r).reg d = r ∧ LogicOutcome s (s.finishLogic d r) r ∧ RegisterFrame [d] s (s.finishLogic d r) :=
  ⟨(finish_reg_self s d _).trans (s.ws.narrow_of_lt r hr), logicOutcome_of_logicFlags hr rfl,
    finish_registerFrame s d _ (logicFlags_modes _ _ _)⟩

/-- What the environment answers to the read of a port, cut to N bits (R60). -/
def State.portAnswer (s : State) (port : Word) : Word :=
  s.ws.narrow (Config.portAnswer s.draws port).toNat

theorem exec_inp (s : State) (src d : Reg) :
    exec (.inp src d) s = .next (s.drawn.finishLogic d (s.portAnswer (s.reg src))) := rfl

theorem exec_out (s : State) (src d : Reg) :
    exec (.out src d) s = .next ((ioWrite s (s.reg d) (s.reg src)).setSR (logicFlags s.ws s.sr (s.reg src))) := rfl

/-- Settles O41: INP finishes with the port's answer after one draw, OUT hands over a datum and sets its flags. -/
theorem portReadsAndWrites : Obligations.PortReadsAndWrites := by
  refine fun s src d => ⟨⟨_, exec_inp s src d, ?_⟩, ⟨_, exec_out s src d, ?_⟩⟩
  · obtain ⟨hreg, hflags, hframe⟩ := finishLogic_spec s.drawn d (s.portAnswer (s.reg src)) (s.ws.narrow_lt _)
    rw [hreg]
    exact ⟨rfl, rfl, hflags, hframe⟩
  · exact ⟨rfl, rfl, logicOutcome_of_logicFlags (s.reg_lt src) rfl, fun _ _ => rfl, fun _ _ => rfl, rfl,
      logicFlags_modes _ _ _, rfl, rfl, rfl⟩

end Sys2Proof.Machine
end

section
/-! The stops of an instruction at its operand: the pointer of mode 111, the datum it reads, the destination it writes (O46). -/

namespace Sys2Proof.Machine

/-! ## Instructions that read or write an operand, through resolution -/

/-- The meaning `o` resolves its operand `b` of `n` bytes before anything else. -/
def ResolvesFirst (s : State) (b : Operand) (n : Nat) (o : Answer State) : Prop :=
  ∃ f, o = andThen (resolve s b n) f

/-- The meaning `o` resolves its operand `b` of `n` bytes, and goes on from what that yields by a continuation with
property `P`. -/
def ResolvesThen (s : State) (b : Operand) (n : Nat) (P : Resolved → State → Answer State → Prop) (o : Answer State) : Prop :=
  ∃ f, o = andThen (resolve s b n) f ∧ ∀ loc s1, resolve s b n = .next (loc, s1) → P loc s1 (f (loc, s1))

/-- The meaning `o` first reads the resolved operand. -/
def StartsByReading (n : Nat) (loc : Resolved) (s : State) (o : Answer State) : Prop :=
  ∃ g, o = andThen (readOperand s loc n) g

/-- The meaning `o` first writes the resolved operand, or first reads it and then writes it, as TSR does. -/
def ComesToWriting (n : Nat) (loc : Resolved) (s : State) (o : Answer State) : Prop :=
  (∃ v g, o = andThen (writeOperand s loc n v) g) ∨
  (∃ g, o = andThen (readOperand s loc n) fun v => andThen (writeOperand (s.testFlags v) loc n 0) g)

section
variable {s : State} {b : Operand} {n : Nat}

theorem load_resolvesThen {ra : Reg} (h : modifiedRegister b ≠ some ra) :
    ResolvesThen s b n (StartsByReading n) (load n ra b s) := by
  rw [load, if_neg h]
  exact ⟨_, rfl, fun _ _ _ => ⟨_, rfl⟩⟩

theorem store_resolvesThen {ra : Reg} (h : modifiedRegister b ≠ some ra) :
    ResolvesThen s b n (ComesToWriting n) (store n ra b s) := by
  rw [store, if_neg h]
  exact ⟨_, rfl, fun _ _ _ => .inl ⟨_, _, rfl⟩⟩

/-- A continuation that takes T from the state resolution answers may take it from the state before. -/
theorem resolvesThen_bytes {P : Nat → Resolved → State → Answer State → Prop} {f : Resolved × State → Answer State}
    (h : ∀ loc s1, P s1.ws.bytes loc s1 (f (loc, s1))) :
    ResolvesThen s b s.ws.bytes (P s.ws.bytes) (andThen (resolve s b s.ws.bytes) f) :=
  ⟨f, rfl, fun loc s1 hres => resolve_ws s s1 b _ loc hres ▸ h loc s1⟩

theorem jumpIf_resolvesThen (cc : Cond) : ResolvesThen s b s.ws.bytes (StartsByReading s.ws.bytes) (jumpIf cc b s) :=
  resolvesThen_bytes fun _ _ => ⟨_, rfl⟩

theorem execTrp_resolvesThen (h : modifiedRegister b ≠ some sp) :
    ResolvesThen s b s.ws.bytes (StartsByReading s.ws.bytes) (execTrp b s) := by
  rw [execTrp, if_neg h]
  exact resolvesThen_bytes fun _ _ => ⟨_, rfl⟩

theorem execTst_resolvesThen : ResolvesThen s b s.ws.bytes (StartsByReading s.ws.bytes) (execTst b s) :=
  resolvesThen_bytes fun _ _ => ⟨_, rfl⟩

theorem execTsr_reads : ResolvesThen s b s.ws.bytes (StartsByReading s.ws.bytes) (execTsr b s) :=
  resolvesThen_bytes fun _ _ => ⟨_, rfl⟩

theorem execTsr_writes : ResolvesThen s b s.ws.bytes (ComesToWriting s.ws.bytes) (execTsr b s) :=
  resolvesThen_bytes fun _ _ => .inr ⟨_, rfl⟩

theorem storeOperand_resolvesThen (v : State → Word) :
    ResolvesThen s b s.ws.bytes (ComesToWriting s.ws.bytes) (storeOperand b v s) :=
  resolvesThen_bytes fun _ _ => .inl ⟨_, _, rfl⟩

theorem execMsr_resolvesThen : ResolvesThen s b s.ws.bytes (ComesToWriting s.ws.bytes) (execMsr b s) :=
  storeOperand_resolvesThen _

theorem execMpc_resolvesThen : ResolvesThen s b s.ws.bytes (ComesToWriting s.ws.bytes) (execMpc b s) :=
  storeOperand_resolvesThen _

theorem execJea_resolvesFirst : ResolvesFirst s b s.ws.bytes (execJea b s) :=
  ⟨_, rfl⟩

theorem execJsr_resolvesFirst (h : modifiedRegister b ≠ some sp) : ResolvesFirst s b s.ws.bytes (execJsr b s) := by
  rw [execJsr, if_neg h]
  exact ⟨_, rfl⟩

end

/-! ## The instructions, by the tables they stand in -/

/-- On a machine that has it, an entry of the table of loads is a load of its size (R173, R185 to R187). -/
theorem exec_of_mem_loadTable {s : State} {ra : Reg} {b : Operand} {n : Nat} {i : Instr} (h : (n, i) ∈ loadTable ra b)
    (hlong : n = 4 → s.ws = .n32) : exec i s = load n ra b s := by
  simp only [loadTable, List.mem_cons, Prod.mk.injEq, List.not_mem_nil, or_false] at h
  obtain ⟨rfl, rfl⟩ | ⟨rfl, rfl⟩ | ⟨rfl, rfl⟩ := h
  · rfl
  · rfl
  · exact if_pos (hlong rfl)

/-- On a machine that has it, an entry of the table of stores is a store of its size (R173, R188 to R190). -/
theorem exec_of_mem_storeTable {s : State} {ra : Reg} {b : Operand} {n : Nat} {i : Instr} (h : (n, i) ∈ storeTable ra b)
    (hlong : n = 4 → s.ws = .n32) : exec i s = store n ra b s := by
  simp only [storeTable, List.mem_cons, Prod.mk.injEq, List.not_mem_nil, or_false] at h
  obtain ⟨rfl, rfl⟩ | ⟨rfl, rfl⟩ | ⟨rfl, rfl⟩ := h
  · rfl
  · rfl
  · exact if_pos (hlong rfl)

/-- Every entry of the table of jumps is a Jcc. -/
theorem eq_jcc_of_mem_jumpTable (f : SR) (disp : Operand) : ∀ p ∈ jumpTable f disp, ∃ cc, p.1 = Instr.jcc disp cc := by
  simp only [jumpTable, List.forall_mem_cons]
  exact ⟨⟨.mp, rfl⟩, ⟨.eq, rfl⟩, ⟨.ne, rfl⟩, ⟨.ge, rfl⟩, ⟨.le, rfl⟩, ⟨.gt, rfl⟩, ⟨.lw, rfl⟩, ⟨.ae, rfl⟩, ⟨.be, rfl⟩,
    ⟨.ab, rfl⟩, ⟨.bl, rfl⟩, ⟨.vs, rfl⟩, ⟨.vc, rfl⟩, List.forall_mem_nil _⟩

theorem ReadsOperand.resolvesThen {s : State} {b : Operand} {n : Nat} {i : Instr} (h : ReadsOperand s b n i) :
    ResolvesThen s b n (StartsByReading n) (exec i s) := by
  obtain ⟨ra, hmem, hlong, hmod⟩ | ⟨rfl, ⟨taken, hmem⟩ | ⟨rfl, hsp⟩ | rfl | rfl⟩ := h
  · rw [exec_of_mem_loadTable hmem hlong]
    exact load_resolvesThen hmod
  · obtain ⟨cc, rfl⟩ : ∃ cc, i = Instr.jcc b cc := eq_jcc_of_mem_jumpTable s.sr b _ hmem
    rw [exec_jcc]
    exact jumpIf_resolvesThen cc
  · exact execTrp_resolvesThen hsp
  · exact execTst_resolvesThen
  · exact execTsr_reads

theorem WritesOperand.resolvesThen {s : State} {b : Operand} {n : Nat} {i : Instr} (h : WritesOperand s b n i) :
    ResolvesThen s b n (ComesToWriting n) (exec i s) := by
  obtain ⟨ra, hmem, hlong, hmod⟩ | ⟨rfl, rfl | rfl | rfl⟩ := h
  · rw [exec_of_mem_storeTable hmem hlong]
    exact store_resolvesThen hmod
  · exact execTsr_writes
  · exact execMsr_resolvesThen
  · exact execMpc_resolvesThen

/-! ## The stops -/

/-- A meaning that resolves an operand of mode 111 first stops, by name, where the pointer cannot be read. -/
theorem ResolvesFirst.pointer_stop {s : State} {ie : Word} {r : Reg} {n : Nat} {o : Answer State}
    (h : ResolvesFirst s (.preIndexed ie r) n o) (hptr : canRead s (s.indexAddress ie r) s.ws.bytes = false) :
    ReadStop s (s.indexAddress ie r) s.ws.bytes o := by
  obtain ⟨f, rfl⟩ := h
  exact resolve_preIndexed_stop s ie r n f hptr

section
variable {s s1 : State} {b : Operand} {n : Nat} {P : Resolved → State → Answer State → Prop} {o : Answer State}

theorem ResolvesThen.first (h : ResolvesThen s b n P o) : ResolvesFirst s b n o := by
  obtain ⟨f, ho, -⟩ := h
  exact ⟨f, ho⟩

/-- Once the operand is resolved, its continuation is the whole meaning. -/
theorem ResolvesThen.of_resolved {loc : Resolved} (h : ResolvesThen s b n P o) (hres : resolve s b n = .next (loc, s1)) :
    P loc s1 o := by
  obtain ⟨f, rfl, hf⟩ := h
  rw [hres, andThen_next]
  exact hf loc s1 hres

end

/-- What stops a read stops a write of the same bytes, by the same name. -/
theorem WriteStop.of_readStop {α : Type} {s : State} {a : Word} {n : Nat} {o : Answer α} (h : ReadStop s a n o) :
    WriteStop s a n o := by
  obtain h | ⟨haligned, hpop, ho⟩ := h
  · exact .inl h
  · exact .inr ⟨haligned, .inl ⟨hpop, ho⟩⟩

/-- A meaning that comes to writing an operand in memory that cannot be written stops by name, at its read or at its write. -/
theorem ComesToWriting.stop {s : State} {ea : Word} {n : Nat} {o : Answer State} (h : ComesToWriting n (.mem ea) s o)
    (hw : canWrite s ea n = false) : WriteStop s ea n o := by
  obtain ⟨v, g, rfl⟩ | ⟨g, rfl⟩ := h
  · exact memWrite_stop s ea v n g hw
  · cases hr : canRead s ea n with
    | false => exact .of_readStop (memRead_stop s ea n _ hr)
    | true =>
      rw [readOperand, memRead_of_canRead s ea n hr, andThen_next]
      exact memWrite_stop (s.testFlags _) ea 0 n g hw

/-- Settles O46: the instruction resolves its operand first, and then comes to the access without a meaning. -/
theorem unusableOperandStops : Obligations.UnusableOperandStops := by
  intro s b n i
  refine ⟨?_, fun loc s1 hres => ⟨fun hreads hread => ?_, ?_⟩⟩
  · rintro ie r rfl (hreads | hwrites | ⟨rfl, rfl | rfl⟩) hptr
    · exact hreads.resolvesThen.first.pointer_stop hptr
    · exact hwrites.resolvesThen.first.pointer_stop hptr
    · exact execJea_resolvesFirst.pointer_stop hptr
    · exact (execJsr_resolvesFirst (by simp [modifiedRegister])).pointer_stop hptr
  · obtain ⟨g, hexec⟩ := hreads.resolvesThen.of_resolved hres
    obtain ⟨ea, hloc, hstop⟩ := readOperand_stop s1 loc n g hread
    rw [hexec]
    exact ⟨ea, hloc, readStop_congr (resolve_params s s1 b n loc hres) hstop⟩
  · rintro ea rfl hwrites hw
    have hp : s1.params = s.params := resolve_params s s1 b n _ hres
    have hw1 : canWrite s1 ea n = false := by rw [canWrite_congr s s1 ea n hp, hw]
    exact writeStop_congr hp ((hwrites.resolvesThen.of_resolved hres).stop hw1)

end Sys2Proof.Machine
end

section
/-! Bytes and big-endian numbers, and what the decoder on bytes answers (O1, O2). -/

namespace Sys2Proof

/-! ## Numbers and their bytes (R51) -/

/-- The number whose bytes, most significant first, are those of `acc` followed by `bs`. -/
def ofBigEndian (acc : Nat) (bs : List Byte) : Nat :=
  bs.foldl (fun v b => v * 256 + b.toNat) acc

theorem ofBigEndian_concat (acc : Nat) (bs : List Byte) (b : Byte) :
    ofBigEndian acc (bs ++ [b]) = ofBigEndian acc bs * 256 + b.toNat := by
  simp [ofBigEndian]

/-- `takeBigEndian` takes exactly the bytes asked for, and reads them as one number. -/
theorem takeBigEndian_eq_some {n acc v : Nat} {bs rest : List Byte} :
    takeBigEndian n acc bs = some (v, rest) ↔ ∃ init, init.length = n ∧ bs = init ++ rest ∧ v = ofBigEndian acc init := by
  induction n generalizing acc bs with
  | zero =>
    simp only [takeBigEndian, List.length_eq_zero_iff, exists_eq_left, List.nil_append, Option.some.injEq, Prod.mk.injEq]
    exact ⟨fun ⟨hv, hrest⟩ => ⟨hrest, hv.symm⟩, fun ⟨hrest, hv⟩ => ⟨hv.symm, hrest⟩⟩
  | succ n ih =>
    cases bs with
    | nil => simp [takeBigEndian]
    | cons b bs =>
      rw [takeBigEndian, ih]
      constructor
      · rintro ⟨init, rfl, rfl, rfl⟩
        exact ⟨b :: init, rfl, rfl, rfl⟩
      · rintro ⟨init, hlen, hbs, rfl⟩
        obtain ⟨b', init, rfl⟩ := List.exists_cons_of_length_eq_add_one hlen
        obtain ⟨rfl, rfl⟩ := List.cons.inj hbs
        exact ⟨init, Nat.succ.inj hlen, rfl, rfl⟩

/-- The big-endian bytes of a number read as that number, cut to its bytes. -/
theorem ofBigEndian_bigEndian (n v : Nat) : ofBigEndian 0 (bigEndian n v) = v % 256 ^ n := by
  induction n generalizing v with
  | zero => simp [bigEndian, ofBigEndian, Nat.mod_one]
  | succ n ih =>
    rw [bigEndian, ofBigEndian_concat, ih, BitVec.toNat_ofNat, pow_succ' 256 n, Nat.mod_mul]
    omega

/-- Bytes are the big-endian bytes of the number they are read as. -/
theorem bigEndian_ofBigEndian (bs : List Byte) : bigEndian bs.length (ofBigEndian 0 bs) = bs := by
  induction bs using List.reverseRecOn with
  | nil => rfl
  | append_singleton bs b ih =>
    have hquot : (ofBigEndian 0 bs * 256 + b.toNat) / 256 = ofBigEndian 0 bs := by omega
    have hbyte : BitVec.ofNat 8 (ofBigEndian 0 bs * 256 + b.toNat) = b := by
      apply BitVec.eq_of_toNat_eq
      rw [BitVec.toNat_ofNat]
      omega
    rw [List.length_append, List.length_singleton, bigEndian, ofBigEndian_concat, hquot, ih, hbyte]

theorem ofBigEndian_lt (bs : List Byte) : ofBigEndian 0 bs < 256 ^ bs.length := by
  induction bs using List.reverseRecOn with
  | nil => simp [ofBigEndian]
  | append_singleton bs b ih =>
    rw [ofBigEndian_concat, List.length_append, List.length_singleton, pow_succ]
    omega

/-- A word is made of its two bytes (R80). -/
theorem codeOfBytes_bytes (c : Code) : codeOfBytes (BitVec.ofNat 8 (c.toNat / 256)) (BitVec.ofNat 8 c.toNat) = c := by
  apply BitVec.eq_of_toNat_eq
  simp only [codeOfBytes, BitVec.toNat_ofNat]
  omega

theorem bigEndian_two (v : Nat) (bs : List Byte) :
    bigEndian 2 v ++ bs = BitVec.ofNat 8 (v / 256) :: BitVec.ofNat 8 v :: bs := rfl

theorem bigEndian_codeOfBytes (hi lo : Byte) : bigEndian 2 (codeOfBytes hi lo).toNat = [hi, lo] := by
  have h : (codeOfBytes hi lo).toNat = ofBigEndian 0 [hi, lo] := by
    simp only [codeOfBytes, ofBigEndian, List.foldl, BitVec.toNat_ofNat]
    omega
  rw [h]
  exact bigEndian_ofBigEndian [hi, lo]

theorem WordSize.fits_narrow (ws : WordSize) (k : Nat) : ws.fits (ws.narrow k) = true :=
  decide_eq_true (ws.narrow_lt k)

theorem WordSize.fits_zero (ws : WordSize) : ws.fits 0 = true :=
  decide_eq_true ws.modulus_pos

/-! ## What the decoder answers -/

/-- The bytes begin with the instruction word `c`, and with the extension word `ie` after it where `c` is followed by one. -/
def BeginsWith (p : Params) (c : Code) (ie : Word) (bytes rest : List Byte) : Prop :=
  (hasExtension p c = false ∧ ie = 0 ∧ bytes = bigEndian 2 c.toNat ++ rest) ∨
  (hasExtension p c = true ∧ p.wordSize.fits ie = true ∧
    bytes = bigEndian 2 c.toNat ++ (bigEndian p.wordSize.bytes ie.toNat ++ rest))

theorem BeginsWith.fits {p : Params} {c : Code} {ie : Word} {bytes rest : List Byte} (h : BeginsWith p c ie bytes rest) :
    p.wordSize.fits ie = true := by
  obtain ⟨-, rfl, -⟩ | ⟨-, hfits, -⟩ := h
  · exact p.wordSize.fits_zero
  · exact hfits

/-- The extension word is read from the bytes that are its big-endian bytes (R97). -/
theorem takeBigEndian_extension {p : Params} {k : Nat} {bs rest : List Byte} :
    takeBigEndian p.wordSize.bytes 0 bs = some (k, rest) ↔
      k < p.wordSize.modulus ∧ bs = bigEndian p.wordSize.bytes k ++ rest := by
  rw [takeBigEndian_eq_some, p.wordSize.modulus_bytes]
  constructor
  · rintro ⟨init, hlen, rfl, rfl⟩
    rw [← hlen, bigEndian_ofBigEndian]
    exact ⟨ofBigEndian_lt init, rfl⟩
  · rintro ⟨hk, rfl⟩
    refine ⟨_, length_bigEndian _ _, rfl, ?_⟩
    rw [ofBigEndian_bigEndian, Nat.mod_eq_of_lt hk]

/-- Bytes that begin with a word that is not reserved decode to the instruction of that word (R96, R99). -/
theorem decodeBytes_of_beginsWith {p : Params} {c : Code} {ie : Word} {f : Word → Instr} {bytes rest : List Byte}
    (hdecode : decodeWord p c = .ok f) (h : BeginsWith p c ie bytes rest) : decodeBytes p bytes = .ok (f ie, rest) := by
  obtain ⟨hext, rfl, rfl⟩ | ⟨hext, hfits, rfl⟩ := h
  · simp only [bigEndian_two, decodeBytes, codeOfBytes_bytes, hdecode, hext, Bool.false_eq_true, if_false]
  · have hlt : ie.toNat < p.wordSize.modulus := of_decide_eq_true hfits
    have htake := takeBigEndian_extension.mpr ⟨hlt, Eq.refl (bigEndian p.wordSize.bytes ie.toNat ++ rest)⟩
    simp only [bigEndian_two, decodeBytes, codeOfBytes_bytes, hdecode, hext, if_true, htake,
      p.wordSize.narrow_of_lt ie hlt]

/-- The decoder answers nothing else. -/
theorem beginsWith_of_decodeBytes {p : Params} {i : Instr} {bytes rest : List Byte}
    (h : decodeBytes p bytes = .ok (i, rest)) :
    ∃ c f ie, decodeWord p c = .ok f ∧ BeginsWith p c ie bytes rest ∧ i = f ie := by
  match bytes with
  | [] | [_] => cases h
  | hi :: lo :: tail =>
    have hbytes : hi :: lo :: tail = bigEndian 2 (codeOfBytes hi lo).toNat ++ tail := by rw [bigEndian_codeOfBytes]; rfl
    rw [hbytes]
    simp only [decodeBytes] at h
    generalize codeOfBytes hi lo = c at h
    refine ⟨c, ?_⟩
    cases hdecode : decodeWord p c with
    | error e => simp [hdecode] at h
    | ok f =>
      simp only [hdecode] at h
      cases hext : hasExtension p c with
      | false =>
        simp only [hext, Bool.false_eq_true, if_false] at h
        cases h
        exact ⟨f, 0, rfl, .inl ⟨hext, rfl, rfl⟩, rfl⟩
      | true =>
        simp only [hext, if_true] at h
        cases htake : takeBigEndian p.wordSize.bytes 0 tail with
        | none => simp [htake] at h
        | some r =>
          obtain ⟨k, rest'⟩ := r
          simp only [htake] at h
          cases h
          obtain ⟨hk, rfl⟩ := takeBigEndian_extension.mp htake
          refine ⟨f, p.wordSize.narrow k, rfl, .inr ⟨hext, p.wordSize.fits_narrow k, ?_⟩, rfl⟩
          rw [p.wordSize.toNat_narrow, Nat.mod_eq_of_lt hk]

/-- The bytes of a well-formed instruction begin with its word, and with its extension word if it has one (R97, R98). -/
theorem beginsWith_encode (p : Params) (i : Instr) (rest : List Byte) (h : i.wf p = true) :
    BeginsWith p (encodeWord p i) (i.extension.getD 0) (encode p i ++ rest) rest := by
  have hext := hasExtension_encodeWord p i h
  cases he : i.extension with
  | none =>
    rw [he] at hext
    exact .inl ⟨hext, rfl, by rw [Machine.encode_of_none p i he]⟩
  | some ie =>
    rw [he] at hext
    exact .inr ⟨hext, i.fits_of_wf p h ie he, by rw [Machine.encode_of_some p i ie he, List.append_assoc]; rfl⟩

/-- Settles O1: the word of a well-formed instruction decodes to it, awaiting the extension word that its bytes carry. -/
theorem decodeOfEncode : Obligations.DecodeOfEncode := by
  intro p i rest hwf
  obtain ⟨f, hdecode, hf⟩ := decodesTo_encodeWord p i hwf
  rw [decodeBytes_of_beginsWith hdecode (beginsWith_encode p i rest hwf), hf]

end Sys2Proof
end

section
/-! Every word that decodes is the word of the well-formed instruction it decodes to (O2). -/

namespace Sys2Proof

/-! ## Operands -/

@[simp] theorem Operand.mode_withExtension (op : Operand) (ie : Word) : (op.withExtension ie).mode = op.mode := by
  cases op <;> rfl

@[simp] theorem Operand.code_withExtension (op : Operand) (ie : Word) : (op.withExtension ie).code = op.code := by
  cases op <;> rfl

theorem Operand.extension_withExtension {op : Operand} {ie x : Word} (h : (op.withExtension ie).extension = some x) :
    x = ie := by
  cases op <;> cases h <;> rfl

theorem Operand.wf_withExtension (p : Params) (op : Operand) (ie : Word) (h : p.wordSize.fits ie = true) :
    (op.withExtension ie).wf p = true := by
  cases op
  case imm | direct | indexed | preIndexed => exact h
  all_goals rfl

/-- What decodes as an operand is an operand of that mode and register code, awaiting its extension word (R92). -/
theorem decodeOperand_eq_ok {mode : Nat} {r : Reg} {f : Word → Operand} (hmode : mode < 8)
    (h : decodeOperand mode r = .ok f) : ∃ op : Operand, op.mode = mode ∧ op.code = r.val ∧ f = op.withExtension := by
  interval_cases mode <;> simp only [decodeOperand] at h
  · split at h <;> cases h
    next hr => exact ⟨.imm 0, rfl, by rw [hr]; rfl, rfl⟩
  · cases h; exact ⟨.reg r, rfl, rfl, rfl⟩
  · cases h; exact ⟨.ind r, rfl, rfl, rfl⟩
  · cases h; exact ⟨.postInc r, rfl, rfl, rfl⟩
  · cases h; exact ⟨.preDec r, rfl, rfl, rfl⟩
  · split at h <;> cases h
    next hr => exact ⟨.direct 0, rfl, by rw [hr]; rfl, rfl⟩
  · cases h; exact ⟨.indexed 0 r, rfl, rfl, rfl⟩
  · cases h; exact ⟨.preIndexed 0 r, rfl, rfl, rfl⟩

/-- Whatever `o` answers is an operand of this mode and register code that satisfies `P`, awaiting its extension word. -/
def AnswersOperand (mode : Nat) (r : Reg) (P : Operand → Bool) (o : Except Reserved (Word → Operand)) : Prop :=
  ∀ f, o = .ok f → ∃ op : Operand, op.mode = mode ∧ op.code = r.val ∧ P op = true ∧ f = op.withExtension

theorem decodeOperand_answers {mode : Nat} (r : Reg) (hmode : mode < 8) :
    AnswersOperand mode r (fun _ => true) (decodeOperand mode r) := by
  intro f h
  obtain ⟨op, hm, hc, hf⟩ := decodeOperand_eq_ok hmode h
  exact ⟨op, hm, hc, rfl, hf⟩

theorem needDestination_answers {mode : Nat} (r : Reg) (hmode : mode < 8) :
    AnswersOperand mode r Operand.isDestination (needDestination (decodeOperand mode r)) := by
  intro f h
  cases hop : decodeOperand mode r with
  | error e => rw [hop] at h; cases h
  | ok g =>
    obtain ⟨op, hm, hc, rfl⟩ := decodeOperand_eq_ok hmode hop
    simp only [hop, needDestination, Operand.isDestination_withExtension] at h
    split at h <;> cases h
    next hdest => exact ⟨op, hm, hc, hdest, rfl⟩

theorem needAddress_answers {mode : Nat} (r : Reg) (hmode : mode < 8) :
    AnswersOperand mode r Operand.hasAddress (needAddress (decodeOperand mode r)) := by
  intro f h
  cases hop : decodeOperand mode r with
  | error e => rw [hop] at h; cases h
  | ok g =>
    obtain ⟨op, hm, hc, rfl⟩ := decodeOperand_eq_ok hmode hop
    simp only [hop, needAddress, Operand.hasAddress_withExtension] at h
    split at h <;> cases h
    next haddr => exact ⟨op, hm, hc, haddr, rfl⟩

theorem withOperand_eq_ok {o : Except Reserved (Word → Operand)} {mk : Operand → Instr} {f : Word → Instr}
    (h : withOperand o mk = .ok f) : ∃ g, o = .ok g ∧ f = fun ie => mk (g ie) := by
  cases o with
  | error e => cases h
  | ok g => cases h; exact ⟨g, rfl, rfl⟩

/-! ## Fields -/

theorem field_lt (w hi lo : Nat) : field w hi lo < 2 ^ (hi - lo + 1) :=
  Nat.mod_lt _ (by positivity)

@[simp] theorem val_regField (w lo : Nat) : (regField w lo).val = field w (lo + 3) lo :=
  Nat.mod_eq_of_lt ((field_lt w (lo + 3) lo).trans_eq (by simp))

@[simp] theorem toNat_byteField (w lo : Nat) : (byteField w lo).toNat = field w (lo + 7) lo := by
  rw [byteField, BitVec.toNat_ofNat]
  exact Nat.mod_eq_of_lt ((field_lt w (lo + 7) lo).trans_eq (by simp))

/-! ## Conditions -/

theorem Cond.code_of_ofCode {k : Nat} {cc : Cond} (h : Cond.ofCode k = some cc) : cc.code = k := by
  unfold Cond.ofCode at h
  split at h <;> cases h <;> rfl

theorem Instr.wf_jcc (p : Params) (d : Operand) (cc : Cond) : (Instr.jcc d cc).wf p = d.wf p := by
  cases cc <;> rfl

theorem Instr.word_jcc (d : Operand) (cc : Cond) : (Instr.jcc d cc).word = word4 cc d := by
  cases cc <;> rfl

theorem Instr.extension_jcc (d : Operand) (cc : Cond) : (Instr.jcc d cc).extension = d.extension := by
  cases cc <;> rfl

theorem Instr.wf_bcc (p : Params) (d : BitVec 8) (cc : Cond) : (Instr.bcc d cc).wf p = true := by
  cases cc <;> rfl

theorem Instr.word_bcc (d : BitVec 8) (cc : Cond) : (Instr.bcc d cc).word = word8 cc d := by
  cases cc <;> rfl

theorem Instr.extension_bcc (d : BitVec 8) (cc : Cond) : (Instr.bcc d cc).extension = none := by
  cases cc <;> rfl

/-! ## The words of each group -/

/-- The instruction is well formed, `w` is its word in variant A, and `ie` its extension word if it has one. -/
structure ReadsAs (p : Params) (w : Nat) (ie : Word) (i : Instr) : Prop where
  wf : i.wf p = true
  word : i.word = w
  extension : ∀ x, i.extension = some x → x = ie

/-- Every instruction a decoded word stands for, whatever its extension word, has that word. -/
def SoundWord (p : Params) (w : Nat) (o : Except Reserved (Word → Instr)) : Prop :=
  ∀ f ie, o = .ok f → p.wordSize.fits ie = true → ReadsAs p w ie (f ie)

section
variable {p : Params} {w : Nat}

theorem SoundWord.error (e : Reserved) : SoundWord p w (.error e) :=
  fun _ _ h => nomatch h

/-- An instruction without an extension word. -/
theorem SoundWord.const {i : Instr} (hwf : i.wf p = true) (hword : i.word = w) (hext : i.extension = none) :
    SoundWord p w (.ok fun _ => i) := by
  intro f ie h _
  cases h
  exact ⟨hwf, hword, by rw [hext]; exact nofun⟩

/-- An instruction made from one operand. -/
theorem SoundWord.operand {mode : Nat} {r : Reg} {P : Operand → Bool} {o : Except Reserved (Word → Operand)}
    {mk : Operand → Instr} (ho : AnswersOperand mode r P o)
    (hwf : ∀ op : Operand, op.wf p = true → P op = true → (mk op).wf p = true)
    (hP : ∀ (op : Operand) ie, P (op.withExtension ie) = P op)
    (hword : ∀ op : Operand, op.mode = mode → op.code = r.val → (mk op).word = w)
    (hext : ∀ op, (mk op).extension = op.extension) : SoundWord p w (withOperand o mk) := by
  intro f ie h hie
  obtain ⟨g, hg, rfl⟩ := withOperand_eq_ok h
  obtain ⟨op, hm, hc, hop, rfl⟩ := ho g hg
  exact ⟨hwf _ (op.wf_withExtension p ie hie) ((hP op ie).trans hop), hword _ (by simpa using hm) (by simpa using hc),
    fun x hx => Operand.extension_withExtension ((hext _).symm.trans hx)⟩

/-- An instruction whose word ends with an extension word of its own (ANI, ADI). -/
theorem SoundWord.immediate {mk : Word → Instr} (hwf : ∀ ie, p.wordSize.fits ie = true → (mk ie).wf p = true)
    (hword : ∀ ie, (mk ie).word = w) (hext : ∀ ie, (mk ie).extension = some ie) : SoundWord p w (.ok mk) := by
  intro f ie h hie
  cases h
  refine ⟨hwf ie hie, hword ie, fun x hx => ?_⟩
  rw [hext] at hx
  exact (Option.some.inj hx).symm

/-- A word that some machines reserve: RLB and EXT, and Type L (R152, R154, R173). -/
theorem SoundWord.guarded {o : Except Reserved (Word → Instr)} {c : Prop} [Decidable c] {e : Reserved}
    (h : c → SoundWord p w o) : SoundWord p w (if c then o else .error e) := by
  split
  · next hc => exact h hc
  · exact .error _

variable (hw : w < 65536)
include hw

theorem decodeGroup1_sound (h : field w 15 15 = 1) : SoundWord p w (.ok fun _ => decodeGroup1 w) := by
  have hword : word1 (field w 14 12) (regField w 8) (regField w 4) (regField w 0) = w := by
    simp only [word1, val_regField, field] at h ⊢
    omega
  have hk := field_lt w 14 12
  rw [decodeGroup1]
  generalize field w 14 12 = k at hword hk ⊢
  interval_cases k <;> exact .const rfl hword rfl

theorem decodeGroup2_sound (h : field w 15 14 = 1) (h' : field w 13 12 = 0) : SoundWord p w (decodeGroup2 p w) := by
  have hword : word2 (field w 11 8) (regField w 4) (regField w 0) = w := by
    simp only [word2, val_regField, field] at h h' ⊢
    omega
  have hk := field_lt w 11 8
  rw [decodeGroup2]
  generalize field w 11 8 = k at hword hk ⊢
  interval_cases k
  -- RLC to SWB, then RLB, ANI, EXT, ADI and CMP
  iterate 11 exact .const rfl hword rfl
  · exact .guarded fun hc => .const hc hword rfl
  · exact .immediate (fun _ hie => hie) (fun _ => hword) fun _ => rfl
  · exact .guarded fun hc => .const hc hword rfl
  · exact .immediate (fun _ hie => hie) (fun _ => hword) fun _ => rfl
  · exact .const rfl hword rfl

theorem decodeGroup3_sound (h : field w 15 14 = 1) (h' : field w 13 12 ≠ 0) : SoundWord p w (decodeGroup3 p w) := by
  have hword : ∀ op : Operand, op.mode = field w 10 8 → op.code = (regField w 0).val →
      word3 (field w 13 12) (field w 11 11) (regField w 4) op = w := by
    intro op hm hc
    simp only [word3, val_regField, field, hm, hc] at h h' ⊢
    omega
  have hm := field_lt w 10 8
  have ht := field_lt w 13 12
  have hd := field_lt w 11 11
  have hload := decodeOperand_answers (regField w 0) hm
  have hstore := needDestination_answers (regField w 0) hm
  rw [decodeGroup3]
  generalize field w 13 12 = type at h' hword ht ⊢
  generalize field w 11 11 = dir at hword hd ⊢
  have hpos : 0 < type := Nat.pos_of_ne_zero h'
  interval_cases type <;> interval_cases dir
  · exact .operand hstore (fun op h1 h2 => by simp [Instr.wf, h1, h2]) Operand.isDestination_withExtension hword fun _ => rfl
  · exact .operand hload (fun _ h1 _ => h1) (fun _ _ => rfl) hword fun _ => rfl
  · exact .operand hstore (fun op h1 h2 => by simp [Instr.wf, h1, h2]) Operand.isDestination_withExtension hword fun _ => rfl
  · exact .operand hload (fun _ h1 _ => h1) (fun _ _ => rfl) hword fun _ => rfl
  · exact .guarded fun hn => .operand hstore (fun op h1 h2 => by simp [Instr.wf, h1, h2, hn])
      Operand.isDestination_withExtension hword fun _ => rfl
  · exact .guarded fun hn => .operand hload (fun op h1 _ => by simp [Instr.wf, h1, hn]) (fun _ _ => rfl) hword fun _ => rfl

theorem decodeGroup4_sound (h : field w 15 12 = 0) (h' : field w 7 7 = 1) : SoundWord p w (decodeGroup4 w) := by
  rw [decodeGroup4]
  cases hcc : Cond.ofCode (field w 11 8) with
  | none => exact .error _
  | some cc =>
    have hcode := Cond.code_of_ofCode hcc
    have hword : ∀ op : Operand, op.mode = field w 6 4 → op.code = (regField w 0).val → (Instr.jcc op cc).word = w := by
      intro op hm hc
      simp only [Instr.word_jcc, word4, val_regField, field, hm, hc, hcode] at h h' ⊢
      omega
    exact .operand (decodeOperand_answers (regField w 0) (field_lt w 6 4)) (fun op h1 _ => (Instr.wf_jcc p op cc).trans h1)
      (fun _ _ => rfl) hword fun op => Instr.extension_jcc op cc

theorem decodeGroup5_sound (h : field w 15 12 = 0) (h' : field w 7 7 = 0) (h'' : field w 11 11 = 1) :
    SoundWord p w (decodeGroup5 w) := by
  have hword : ∀ op : Operand, op.mode = field w 6 4 → op.code = (regField w 0).val → word5 (field w 10 8) op = w := by
    intro op hm hc
    simp only [word5, val_regField, field, hm, hc] at h h' h'' ⊢
    omega
  have hm := field_lt w 6 4
  have hk := field_lt w 10 8
  have hread := decodeOperand_answers (regField w 0) hm
  have hwrite := needDestination_answers (regField w 0) hm
  have haddress := needAddress_answers (regField w 0) hm
  rw [decodeGroup5]
  generalize field w 10 8 = k at hword hk ⊢
  interval_cases k
  · exact .error _
  · exact .operand haddress (fun op h1 h2 => by simp [Instr.wf, h1, h2]) Operand.hasAddress_withExtension hword fun _ => rfl
  · exact .operand haddress (fun op h1 h2 => by simp [Instr.wf, h1, h2]) Operand.hasAddress_withExtension hword fun _ => rfl
  · exact .operand hread (fun _ h1 _ => h1) (fun _ _ => rfl) hword fun _ => rfl
  · exact .operand hread (fun _ h1 _ => h1) (fun _ _ => rfl) hword fun _ => rfl
  · exact .operand hwrite (fun op h1 h2 => by simp [Instr.wf, h1, h2]) Operand.isDestination_withExtension hword fun _ => rfl
  · exact .operand hwrite (fun op h1 h2 => by simp [Instr.wf, h1, h2]) Operand.isDestination_withExtension hword fun _ => rfl
  · exact .operand hwrite (fun op h1 h2 => by simp [Instr.wf, h1, h2]) Operand.isDestination_withExtension hword fun _ => rfl

theorem decodeGroup6_sound (h : field w 15 12 = 0) (h' : field w 7 7 = 0) (h'' : field w 11 11 = 0)
    (hlow : field w 6 0 = 0) : SoundWord p w (.ok fun _ => decodeGroup6 w) := by
  have hword : word6 (field w 10 8) = w := by
    simp only [word6, field] at h h' h'' hlow ⊢
    omega
  have hk := field_lt w 10 8
  rw [decodeGroup6]
  generalize field w 10 8 = k at hword hk ⊢
  interval_cases k <;> exact .const rfl hword rfl

theorem decodeGroup7_sound (h : field w 15 13 = 1) : SoundWord p w (.ok fun _ => decodeGroup7 w) := by
  have hword : word7 (field w 12 12) (byteField w 4) (regField w 0) = w := by
    simp only [word7, toNat_byteField, val_regField, field] at h ⊢
    omega
  have hk := field_lt w 12 12
  rw [decodeGroup7]
  generalize field w 12 12 = k at hword hk ⊢
  interval_cases k <;> exact .const rfl hword rfl

theorem decodeGroup8_sound (h : field w 15 12 = 1) : SoundWord p w (decodeGroup8 w) := by
  rw [decodeGroup8]
  cases hcc : Cond.ofCode (field w 11 8) with
  | none => exact .error _
  | some cc =>
    have hcode := Cond.code_of_ofCode hcc
    refine .const (Instr.wf_bcc p _ cc) ?_ (Instr.extension_bcc _ cc)
    simp only [Instr.word_bcc, word8, toNat_byteField, field, hcode] at h ⊢
    omega

/-- Each group's words are told apart as R99 says. -/
theorem decodeNormal_sound : SoundWord p w (decodeNormal p w) := by
  rw [decodeNormal]
  split_ifs with h1 h2 h2' h3 h4 h5 h6 h7
  · exact decodeGroup1_sound hw h1
  · exact decodeGroup2_sound hw h2 h2'
  · exact decodeGroup3_sound hw h2 h2'
  · exact decodeGroup7_sound hw h3
  · exact decodeGroup8_sound hw h4
  · exact decodeGroup4_sound hw (by simp only [field] at *; omega) h5
  · exact decodeGroup5_sound hw (by simp only [field] at *; omega) (by simp only [field] at *; omega) h6
  · exact decodeGroup6_sound hw (by simp only [field] at *; omega) (by simp only [field] at *; omega)
      (by simp only [field] at *; omega) h7
  · exact .error _

end

/-- A word that decodes, in either variant of the encoding, is the instruction word of what it decodes to (R99, R100). -/
theorem decodeWord_sound {p : Params} {c : Code} {f : Word → Instr} {ie : Word} (h : decodeWord p c = .ok f)
    (hie : p.wordSize.fits ie = true) :
    (f ie).wf p = true ∧ encodeWord p (f ie) = c ∧ ∀ x, (f ie).extension = some x → x = ie := by
  have hw : p.encVariant.normalise c.toNat < 65536 := p.encVariant.normalise_lt _ c.isLt
  obtain ⟨hwf, hword, hext⟩ := decodeNormal_sound hw f ie h hie
  refine ⟨hwf, ?_, hext⟩
  rw [encodeWord, hword, p.encVariant.normalise_normalise _ c.isLt, BitVec.ofNat_toNat, BitVec.setWidth_eq]

/-- Settles O2: what is decoded has the word that was read, and carries the extension word that was read exactly when the
word is followed by one. -/
theorem encodeOfDecode : Obligations.EncodeOfDecode := by
  intro p bytes rest i h
  obtain ⟨c, f, ie, hdecode, hbytes, rfl⟩ := beginsWith_of_decodeBytes h
  obtain ⟨hwf, hword, hvalue⟩ := decodeWord_sound hdecode hbytes.fits
  have hext := hasExtension_encodeWord p (f ie) hwf
  rw [hword] at hext
  refine ⟨hwf, ?_⟩
  obtain ⟨hnone, -, rfl⟩ | ⟨hsome, -, rfl⟩ := hbytes
  · rw [Machine.encode_of_none p _ (by simpa [hnone] using hext), hword]
  · obtain ⟨x, hx⟩ := Option.isSome_iff_exists.mp (hext.symm.trans hsome)
    rw [Machine.encode_of_some p _ x hx, hword, hvalue x hx, List.append_assoc]

end Sys2Proof
end

section
/-! The leading bits of a word, and the length of an instruction from its word (O3). -/

namespace Sys2Proof

/-! ## The groups of R99 by the leading four bits of a word -/

section
variable {w : Nat} (hw : w < 65536)
include hw

theorem field_15_15 : field w 15 15 = 1 ↔ 8 ≤ w / 0x1000 := by simp only [field]; omega

theorem field_15_14 : field w 15 14 = 1 ↔ 4 ≤ w / 0x1000 ∧ w / 0x1000 < 8 := by simp only [field]; omega

theorem field_15_13 : field w 15 13 = 1 ↔ w / 0x1000 = 2 ∨ w / 0x1000 = 3 := by simp only [field]; omega

theorem field_15_12 : field w 15 12 = 1 ↔ w / 0x1000 = 1 := by simp only [field]; omega

end

theorem field_13_12 (w : Nat) : field w 13 12 = w / 0x1000 % 4 := rfl

/-! ## The length of an instruction (R98) -/

theorem length_encode (p : Params) (i : Instr) :
    (encode p i).length = if i.extension.isSome then 2 + p.wordSize.bytes else 2 := by
  cases he : i.extension with
  | none => simp [Machine.encode_of_none p i he]
  | some ie => simp [Machine.encode_of_some p i ie he]

theorem modeHasExtension_iff (mode : Nat) : modeHasExtension mode = true ↔ mode ∈ [0, 5, 6, 7] := by
  simp [modeHasExtension, or_assoc]

/-- The three tests of R98 on a word of variant A, by its leading four bits. -/
theorem extensionNormal_iff (w : Nat) (hw : w < 65536) :
    extensionNormal w = true ↔
      (w / 0x1000 = 4 ∧ (w / 0x100 % 16 = 12 ∨ w / 0x100 % 16 = 14)) ∨
      ((w / 0x1000 = 5 ∨ w / 0x1000 = 6 ∨ w / 0x1000 = 7) ∧ w / 0x100 % 8 ∈ [0, 5, 6, 7]) ∨
      (w / 0x1000 = 0 ∧ (w / 0x80 % 2 = 1 ∨ w / 0x800 % 2 = 1) ∧ w / 0x10 % 8 ∈ [0, 5, 6, 7]) := by
  have hlead : w / 0x1000 < 16 := by omega
  simp only [extensionNormal, field_15_15 hw, field_15_14 hw, field_15_13 hw, field_15_12 hw]
  rw [field_13_12]
  generalize w / 0x1000 = lead at hlead ⊢
  interval_cases lead
  · by_cases h7 : w / 0x80 % 2 = 1 <;> simp [field, h7, modeHasExtension_iff]
  all_goals simp [modeHasExtension_iff, field]

/-- Settles O3: an instruction has an extension word exactly where its word passes one of the tests. -/
theorem lengthFromTheWord : Obligations.LengthFromTheWord := by
  intro p i hwf hvariant w
  have hword : hasExtension p (encodeWord p i) = extensionNormal w := by rw [hasExtension, hvariant]; rfl
  rw [length_encode, ← hasExtension_encodeWord p i hwf, hword]
  exact if_congr (extensionNormal_iff w (encodeWord p i).isLt) rfl rfl

end Sys2Proof
end

section
/-! Which words are reserved, and under which reason (O4). -/

namespace Sys2Proof

/-! ## The decoder's refusals, part by part -/

/-- R100 item 5: the mode carries no register, and the register code is not 0000. -/
def StrayRegister (mode : Nat) (r : Reg) : Prop :=
  mode ∈ [0, 5] ∧ r.val ≠ 0

theorem Operand.isDestination_eq (op : Operand) : op.isDestination = decide (op.mode ≠ 0) := by
  cases op <;> rfl

theorem Operand.hasAddress_eq (op : Operand) : op.hasAddress = decide (op.mode ∉ [0, 1]) := by
  cases op <;> rfl

section
variable {mode : Nat} {r : Reg} {e : Reserved}

theorem decodeOperand_eq_error (hmode : mode < 8) :
    decodeOperand mode r = .error e ↔ e = .registerField ∧ StrayRegister mode r := by
  rw [StrayRegister, ne_eq, Fin.val_eq_zero_iff]
  by_cases hr : r = 0 <;> interval_cases mode <;> simp [decodeOperand, hr, eq_comm]

theorem needDestination_eq_error (hmode : mode < 8) :
    needDestination (decodeOperand mode r) = .error e ↔
      e = .registerField ∧ StrayRegister mode r ∨ e = .immediateDestination ∧ mode = 0 ∧ ¬StrayRegister mode r := by
  cases hop : decodeOperand mode r with
  | error e' =>
    obtain ⟨rfl, hstray⟩ := (decodeOperand_eq_error hmode).mp hop
    simp [needDestination, hstray, eq_comm]
  | ok f =>
    have hstray : ¬StrayRegister mode r := fun h => by simp [(decodeOperand_eq_error hmode).mpr ⟨rfl, h⟩] at hop
    obtain ⟨op, rfl, -, rfl⟩ := decodeOperand_eq_ok hmode hop
    rw [needDestination, Operand.isDestination_withExtension, op.isDestination_eq]
    simp only [hstray, and_false, false_or, not_false_eq_true, and_true, decide_eq_true_eq]
    by_cases h0 : op.mode = 0 <;> simp [h0, eq_comm]

theorem needAddress_eq_error (hmode : mode < 8) :
    needAddress (decodeOperand mode r) = .error e ↔
      e = .registerField ∧ StrayRegister mode r ∨ e = .noEffectiveAddress ∧ mode ∈ [0, 1] ∧ ¬StrayRegister mode r := by
  cases hop : decodeOperand mode r with
  | error e' =>
    obtain ⟨rfl, hstray⟩ := (decodeOperand_eq_error hmode).mp hop
    simp [needAddress, hstray, eq_comm]
  | ok f =>
    have hstray : ¬StrayRegister mode r := fun h => by simp [(decodeOperand_eq_error hmode).mpr ⟨rfl, h⟩] at hop
    obtain ⟨op, rfl, -, rfl⟩ := decodeOperand_eq_ok hmode hop
    rw [needAddress, Operand.hasAddress_withExtension, op.hasAddress_eq]
    by_cases h01 : op.mode ∈ [0, 1] <;> simp [hstray, h01, eq_comm]

end

theorem withOperand_eq_error {o : Except Reserved (Word → Operand)} {mk : Operand → Instr} {e : Reserved} :
    withOperand o mk = .error e ↔ o = .error e := by
  cases o <;> simp [withOperand]

theorem Cond.ofCode_eq_none {k : Nat} (hk : k < 16) : Cond.ofCode k = none ↔ k ∈ [0, 14, 15] := by
  interval_cases k <;> simp [Cond.ofCode]

/-! ## The refusals of each group -/

theorem decodeGroup2_eq_error {p : Params} {w : Nat} {e : Reserved} :
    decodeGroup2 p w = .error e ↔ e = .notImplemented ∧ field w 11 8 ∈ [11, 13] ∧ p.hasRlbExt = false := by
  have hk := field_lt w 11 8
  rw [decodeGroup2]
  generalize field w 11 8 = k at hk ⊢
  cases p.hasRlbExt <;> interval_cases k <;> simp [eq_comm]

theorem decodeGroup3_eq_error {p : Params} {w : Nat} {e : Reserved} (h : field w 13 12 ≠ 0) :
    decodeGroup3 p w = .error e ↔
      if field w 13 12 = 3 ∧ p.wordSize = .n16 then e = .longOperand
      else
        e = .registerField ∧ StrayRegister (field w 10 8) (regField w 0) ∨
        e = .immediateDestination ∧ (field w 11 11 = 0 ∧ field w 10 8 = 0) ∧
          ¬StrayRegister (field w 10 8) (regField w 0) := by
  have hm := field_lt w 10 8
  have ht := field_lt w 13 12
  have hd := field_lt w 11 11
  rw [decodeGroup3]
  generalize field w 13 12 = type at h ht ⊢
  generalize field w 11 11 = dir at hd ⊢
  have hpos : 0 < type := Nat.pos_of_ne_zero h
  interval_cases type
  all_goals
    interval_cases dir <;>
      cases p.wordSize <;>
      simp [withOperand_eq_error, needDestination_eq_error hm, decodeOperand_eq_error hm, eq_comm]

theorem decodeGroup4_eq_error {w : Nat} {e : Reserved} :
    decodeGroup4 w = .error e ↔
      if field w 11 8 ∈ [0, 14, 15] then e = .conditionCode
      else e = .registerField ∧ StrayRegister (field w 6 4) (regField w 0) := by
  rw [decodeGroup4]
  simp only [← Cond.ofCode_eq_none (field_lt w 11 8)]
  cases Cond.ofCode (field w 11 8) with
  | none => simp [eq_comm]
  | some cc => simp [withOperand_eq_error, decodeOperand_eq_error (field_lt w 6 4)]

theorem decodeGroup5_eq_error {w : Nat} {e : Reserved} :
    decodeGroup5 w = .error e ↔
      if field w 10 8 = 0 then e = .operationZero
      else
        e = .registerField ∧ StrayRegister (field w 6 4) (regField w 0) ∨
        e = .immediateDestination ∧ (field w 10 8 ∈ [5, 6, 7] ∧ field w 6 4 = 0) ∧
          ¬StrayRegister (field w 6 4) (regField w 0) ∨
        e = .noEffectiveAddress ∧ (field w 10 8 ∈ [1, 2] ∧ field w 6 4 ∈ [0, 1]) ∧
          ¬StrayRegister (field w 6 4) (regField w 0) := by
  have hm := field_lt w 6 4
  have hk := field_lt w 10 8
  rw [decodeGroup5]
  generalize field w 10 8 = k at hk ⊢
  interval_cases k
  · simp [eq_comm]
  all_goals
    simp [withOperand_eq_error, needDestination_eq_error hm, needAddress_eq_error hm, decodeOperand_eq_error hm]

theorem decodeGroup8_eq_error {w : Nat} {e : Reserved} :
    decodeGroup8 w = .error e ↔ e = .conditionCode ∧ field w 11 8 ∈ [0, 14, 15] := by
  rw [decodeGroup8, ← Cond.ofCode_eq_none (field_lt w 11 8)]
  cases Cond.ofCode (field w 11 8) <;> simp [eq_comm]

/-! ## The eight items of R100 -/

/-- A word of group III in variant A (R84). -/
@[simp] def Group3Word (w : Nat) : Prop := w / 0x1000 = 5 ∨ w / 0x1000 = 6 ∨ w / 0x1000 = 7

/-- A word of group IV, or one that R100 reserves there (R85). -/
@[simp] def Group4Word (w : Nat) : Prop := w / 0x1000 = 0 ∧ w / 0x80 % 2 = 1

/-- A word of group V, or one that R100 reserves there (R86). -/
@[simp] def Group5Word (w : Nat) : Prop := w / 0x1000 = 0 ∧ w / 0x80 % 2 = 0 ∧ w / 0x800 % 2 = 1

/-- A word of group VI, or one that R100 reserves there (R87). -/
@[simp] def Group6Word (w : Nat) : Prop := w / 0x1000 = 0 ∧ w / 0x80 % 2 = 0 ∧ w / 0x800 % 2 = 0

/-- The item of R100 that has this reason holds of the word `w` of variant A. -/
@[simp] def ReservedItem (p : Params) (w : Nat) : Reserved → Prop
  | .conditionCode => (Group4Word w ∨ w / 0x1000 = 1) ∧ w / 0x100 % 16 ∈ [0, 14, 15]
  | .operationZero => Group5Word w ∧ w / 0x100 % 8 = 0
  | .groupSixLowBits => Group6Word w ∧ w % 0x80 ≠ 0
  | .longOperand => w / 0x1000 = 7 ∧ p.wordSize = .n16
  | .registerField =>
    (Group3Word w ∧ w / 0x100 % 8 ∈ [0, 5] ∨ (Group4Word w ∨ Group5Word w) ∧ w / 0x10 % 8 ∈ [0, 5]) ∧ w % 16 ≠ 0
  | .immediateDestination =>
    Group3Word w ∧ w / 0x800 % 2 = 0 ∧ w / 0x100 % 8 = 0 ∨ Group5Word w ∧ w / 0x100 % 8 ∈ [5, 6, 7] ∧ w / 0x10 % 8 = 0
  | .noEffectiveAddress => Group5Word w ∧ w / 0x100 % 8 ∈ [1, 2] ∧ w / 0x10 % 8 ∈ [0, 1]
  | .notImplemented => w / 0x100 ∈ [0x4B, 0x4D] ∧ p.hasRlbExt = false
  | .truncated => False

/-- The reasons of the items that can hold of one word with this reason's item and stand before it in the list of R100. -/
@[simp] def Reserved.earlier : Reserved → List Reserved
  | .registerField => [.conditionCode, .operationZero, .longOperand]
  | .immediateDestination => [.longOperand, .registerField]
  | .noEffectiveAddress => [.registerField]
  | _ => []

/-- The reason is that of the first item that holds of the word. -/
@[simp] def FirstReason (p : Params) (w : Nat) (e : Reserved) : Prop :=
  ReservedItem p w e ∧ ∀ e' ∈ e.earlier, ¬ReservedItem p w e'

/-- The words of RLB and EXT by group and operation (R83). -/
theorem rlbExtWord_iff (w : Nat) :
    w / 0x100 = 0x4B ∨ w / 0x100 = 0x4D ↔ w / 0x1000 = 4 ∧ (w / 0x100 % 16 = 11 ∨ w / 0x100 % 16 = 13) := by
  omega

theorem strayRegister_fields (mode w : Nat) : StrayRegister mode (regField w 0) ↔ mode ∈ [0, 5] ∧ w % 16 ≠ 0 := by
  rw [StrayRegister, val_regField, show field w (0 + 3) 0 = w % 16 by simp [field]]

section
variable {p : Params} {w : Nat} {e : Reserved}

/-- No item of R100 is about the words of groups I and VII. -/
theorem not_firstReason (h : w / 0x1000 = 2 ∨ w / 0x1000 = 3 ∨ 8 ≤ w / 0x1000) : ¬FirstReason p w e := by
  cases e <;> simp [rlbExtWord_iff] <;> omega

theorem decodeGroup2_firstReason (h : w / 0x1000 = 4) : decodeGroup2 p w = .error e ↔ FirstReason p w e := by
  rw [decodeGroup2_eq_error]
  cases e <;> simp [rlbExtWord_iff, h, field]

theorem decodeGroup3_firstReason (h : w / 0x1000 = 5 ∨ w / 0x1000 = 6 ∨ w / 0x1000 = 7) :
    decodeGroup3 p w = .error e ↔ FirstReason p w e := by
  rw [decodeGroup3_eq_error (by rw [field_13_12]; omega), field_13_12]
  obtain h | h | h := h
  case inl | inr.inl => cases e <;> simp [rlbExtWord_iff, strayRegister_fields, h, field]
  cases e <;> simp [rlbExtWord_iff, strayRegister_fields, h, field, and_comm, and_left_comm]

theorem decodeGroup4_firstReason (h : w / 0x1000 = 0) (h' : w / 0x80 % 2 = 1) :
    decodeGroup4 w = .error e ↔ FirstReason p w e := by
  rw [decodeGroup4_eq_error]
  cases e <;> simp [rlbExtWord_iff, strayRegister_fields, h, h', field, and_comm]

theorem decodeGroup5_firstReason (h : w / 0x1000 = 0) (h' : w / 0x80 % 2 = 0) (h'' : w / 0x800 % 2 = 1) :
    decodeGroup5 w = .error e ↔ FirstReason p w e := by
  rw [decodeGroup5_eq_error]
  cases e <;> simp [rlbExtWord_iff, strayRegister_fields, h, h', h'', field] <;> omega

theorem group6_firstReason (h : w / 0x1000 = 0) (h' : w / 0x80 % 2 = 0) (h'' : w / 0x800 % 2 = 0) :
    FirstReason p w e ↔ e = .groupSixLowBits ∧ w % 0x80 ≠ 0 := by
  cases e <;> simp [rlbExtWord_iff, h, h', h'']

theorem decodeGroup8_firstReason (h : w / 0x1000 = 1) : decodeGroup8 w = .error e ↔ FirstReason p w e := by
  rw [decodeGroup8_eq_error]
  cases e <;> simp [rlbExtWord_iff, h, field]

/-- A word of variant A is refused for the first item of R100 that holds of it. -/
theorem decodeNormal_eq_error (hw : w < 65536) : decodeNormal p w = .error e ↔ FirstReason p w e := by
  have h13 := field_13_12 w
  have h7 : field w 7 7 = w / 0x80 % 2 := rfl
  have h11 : field w 11 11 = w / 0x800 % 2 := rfl
  have h6 : field w 6 0 = w % 0x80 := by simp [field]
  rw [decodeNormal]
  split_ifs with g1 g2 g2' g7 g8 g4 g5 g6 <;>
    simp only [field_15_15 hw, field_15_14 hw, field_15_13 hw, field_15_12 hw] at *
  · exact iff_of_false nofun (not_firstReason (by omega))
  · exact decodeGroup2_firstReason (by omega)
  · exact decodeGroup3_firstReason (by omega)
  · exact iff_of_false nofun (not_firstReason (by omega))
  · exact decodeGroup8_firstReason g8
  · exact decodeGroup4_firstReason (by omega) (by omega)
  · exact decodeGroup5_firstReason (by omega) (by omega) (by omega)
  · rw [group6_firstReason (by omega) (by omega) (by omega), ← h6]
    simp [g6]
  · rw [group6_firstReason (by omega) (by omega) (by omega), ← h6]
    simp [g6, eq_comm]

/-! ### The reasons, one by one -/

theorem firstReason_of_earlier_nil (h : e.earlier = []) : FirstReason p w e ↔ ReservedItem p w e :=
  and_iff_left (by rw [h]; exact List.forall_mem_nil _)

theorem firstReason_registerField :
    FirstReason p w .registerField ↔
      ReservedItem p w .registerField ∧ ¬ReservedItem p w .conditionCode ∧ ¬ReservedItem p w .operationZero ∧
        ¬ReservedItem p w .longOperand := by
  simp only [FirstReason, Reserved.earlier, List.forall_mem_cons, List.not_mem_nil, false_implies, implies_true,
    and_true]

theorem firstReason_immediateDestination :
    FirstReason p w .immediateDestination ↔
      ReservedItem p w .immediateDestination ∧ ¬ReservedItem p w .longOperand ∧ ¬ReservedItem p w .registerField := by
  simp only [FirstReason, Reserved.earlier, List.forall_mem_cons, List.not_mem_nil, false_implies, implies_true,
    and_true]

theorem firstReason_noEffectiveAddress :
    FirstReason p w .noEffectiveAddress ↔ ReservedItem p w .noEffectiveAddress ∧ ¬ReservedItem p w .registerField := by
  simp only [FirstReason, Reserved.earlier, List.forall_mem_cons, List.not_mem_nil, false_implies, implies_true,
    and_true]

/-- Where an item holds, one of those that hold is the first. -/
theorem exists_firstReason (h : ReservedItem p w e) : ∃ e', FirstReason p w e' := by
  by_cases h1 : ReservedItem p w .conditionCode
  · exact ⟨_, (firstReason_of_earlier_nil rfl).mpr h1⟩
  by_cases h2 : ReservedItem p w .operationZero
  · exact ⟨_, (firstReason_of_earlier_nil rfl).mpr h2⟩
  by_cases h4 : ReservedItem p w .longOperand
  · exact ⟨_, (firstReason_of_earlier_nil rfl).mpr h4⟩
  by_cases h5 : ReservedItem p w .registerField
  · exact ⟨_, firstReason_registerField.mpr ⟨h5, h1, h2, h4⟩⟩
  cases e
  case registerField => exact absurd h h5
  case immediateDestination => exact ⟨_, firstReason_immediateDestination.mpr ⟨h, h4, h5⟩⟩
  case noEffectiveAddress => exact ⟨_, firstReason_noEffectiveAddress.mpr ⟨h, h5⟩⟩
  all_goals exact ⟨_, (firstReason_of_earlier_nil rfl).mpr h⟩

/-- Some item is the first exactly where one of the eight holds. -/
theorem exists_firstReason_iff :
    (∃ e, FirstReason p w e) ↔
      ReservedItem p w .conditionCode ∨ ReservedItem p w .operationZero ∨ ReservedItem p w .groupSixLowBits ∨
        ReservedItem p w .longOperand ∨ ReservedItem p w .registerField ∨ ReservedItem p w .immediateDestination ∨
        ReservedItem p w .noEffectiveAddress ∨ ReservedItem p w .notImplemented := by
  constructor
  · rintro ⟨e, hitem, -⟩
    cases e
    case truncated => exact hitem.elim
    all_goals simp only [hitem, true_or, or_true]
  · rintro (h | h | h | h | h | h | h | h) <;> exact exists_firstReason h

end

/-- The word of variant A, in the terms of R81, is what the decoder reads. -/
theorem asVariantA_eq_normalise (v : EncVariant) (w : Nat) (hw : w < 65536) : Machine.asVariantA v w = v.normalise w := by
  cases v with
  | a => simp [Machine.asVariantA, EncVariant.normalise]
  | b =>
    simp only [Machine.asVariantA, EncVariant.normalise_b, true_and]
    split_ifs <;> omega

theorem decodeWord_eq_error {p : Params} {c : Code} {e : Reserved} :
    decodeWord p c = .error e ↔ FirstReason p (Machine.asVariantA p.encVariant c.toNat) e := by
  rw [asVariantA_eq_normalise _ _ c.isLt]
  exact decodeNormal_eq_error (p.encVariant.normalise_lt _ c.isLt)

/-- Settles O4: the decoder's reason is that of the first item that holds. -/
theorem reservedWordsAreTheEightItems : Obligations.ReservedWordsAreTheEightItems := by
  intro p c
  have hsole {e : Reserved} (h : e.earlier = []) := decodeWord_eq_error (p := p) (c := c).trans (firstReason_of_earlier_nil h)
  refine ⟨?_, hsole rfl, hsole rfl, hsole rfl, hsole rfl, decodeWord_eq_error.trans firstReason_registerField,
    decodeWord_eq_error.trans firstReason_immediateDestination, decodeWord_eq_error.trans firstReason_noEffectiveAddress,
    hsole rfl⟩
  simp only [decodeWord_eq_error]
  exact exists_firstReason_iff

end Sys2Proof
end

section
/-! The instruction word of every row, and the order of an instruction's bytes (O5). -/

namespace Sys2Proof.Machine

/-! ## Words in either variant of the encoding (R81, D2) -/

theorem toNat_encodeWord (p : Params) (i : Instr) : (encodeWord p i).toNat = p.encVariant.normalise i.word := by
  rw [encodeWord, BitVec.toNat_ofNat]
  exact Nat.mod_eq_of_lt (p.encVariant.normalise_lt _ i.word_lt)

/-- The words whose leading bits the card gives, those of groups I, II, IV, V and VI, are the same in both variants. -/
theorem encodedAs_of_word {i : Instr} {w : Nat} (h : i.word = w ∧ (0x8000 ≤ w ∨ w / 0x1000 % 4 = 0)) : EncodedAs i w := by
  obtain ⟨rfl, hlead⟩ := h
  intro p
  have hw := i.word_lt
  rw [toNat_encodeWord]
  cases p.encVariant with
  | a => rfl
  | b =>
    rw [EncVariant.normalise_b]
    split_ifs <;> omega

/-- Variant B exchanges the prefixes of the other words. -/
theorem encodedInVariants_of_word {i : Instr} {a b : Nat}
    (h : i.word = a ∧ (a / 0x1000 = 5 ∨ a / 0x1000 = 6 ∨ a / 0x1000 = 7) ∧ b + 0x4000 = a ∨
      i.word = a ∧ (a / 0x1000 = 1 ∨ a / 0x1000 = 2 ∨ a / 0x1000 = 3) ∧ b = a + 0x4000) : EncodedInVariants i a b := by
  intro p
  have hword : i.word = a := by omega
  rw [toNat_encodeWord, hword]
  constructor <;> intro hv <;> rw [hv]
  · rfl
  · rw [EncVariant.normalise_b]
    split_ifs <;> omega

/-! ## The tables of words -/

theorem commonWords_encoded (sa sb d : Reg) (ie : Word) (a : Operand) :
    ∀ e ∈ groupOneWords sa sb d ++ groupTwoWords sa d ie ++ groupFourWords a ++ groupFiveWords a ++ groupSixWords,
      EncodedAs e.1 e.2 := by
  refine fun e he => encodedAs_of_word ?_
  have hm := a.mode_lt
  have hc := a.code_lt
  revert e
  simp only [List.forall_mem_append, groupOneWords, groupTwoWords, groupFourWords, groupFiveWords, groupSixWords,
    List.forall_mem_cons, List.not_mem_nil, false_implies, implies_true, and_true]
  simp only [Instr.word, word1, word2, word4, word5, word6, Cond.code, or_true, and_true]
  refine ⟨⟨⟨?_, ?_⟩, ?_⟩, ?_⟩ <;> omega

theorem variantWords_encoded (sa d : Reg) (a : Operand) (v : BitVec 8) :
    ∀ e ∈ groupThreeWords sa a ++ groupSevenWords v d ++ groupEightWords v, EncodedInVariants e.1 e.2.1 e.2.2 := by
  refine fun e he => encodedInVariants_of_word ?_
  have hm := a.mode_lt
  have hc := a.code_lt
  revert e
  simp only [List.forall_mem_append, groupThreeWords, groupSevenWords, groupEightWords, List.forall_mem_cons,
    List.not_mem_nil, false_implies, implies_true, and_true]
  simp only [Instr.word, word3, word7, word8, Cond.code, true_and]
  refine ⟨⟨?_, ?_⟩, ?_⟩ <;> omega

/-! ## The bytes of an instruction (R80, R97) -/

/-- Byte `k` of a big-endian number, the most significant byte first. -/
theorem getElem?_bigEndian (n v k : Nat) (hk : k < n) :
    (bigEndian n v)[k]? = some (BitVec.ofNat 8 (v / 256 ^ (n - 1 - k))) := by
  induction n generalizing v with
  | zero => exact absurd hk (Nat.not_lt_zero k)
  | succ n ih =>
    rw [bigEndian]
    obtain hk' | rfl := Nat.lt_succ_iff_lt_or_eq.mp hk
    · have hexp : n + 1 - 1 - k = n - 1 - k + 1 := by omega
      rw [List.getElem?_append_left (by rwa [length_bigEndian]), ih _ hk', hexp, pow_succ', Nat.div_div_eq_div_mul]
    · rw [List.getElem?_append_right (by rw [length_bigEndian]), length_bigEndian]
      simp

theorem encode_byte_zero (p : Params) (i : Instr) :
    (encode p i)[0]? = some (BitVec.ofNat 8 ((encodeWord p i).toNat / 256)) := rfl

theorem encode_byte_one (p : Params) (i : Instr) :
    (encode p i)[1]? = some (BitVec.ofNat 8 (encodeWord p i).toNat) := rfl

theorem encode_extension_byte (p : Params) (i : Instr) (x : Word) (k : Nat) (h : i.extension = some x)
    (hk : k < p.wordSize.bytes) :
    (encode p i)[2 + k]? = some (BitVec.ofNat 8 (x.toNat / 256 ^ (p.wordSize.bytes - 1 - k))) := by
  rw [encode_of_some p i x h, List.getElem?_append_right (by simp), length_bigEndian, Nat.add_sub_cancel_left,
    getElem?_bigEndian _ _ _ hk]

/-! ## Modes and extension words -/

theorem modeCodes_hold (ie : Word) (r : Reg) :
    ∀ e ∈ modeCodes ie r, e.1.mode = e.2.1 ∧ e.1.code = e.2.2.1 ∧ e.1.extension = e.2.2.2 := by
  simp [modeCodes, Operand.mode, Operand.code, Operand.extension]

theorem operandWords_extension (sa : Reg) (a : Operand) :
    (∀ e ∈ groupThreeWords sa a, e.1.extension = a.extension) ∧
    (∀ e ∈ groupFourWords a ++ groupFiveWords a, e.1.extension = a.extension) := by
  simp only [groupThreeWords, groupFourWords, groupFiveWords, List.cons_append, List.nil_append, List.forall_mem_cons,
    List.not_mem_nil, false_implies, implies_true, and_true]
  and_intros <;> rfl

theorem groupTwoWords_extension (sa d : Reg) (ie : Word) :
    ∀ e ∈ groupTwoWords sa d ie, e.1.extension = if e.1 = .ani sa d ie ∨ e.1 = .adi sa d ie then some ie else none := by
  simp only [groupTwoWords, List.forall_mem_cons, List.not_mem_nil, false_implies, implies_true, and_true]
  simp [Instr.extension]

theorem bareWords_extension (sa sb d : Reg) (v : BitVec 8) :
    (∀ e ∈ groupOneWords sa sb d ++ groupSixWords, e.1.extension = none) ∧
    (∀ e ∈ groupSevenWords v d ++ groupEightWords v, e.1.extension = none) := by
  simp only [groupOneWords, groupSixWords, groupSevenWords, groupEightWords, List.cons_append, List.nil_append,
    List.forall_mem_cons, List.not_mem_nil, false_implies, implies_true, and_true]
  and_intros <;> rfl

/-- Settles O5: each entry of a table is compared with the word of its format. -/
theorem everyRowHasItsWord : Obligations.EveryRowHasItsWord := by
  intro sa sb d ie a v
  obtain ⟨hthree, hfourFive⟩ := operandWords_extension sa a
  obtain ⟨honeSix, hsevenEight⟩ := bareWords_extension sa sb d v
  exact ⟨commonWords_encoded sa sb d ie a, variantWords_encoded sa d a v, modeCodes_hold ie d,
    fun p i => ⟨encode_byte_zero p i, encode_byte_one p i, encode_extension_byte p i⟩,
    hthree, hfourFive, groupTwoWords_extension sa d ie, honeSix, hsevenEight⟩

end Sys2Proof.Machine
end

section
/-! A fetch that meets a reserved word (O10). -/

namespace Sys2Proof.Machine

/-- The word is decoded as soon as it is read, so that a reserved one stops the fetch with the decoder's reason (R96). -/
theorem fetch_of_reserved (s : State) (why : Reserved) (heven : s.pc.toNat % 2 = 0) (hread : canRead s s.pc 2 = true)
    (h : decodeWord s.params (BitVec.ofNat 16 (s.word s.pc 2)) = .error why) :
    fetch s = .refused (.reservedEncoding why) := by
  have hodd : ¬s.pc.toNat % 2 = 1 := by omega
  have hmem : memReadAligned 2 s s.pc 2 = .next (BitVec.ofNat 32 (s.word s.pc 2)) := memRead_of_canRead s s.pc 2 hread
  rw [fetch, if_neg hodd, hmem, andThen_next, toNat_ofNat_word s s.pc 2 (by decide)]
  simp only [h]

/-- Settles O10: the step stops where its fetch does. -/
theorem reservedWordIsRefused : Obligations.ReservedWordIsRefused := by
  intro s why hfetches heven hread h
  rw [step_of_fetches s hfetches, fetch_of_reserved s why heven hread h, andThen_refused]

end Sys2Proof.Machine
end

section
/-! The mode table, and the operand forms that are refused whatever the data (O31, O45). -/

namespace Sys2Proof.Machine

/-! ## The rows of the mode table (R92) -/

theorem toNat_decremented (s : State) (r : Reg) (n : Nat) (hn : n ≤ s.ws.bytes) :
    (s.decremented r n).toNat = ((s.reg r).toNat + 2 ^ s.ws.bits - n) % 2 ^ s.ws.bits := by
  rw [State.decremented, s.ws.toNat_narrow, ← s.ws.modulus_eq, Nat.add_sub_assoc (hn.trans (bytes_le_modulus s.ws))]

theorem toNat_indexAddress (s : State) (ie : Word) (r : Reg) :
    (s.indexAddress ie r).toNat = (ie.toNat + (s.reg r).toNat) % 2 ^ s.ws.bits := by
  rw [State.indexAddress, s.ws.toNat_narrow, s.ws.modulus_eq]

/-- Mode 111 where its pointer can be read. -/
theorem resolve_preIndexed_of_canRead (s : State) (ie : Word) (r : Reg) (n : Nat)
    (h : canRead s (s.indexAddress ie r) s.ws.bytes = true) :
    resolve s (.preIndexed ie r) n = .next (.mem (BitVec.ofNat 32 (s.word (s.indexAddress ie r) s.ws.bytes)), s) := by
  rw [resolve, memRead_of_canRead s _ _ h, andThen_next]

/-- Settles O31, row by row. -/
theorem modeTable : Obligations.ModeTable := by
  intro s ie r n _ hn
  refine ⟨rfl, rfl, rfl, rfl, ⟨_, toNat_decremented s r n hn, rfl⟩, ⟨_, ?_, rfl⟩,
    ⟨_, toNat_indexAddress s ie r, rfl, resolve_preIndexed_of_canRead s ie r n⟩⟩
  rw [s.ws.toNat_narrow, s.ws.modulus_eq]

/-! ## Refused forms -/

section
variable (s : State) (n : Nat) (ra : Reg)

theorem load_overlap (b : Operand) (h : modifiedRegister b = some ra) : load n ra b s = .refused .transferOverlap :=
  if_pos h

theorem store_overlap (b : Operand) (h : modifiedRegister b = some ra) : store n ra b s = .refused .transferOverlap :=
  if_pos h

theorem store_imm (ie : Word) : store n ra (.imm ie) s = .refused .immediateDestination := rfl

theorem onlyLong_of_n32 (meaning : Answer State) (h : s.ws = .n32) : onlyLong s meaning = meaning :=
  if_pos h

theorem onlyLong_of_n16 (meaning : Answer State) (h : s.ws = .n16) :
    onlyLong s meaning = .refused (.reservedEncoding .longOperand) :=
  if_neg (by rw [h]; decide)

end

/-- Settles O45, form by form. -/
theorem refusedForms : Obligations.RefusedForms := by
  intro s ra r b ie
  have hauto : ∀ q : Reg, b = .postInc q ∨ b = .preDec q → modifiedRegister b = some q := by
    rintro q (rfl | rfl) <;> rfl
  simp only [List.forall_mem_cons, List.not_mem_nil, false_implies, implies_true, and_true]
  refine ⟨fun h => ?_, fun hws h => ?_, fun h => ?_, ⟨rfl, rfl, rfl, rfl, rfl⟩, fun hws => ?_, ⟨rfl, rfl, rfl, rfl⟩,
    fun hws => ?_⟩
  · have hra := hauto ra h
    exact ⟨load_overlap s 1 ra b hra, load_overlap s 2 ra b hra, store_overlap s 1 ra b hra, store_overlap s 2 ra b hra⟩
  · have hra := hauto ra h
    exact ⟨(onlyLong_of_n32 s _ hws).trans (load_overlap s 4 ra b hra),
      (onlyLong_of_n32 s _ hws).trans (store_overlap s 4 ra b hra)⟩
  · exact ⟨if_pos (hauto sp h), if_pos (hauto sp h)⟩
  · exact (onlyLong_of_n32 s _ hws).trans (store_imm s 4 ra ie)
  · exact ⟨onlyLong_of_n16 s _ hws, onlyLong_of_n16 s _ hws⟩

end Sys2Proof.Machine
end

section
/-! The short branches and LDQ (O49, O59). -/

namespace Sys2Proof.Machine

/-! ## The branches (R280) -/

/-- Each entry of the table of branches is a Bcc with the truth of its condition (R201). -/
theorem eq_bcc_of_mem_branchTable (f : SR) (disp : BitVec 8) :
    ∀ p ∈ branchTable f disp, ∃ cc, p.1 = Instr.bcc disp cc ∧ p.2 = f.holds cc := by
  have hsigns : (f.NF == f.VF) = !(Bool.xor f.NF f.VF) := by cases f.NF <;> cases f.VF <;> rfl
  simp only [branchTable, List.forall_mem_cons, List.not_mem_nil, false_implies, implies_true, and_true]
  refine ⟨⟨.mp, rfl, rfl⟩, ⟨.eq, rfl, ?_⟩, ⟨.ne, rfl, ?_⟩, ⟨.ge, rfl, ?_⟩, ⟨.le, rfl, ?_⟩, ⟨.gt, rfl, ?_⟩, ⟨.lw, rfl, ?_⟩,
    ⟨.ae, rfl, ?_⟩, ⟨.be, rfl, ?_⟩, ⟨.ab, rfl, ?_⟩, ⟨.bl, rfl, ?_⟩, ⟨.vs, rfl, ?_⟩, ⟨.vc, rfl, ?_⟩⟩ <;>
    simp [SR.holds, hsigns]

/-- PC plus a sign-extended displacement, modulo 2^N. -/
theorem toNat_narrow_add_signExtend8 (ws : WordSize) (k : Nat) (disp : BitVec 8) :
    ((ws.narrow (k + (signExtend8 ws disp).toNat)).toNat : Int) = ((k : Int) + disp.toInt) % 2 ^ ws.bits := by
  rw [ws.toNat_narrow, Int.natCast_emod, Int.natCast_add, toNat_signExtend8, Int.add_emod_emod, ws.modulus_eq]
  norm_cast

theorem exec_bcc_taken (s : State) (disp : BitVec 8) (cc : Cond) (h : s.sr.holds cc = true) :
    exec (.bcc disp cc) s = .next (s.setPc (s.pc.toNat + (signExtend8 s.ws disp).toNat)) := by
  rw [exec_bcc, branchIf, if_pos h]

theorem exec_bcc_not_taken (s : State) (disp : BitVec 8) (cc : Cond) (h : s.sr.holds cc = false) :
    exec (.bcc disp cc) s = .next s := by
  rw [exec_bcc, branchIf, h, if_neg Bool.false_ne_true]

/-- Settles O49: a branch moves PC where its condition holds, and does nothing otherwise. -/
theorem branchesFollowTheConditionTable : Obligations.BranchesFollowTheConditionTable := by
  intro s disp i taken hmem
  obtain ⟨cc, rfl, rfl⟩ : ∃ cc, i = Instr.bcc disp cc ∧ taken = s.sr.holds cc :=
    eq_bcc_of_mem_branchTable s.sr disp _ hmem
  cases h : s.sr.holds cc with
  | true => exact ⟨_, exec_bcc_taken s disp cc h, fun _ => toNat_narrow_add_signExtend8 s.ws _ disp, nofun, rfl⟩
  | false => exact ⟨s, exec_bcc_not_taken s disp cc h, nofun, fun _ => rfl, rfl⟩

/-! ## LDQ (R271) -/

theorem exec_ldq (s : State) (v : BitVec 8) (r : Reg) :
    exec (.ldq v r) s = .next (s.finishLogic r (signExtend8 s.ws v)) := rfl

/-- Settles O59: LDQ finishes with the extended constant as a logic result. -/
theorem ldqLoadsTheSignedConstant : Obligations.LdqLoadsTheSignedConstant := by
  intro s v r
  obtain ⟨hreg, hflags, hframe⟩ := finishLogic_spec s r (signExtend8 s.ws v) (s.ws.narrowInt_lt _)
  refine ⟨_, exec_ldq s v r, ?_, ?_, hframe⟩
  · rw [hreg, toNat_signExtend8, s.ws.modulus_eq]
    norm_cast
  · rwa [hreg]

end Sys2Proof.Machine
end

section
/-! The additions: ADC, ADD, ADI and ADQ (O32), and the words of groups I and II with the codes spelt out. -/

namespace Sys2Proof.Machine

/-! ## Addition (R27) -/

theorem toNat_addFlags (ws : WordSize) (sr : SR) (a b : Word) (c : Bool) :
    (addFlags ws sr a b c).1.toNat = (a.toNat + b.toNat + c.toNat) % 2 ^ ws.bits := by
  rw [addFlags, ws.toNat_narrow, ws.modulus_eq, flagNat_toNat]

/-- CF is the carry out of bit N-1. -/
theorem addFlags_CF (ws : WordSize) (sr : SR) (a b : Word) (c : Bool) :
    (addFlags ws sr a b c).2.CF = decide (2 ^ ws.bits ≤ a.toNat + b.toNat + c.toNat) := by
  rw [← ws.modulus_eq, ← flagNat_toNat]
  rfl

/-- An instruction that finishes with the sum of two N-bit values in Rd, with the flags of `add_flags`, is an addition. -/
theorem adds_of_finish (s : State) {i : Instr} {d : Reg} {a b : Word} {c : Bool} (ha : a.toNat < s.ws.modulus)
    (hb : b.toNat < s.ws.modulus) (hexec : exec i s = .next (s.finish d (addFlags s.ws s.sr a b c))) :
    Adds i s [d] a b c := by
  refine ⟨_, (addFlags s.ws s.sr a b c).1, hexec, toNat_addFlags s.ws s.sr a b c, List.forall_mem_singleton.mpr ?_, ?_,
    addFlags_CF s.ws s.sr a b c, overflow_add s.ws a b c ha hb, finish_registerFrame s d _ (addFlags_modes _ _ _ _ _)⟩
  · rw [finish_reg_self]
    exact s.ws.narrow_of_lt _ (s.ws.narrow_lt _)
  · exact zeroNegative_setZN s (s.ws.narrow_lt _) rfl

/-- The extension word of ADI is used as it stands when it has N bits (R155). -/
theorem exec_adi (s : State) (sa d : Reg) (ie : Word) (h : ie.toNat < s.ws.modulus) :
    exec (.adi sa d ie) s = .next (s.finish d (addFlags s.ws s.sr (s.reg sa) ie false)) := by
  change execAdi sa d ie s = _
  rw [execAdi, s.ws.narrow_of_lt ie h]

/-! ## Words of groups I and II (R82, R83) -/

theorem encodedAs_word1 {i : Instr} (k : Nat) (sa sb d : Reg) (h : i.word = word1 k sa sb d) :
    EncodedAs i (word1 k sa sb d) :=
  encodedAs_of_word ⟨h, .inl (by unfold word1; omega)⟩

theorem encodedAs_word2 {i : Instr} (k : Fin 16) (src d : Reg) (h : i.word = word2 k src d) :
    EncodedAs i (word2 k src d) :=
  encodedAs_of_word ⟨h, .inr (by unfold word2; omega)⟩

/-- Settles O32: all four finish with a sum in Rd; the second summand is a register, the extension word or the extended
constant. -/
theorem additionsSetSumAndFlags : Obligations.AdditionsSetSumAndFlags := by
  intro s sa sb d ie v
  refine ⟨adds_of_finish s (s.reg_lt sa) (s.reg_lt sb) rfl, adds_of_finish s (s.reg_lt sa) (s.reg_lt sb) rfl,
    fun hie => ?_, ⟨signExtend8 s.ws v, ?_, ?_⟩, encodedAs_word1 0 sa sb d rfl, encodedAs_word1 6 sa sb d rfl,
    encodedAs_word2 14 sa d rfl⟩
  · rw [← s.ws.modulus_eq] at hie
    exact adds_of_finish s (s.reg_lt sa) hie (exec_adi s sa d ie hie)
  · rw [toNat_signExtend8, s.ws.modulus_eq]
    norm_cast
  · exact adds_of_finish s (s.reg_lt d) (s.ws.narrowInt_lt _) rfl

end Sys2Proof.Machine
end

section
/-! The logic instructions, bit by bit: XOR (O34), AND, OR, NOT and ANI (O35). -/

namespace Sys2Proof.Machine

/-! ## N-bit results -/

theorem toNat_and_lt {ws : WordSize} (a : Word) {b : Word} (hb : b.toNat < ws.modulus) : (a &&& b).toNat < ws.modulus := by
  rw [ws.modulus_eq] at hb ⊢
  rw [BitVec.toNat_and]
  exact Nat.and_lt_two_pow _ hb

theorem toNat_or_lt {ws : WordSize} {a b : Word} (ha : a.toNat < ws.modulus) (hb : b.toNat < ws.modulus) :
    (a ||| b).toNat < ws.modulus := by
  rw [ws.modulus_eq] at ha hb ⊢
  rw [BitVec.toNat_or]
  exact Nat.or_lt_two_pow ha hb

theorem toNat_xor_lt {ws : WordSize} {a b : Word} (ha : a.toNat < ws.modulus) (hb : b.toNat < ws.modulus) :
    (a ^^^ b).toNat < ws.modulus := by
  rw [ws.modulus_eq] at ha hb ⊢
  rw [BitVec.toNat_xor]
  exact Nat.xor_lt_two_pow ha hb

/-- The complement on N bits: 2^N - 1 - a has the opposite of each bit of `a` (R145). -/
theorem getLsbD_complement (ws : WordSize) (a : Word) (k : Nat) (hk : k < ws.bits) (ha : a.toNat < ws.modulus) :
    (complement ws a).getLsbD k = !a.getLsbD k := by
  rw [complement, ws.getLsbD_narrow _ _ hk, Nat.sub_sub, Nat.add_comm 1]
  rw [ws.modulus_eq] at ha ⊢
  rw [Nat.testBit_two_pow_sub_succ ha, decide_eq_true hk, Bool.true_and]
  rfl

/-- An instruction that finishes with a logic result in Rd puts the bits of that result there. -/
theorem putsBits_of_finishLogic (s : State) {i : Instr} {d : Reg} {r : Word} {bit : Nat → Bool}
    (hr : r.toNat < s.ws.modulus) (hexec : exec i s = .next (s.finishLogic d r))
    (hbit : ∀ k, k < s.ws.bits → r.getLsbD k = bit k) : PutsBits i s d bit false := by
  obtain ⟨hreg, ⟨hzn, hvf, hcf⟩, hframe⟩ := finishLogic_spec s d r hr
  refine ⟨_, hexec, ?_⟩
  rw [hreg]
  exact ⟨hbit, hzn, hvf, hcf, hframe⟩

/-- Settles O34. -/
theorem xorBitByBit : Obligations.XorBitByBit :=
  fun s sa sb _ => putsBits_of_finishLogic s (toNat_xor_lt (s.reg_lt sa) (s.reg_lt sb)) rfl
    fun _ _ => BitVec.getLsbD_xor

/-- Settles O35: each finishes with a logic result whose bits are known; ANI uses the N low bits of its extension word. -/
theorem logicResultsBitByBit : Obligations.LogicResultsBitByBit := by
  intro s sa sb d ie
  refine ⟨?and, ?or, ?not, ?ani, encodedAs_word1 4 sa sb d rfl, encodedAs_word1 5 sa sb d rfl, encodedAs_word2 4 sa d rfl,
    encodedAs_word2 12 sa d rfl⟩
  case and =>
    exact putsBits_of_finishLogic s (toNat_and_lt _ (s.reg_lt sb)) rfl fun _ _ => BitVec.getLsbD_and
  case or =>
    exact putsBits_of_finishLogic s (toNat_or_lt (s.reg_lt sa) (s.reg_lt sb)) rfl fun _ _ => BitVec.getLsbD_or
  case not =>
    exact putsBits_of_finishLogic s (s.ws.narrow_lt _) rfl fun k hk => getLsbD_complement s.ws _ k hk (s.reg_lt sa)
  case ani =>
    refine putsBits_of_finishLogic s (toNat_and_lt _ (s.ws.narrow_lt _)) rfl fun k hk => ?_
    rw [BitVec.getLsbD_and, s.ws.getLsbD_narrow _ _ hk]
    rfl

end Sys2Proof.Machine
end

section
/-! Multiplication and division of signed N-bit values (O36, O37). -/

namespace Sys2Proof.Machine

theorem natCast_modulus (ws : WordSize) : (ws.modulus : Int) = 2 ^ ws.bits := by
  exact_mod_cast ws.modulus_eq

theorem natCast_half (ws : WordSize) : (ws.half : Int) = 2 ^ (ws.bits - 1) := by
  exact_mod_cast ws.half_eq

/-! ## MUL (R124) -/

/-- The low N bits of the exact product of two registers. -/
def State.product (s : State) (sa sb : Reg) : Word :=
  s.ws.narrowInt (signed s.ws (s.reg sa) * signed s.ws (s.reg sb))

/-- The flags of MUL: VF from the exact product, CF free. -/
def State.productFlags (s : State) (sa sb : Reg) : SR :=
  setZN s.ws
    { s.sr with
      VF := !inSignedRange s.ws (signed s.ws (s.reg sa) * signed s.ws (s.reg sb))
      CF := Config.freeCarry s.draws } (s.product sa sb)

theorem exec_mul (s : State) (sa sb d : Reg) :
    exec (.mul sa sb d) s = .next (s.finish d (s.product sa sb, s.productFlags sa sb)).drawn := rfl

/-- A draw is no part of the frame of a register instruction. -/
theorem RegisterFrame.drawn {rs : List Reg} {s t : State} (h : RegisterFrame rs s t) : RegisterFrame rs s t.drawn := h

/-- Out of the signed range, on either side (R26). -/
theorem not_inSignedRange_iff (ws : WordSize) (k : Int) :
    (!inSignedRange ws k) = true ↔ k < -(2 ^ (ws.bits - 1)) ∨ 2 ^ (ws.bits - 1) ≤ k := by
  rw [Bool.not_eq_true', inSignedRange_eq_false, natCast_half]
  omega

/-- Settles O36: MUL finishes with the residue of the exact product, and then draws. -/
theorem mulLowProductAndOverflow : Obligations.MulLowProductAndOverflow := by
  intro s sa sb d p
  have hreg : (s.finish d (s.product sa sb, s.productFlags sa sb)).drawn.reg d = s.product sa sb :=
    (finish_reg_self s d _).trans (s.ws.narrow_of_lt _ (s.ws.narrowInt_lt _))
  refine ⟨_, exec_mul s sa sb d, ?_, ?_, not_inSignedRange_iff s.ws p, rfl,
    (finish_registerFrame s d _ ⟨rfl, rfl⟩).drawn⟩
  · rw [hreg, ← natCast_modulus]
    exact s.ws.toNat_narrowInt p
  · rw [hreg]
    exact zeroNegative_setZN s (s.ws.narrowInt_lt _) rfl

/-! ## Division rounded toward zero -/

/-- A quotient leaves the signed range only in the division of -2^(N-1) by -1. -/
theorem tdiv_range {a b : Int} {h : Nat} (ha : -(h : Int) ≤ a ∧ a < h) (hb : b ≠ 0) (hover : ¬(a = -(h : Int) ∧ b = -1)) :
    -(h : Int) ≤ a.tdiv b ∧ a.tdiv b < h := by
  by_cases hone : b = 1
  · rw [hone, Int.tdiv_one]
    exact ha
  by_cases hneg : b = -1
  · rw [hneg, Int.tdiv_neg, Int.tdiv_one]
    omega
  · have hquot : (a.tdiv b).natAbs = a.natAbs / b.natAbs := Int.natAbs_tdiv a b
    have hhalf : a.natAbs / b.natAbs ≤ a.natAbs / 2 := Nat.div_le_div_left (by omega) (by decide)
    omega

theorem sub_tdiv_mul (a b : Int) : a - a.tdiv b * b = a.tmod b := by
  rw [Int.tmod_def, mul_comm]

theorem natAbs_tmod_lt (a : Int) {b : Int} (hb : b ≠ 0) : (a.tmod b).natAbs < b.natAbs := by
  rw [Int.natAbs_tmod]
  exact Nat.mod_lt _ (Int.natAbs_pos.mpr hb)

/-- The remainder is 0 or has the sign of the dividend. -/
theorem tmod_sign (a b : Int) : a.tmod b = 0 ∨ (a.tmod b < 0 ↔ a < 0) := by
  rcases lt_or_ge a 0 with ha | ha
  · have hneg := Int.tmod_nonneg b (show 0 ≤ -a by omega)
    rw [Int.neg_tmod] at hneg
    omega
  · have hpos := Int.tmod_nonneg b ha
    omega

/-! ## DIV (R123) -/

/-- Quotient and remainder written with the flags, and one free value drawn. -/
def State.divided (s : State) (sa d : Reg) (q r : Int) : State :=
  (((s.setReg d (s.ws.narrowInt q)).setReg sa (s.ws.narrowInt r)).setSR
    (setZN s.ws { s.sr with VF := false, CF := Config.freeCarry s.draws } (s.ws.narrowInt q))).drawn

section
variable (s : State) {sa sb d : Reg}

theorem exec_div_by_zero (hb : signed s.ws (s.reg sb) = 0) : exec (.div sa sb d) s = .refused .divisionByZero :=
  if_pos hb

theorem exec_div_overflow (ha : signed s.ws (s.reg sa) = -(s.ws.half : Int)) (hb : signed s.ws (s.reg sb) = -1) :
    exec (.div sa sb d) s = .refused .divisionOverflow := by
  change execDiv sa sb d s = _
  rw [execDiv, if_neg (by omega), if_pos ⟨ha, hb⟩]

variable (hb : signed s.ws (s.reg sb) ≠ 0)
  (hover : ¬(signed s.ws (s.reg sa) = -(s.ws.half : Int) ∧ signed s.ws (s.reg sb) = -1))
include hb hover

theorem exec_div_overlap (hd : d = sa) : exec (.div sa sb d) s = .refused .divisionOverlap := by
  change execDiv sa sb d s = _
  rw [execDiv, if_neg hb, if_neg hover, if_pos hd]

theorem exec_div (hround : s.params.divRound = .truncate) (hd : d ≠ sa) :
    exec (.div sa sb d) s = .next (s.divided sa d ((signed s.ws (s.reg sa)).tdiv (signed s.ws (s.reg sb)))
      ((signed s.ws (s.reg sa)).tmod (signed s.ws (s.reg sb)))) := by
  change execDiv sa sb d s = _
  rw [execDiv, if_neg hb, if_neg hover, if_neg hd, hround, ← sub_tdiv_mul]
  rfl

end

theorem divided_reg_remainder (s : State) (sa d : Reg) (q r : Int) : (s.divided sa d q r).reg sa = s.ws.narrowInt r :=
  ((s.setReg d _).reg_setReg_self sa _).trans (s.ws.narrow_of_lt _ (s.ws.narrowInt_lt r))

theorem divided_reg_quotient (s : State) {sa d : Reg} (q r : Int) (h : d ≠ sa) :
    (s.divided sa d q r).reg d = s.ws.narrowInt q :=
  calc (s.divided sa d q r).reg d = (s.setReg d (s.ws.narrowInt q)).reg d := State.reg_setReg_ne _ sa d _ h
    _ = s.ws.narrow (s.ws.narrowInt q).toNat := s.reg_setReg_self d _
    _ = s.ws.narrowInt q := s.ws.narrow_of_lt _ (s.ws.narrowInt_lt q)

theorem divided_registerFrame (s : State) (sa d : Reg) (q r : Int) : RegisterFrame [d, sa] s (s.divided sa d q r) := by
  refine ⟨fun x hx => ?_, fun _ _ => rfl, rfl, ⟨rfl, rfl⟩, ⟨rfl, rfl, rfl⟩, rfl⟩
  obtain ⟨hxd, hxsa⟩ : x ≠ d ∧ x ≠ sa := by simpa using hx
  exact (State.reg_setReg_ne _ sa x _ hxsa).trans (s.reg_setReg_ne d x _ hxd)

/-- Settles O37: outside the refused cases quotient and remainder are in the signed range, so that the registers read back
as those integers. -/
theorem divQuotientAndRemainder : Obligations.DivQuotientAndRemainder := by
  intro s sa sb d hround a b
  rw [← natCast_half]
  refine ⟨exec_div_by_zero s, exec_div_overflow s, exec_div_overlap s, fun hb hover hd => ?_⟩
  have ha : -(s.ws.half : Int) ≤ a ∧ a < s.ws.half := signed_range s.ws _ (s.reg_lt sa)
  have hbrange : -(s.ws.half : Int) ≤ b ∧ b < s.ws.half := signed_range s.ws _ (s.reg_lt sb)
  have hq : -(s.ws.half : Int) ≤ a.tdiv b ∧ a.tdiv b < s.ws.half := tdiv_range ha hb hover
  have hr : (a.tmod b).natAbs < b.natAbs := natAbs_tmod_lt a hb
  have hquot : signed s.ws (s.ws.narrowInt (a.tdiv b)) = a.tdiv b := signed_narrowInt s.ws _ hq.1 hq.2
  have hrem : signed s.ws (s.ws.narrowInt (a.tmod b)) = a.tmod b := signed_narrowInt s.ws _ (by omega) (by omega)
  refine ⟨_, exec_div s hb hover hround hd, ?_⟩
  rw [divided_reg_quotient s _ _ hd, divided_reg_remainder, hquot, hrem]
  exact ⟨(Int.tdiv_mul_add_tmod a b).symm, hr, tmod_sign a b, zeroNegative_setZN s (s.ws.narrowInt_lt _) rfl, rfl, rfl,
    divided_registerFrame s sa d _ _⟩

end Sys2Proof.Machine
end

section
/-! The spec's example words, read through the opcode table (O6). -/

namespace Sys2Proof.Machine

/-- The word of a well-formed instruction without an extension word reads as that instruction: the table holds the words of
the standard machine with N = 32, in variant A. -/
theorem decodeTableWord_word (i : Instr) (hwf : i.wf (Params.standard .n32) = true) (hext : i.extension = none) :
    decodeTableWord 16 i.word = some i := by
  have hword : (encodeWord (Params.standard .n32) i).toNat = i.word := toNat_encodeWord _ i
  have hlt : i.word % 2 ^ 16 = i.word := Nat.mod_eq_of_lt i.word_lt
  have hdecode := decodeOfEncode (Params.standard .n32) i
    (bigEndian 2 (i.word / 65536 % 65536) ++ bigEndian 2 (i.word / 65536 / 65536 % 65536)) hwf
  rw [encode_of_none _ i hext, hword] at hdecode
  simp only [decodeTableWord, hlt, Nat.mod_eq_of_lt i.word_lt, List.append_assoc, hdecode]

/-- Settles O6: eleven of the words are those of the instructions beside them; the twelfth is reserved. -/
theorem exampleWordsDecode : Obligations.ExampleWordsDecode :=
  ⟨decodeTableWord_word (.add 15 10 0) rfl rfl, decodeTableWord_word (.adc 1 2 3) rfl rfl,
    decodeTableWord_word (.cmp 1 2) rfl rfl, decodeTableWord_word (.ldW 1 (.postInc 15)) rfl rfl,
    decodeTableWord_word (.stB 1 (.preDec 2)) rfl rfl, decodeTableWord_word (.ldL 1 (.ind 2)) rfl rfl,
    decodeTableWord_word (.jmp (.reg 3)) rfl rfl, decodeTableWord_word (.tsr (.ind 2)) rfl rfl,
    decodeTableWord_word .rti rfl rfl, decodeTableWord_word (.ldq 0xFF 1) rfl rfl,
    decodeTableWord_word (.bmp 0xFE) rfl rfl, by decide⟩

end Sys2Proof.Machine
end

section
/-! Group II bit by bit: the shifts and rotates by one place (O38, O39), and SWB, RLB and EXT (O40). -/

namespace Sys2Proof.Machine

/-! ## Shifts and rotates by one place (R140) -/

/-- A shift result of N bits stands in Rd, its flags describe it, CF is the bit that leaves, and nothing else changes. -/
theorem putsBits_of_finishShift (s : State) {i : Instr} {d : Reg} {r : Word} {out cf : Bool} {bit : Nat → Bool}
    (hr : r.toNat < s.ws.modulus) (hexec : exec i s = .next (s.finishShift d r out))
    (hbit : ∀ k, k < s.ws.bits → r.getLsbD k = bit k) (hout : out = cf) : PutsBits i s d bit cf := by
  have hreg : (s.finishShift d r out).reg d = r := (finish_reg_self s d _).trans (s.ws.narrow_of_lt r hr)
  refine ⟨_, hexec, ?_⟩
  rw [hreg]
  exact ⟨hbit, zeroNegative_setZN s hr rfl, rfl, hout, finish_registerFrame s d _ (shiftFlags_modes _ _ _ _)⟩

/-- An instruction that moves Rs by one place to the left, `c` entering bit 0 and bit N-1 leaving. -/
theorem putsBits_of_shiftLeft1 (s : State) {i : Instr} (src d : Reg) (c : Bool)
    (hexec : exec i s = .next (s.finishShift d (shiftLeft1 s.ws (s.reg src) c) (signBit s.ws (s.reg src)))) :
    PutsBits i s d (fun k => if k = 0 then c else (s.reg src).getLsbD (k - 1)) ((s.reg src).getLsbD (s.ws.bits - 1)) :=
  putsBits_of_finishShift s (s.ws.narrow_lt _) hexec (getLsbD_shiftLeft1 s.ws _ c) (signBit_eq s.ws _ (s.reg_lt src))

/-- An instruction that moves Rs by one place to the right, `c` entering bit N-1 and bit 0 leaving. -/
theorem putsBits_of_shiftRight1 (s : State) {i : Instr} (src d : Reg) {c top : Bool} (hc : c = top)
    (hexec : exec i s = .next (s.finishShift d (shiftRight1 s.ws (s.reg src) c) (lowBit (s.reg src)))) :
    PutsBits i s d (fun k => if k = s.ws.bits - 1 then top else (s.reg src).getLsbD (k + 1)) ((s.reg src).getLsbD 0) := by
  subst hc
  exact putsBits_of_finishShift s (s.ws.narrow_lt _) hexec
    (fun k hk => getLsbD_shiftRight1 s.ws _ c k hk (s.reg_lt src)) (lowBit_eq _)

/-- Settles O38: the bit that enters is the old CF. -/
theorem rotatesGoThroughCarry : Obligations.RotatesGoThroughCarry :=
  fun s src d => ⟨putsBits_of_shiftLeft1 s src d s.sr.CF rfl, putsBits_of_shiftRight1 s src d rfl rfl⟩

/-- Settles O39: the bit that enters is 0, but for SRA, where it is the sign bit. -/
theorem shiftsMoveBitsByOne : Obligations.ShiftsMoveBitsByOne :=
  fun s src d => ⟨putsBits_of_shiftRight1 s src d rfl rfl,
    putsBits_of_shiftRight1 s src d (signBit_eq s.ws _ (s.reg_lt src)) rfl, putsBits_of_shiftLeft1 s src d false rfl⟩

/-! ## SWB, RLB and EXT (R151, R152, R154) -/

theorem swapBytes_lt (ws : WordSize) (a : Word) : (swapBytes ws a).toNat < ws.modulus := by
  cases ws
  · exact WordSize.narrow_lt .n16 _
  · exact WordSize.narrow_lt .n32 _

/-- Two bytes exchanged: each stands in the place of the other. -/
theorem testBit_swapBytes16 (x k : Nat) (hx : x < 2 ^ 16) (hk : k < 16) :
    (x % 0x100 * 0x100 + x / 0x100).testBit k = if k < 8 then x.testBit (k + 8) else x.testBit (k - 8) := by
  have hhigh : x / 2 ^ 8 < 2 ^ 8 := by omega
  rw [show x % 0x100 * 0x100 + x / 0x100 = 2 ^ 8 * (x % 2 ^ 8) + x / 2 ^ 8 by omega,
    Nat.testBit_two_pow_mul_add _ hhigh, Nat.testBit_div_two_pow, Nat.testBit_mod_two_pow,
    decide_eq_true (show k - 8 < 8 by omega), Bool.true_and]

/-- Of four bytes the outer two exchanged, the middle two kept. -/
theorem testBit_swapBytes32 (x k : Nat) (hx : x < 2 ^ 32) (hk : k < 32) :
    (x % 0x100 * 0x1000000 + x / 0x100 % 0x10000 * 0x100 + x / 0x1000000).testBit k =
      if k < 8 then x.testBit (k + 24) else if 24 ≤ k then x.testBit (k - 24) else x.testBit k := by
  have hhigh : x / 2 ^ 24 < 2 ^ 8 := by omega
  have hrest : 2 ^ 8 * (x / 2 ^ 8 % 2 ^ 16) + x / 2 ^ 24 < 2 ^ 24 := by omega
  rw [show x % 0x100 * 0x1000000 + x / 0x100 % 0x10000 * 0x100 + x / 0x1000000 =
      2 ^ 24 * (x % 2 ^ 8) + (2 ^ 8 * (x / 2 ^ 8 % 2 ^ 16) + x / 2 ^ 24) by omega,
    Nat.testBit_two_pow_mul_add _ hrest, Nat.testBit_two_pow_mul_add _ hhigh]
  simp only [Nat.testBit_div_two_pow, Nat.testBit_mod_two_pow]
  by_cases hlow : k < 8
  · simp [hlow, show k < 24 by omega]
  by_cases htop : 24 ≤ k
  · simp [hlow, htop, show ¬k < 24 by omega, show k - 24 < 8 by omega]
  · simp [hlow, htop, show k < 24 by omega, show k - 8 < 16 by omega, show k - 8 + 8 = k by omega]

theorem getLsbD_swapBytes (ws : WordSize) (a : Word) (k : Nat) (hk : k < ws.bits) (ha : a.toNat < ws.modulus) :
    (swapBytes ws a).getLsbD k =
      if k < 8 then a.getLsbD (k + (ws.bits - 8))
      else if ws.bits - 8 ≤ k then a.getLsbD (k - (ws.bits - 8)) else a.getLsbD k := by
  cases ws with
  | n16 =>
    rw [swapBytes, WordSize.getLsbD_narrow _ _ _ hk, testBit_swapBytes16 _ k ha hk]
    change _ = if k < 8 then a.getLsbD (k + 8) else if 8 ≤ k then a.getLsbD (k - 8) else a.getLsbD k
    split
    · rfl
    · next hhigh => exact (if_pos (Nat.not_lt.mp hhigh)).symm
  | n32 =>
    rw [swapBytes, WordSize.getLsbD_narrow _ _ _ hk]
    exact testBit_swapBytes32 _ k ha hk

/-- Four places to the left: the top four bits of N enter at the bottom. -/
theorem getLsbD_rotateLeft4 (ws : WordSize) (a : Word) (k : Nat) (hk : k < ws.bits) (ha : a.toNat < ws.modulus) :
    (rotateLeft4 ws a).getLsbD k = if k < 4 then a.getLsbD (k + (ws.bits - 4)) else a.getLsbD (k - 4) := by
  have hdiv : ws.modulus / 16 = 2 ^ (ws.bits - 4) := by cases ws <;> rfl
  have hmul : ws.modulus = 2 ^ (ws.bits - 4) * 2 ^ 4 := by cases ws <;> rfl
  have htop : a.toNat / 2 ^ (ws.bits - 4) < 2 ^ 4 := Nat.div_lt_of_lt_mul (hmul ▸ ha)
  rw [rotateLeft4, ws.getLsbD_narrow _ _ hk, hdiv, show a.toNat * 16 = 2 ^ 4 * a.toNat from Nat.mul_comm _ _,
    Nat.testBit_two_pow_mul_add _ htop, Nat.testBit_div_two_pow]
  rfl

theorem signExtend8_lt (ws : WordSize) (v : BitVec 8) : (signExtend8 ws v).toNat < ws.modulus :=
  ws.narrowInt_lt _

/-- The N-bit sign extension of a byte, as the library defines it. -/
theorem toNat_signExtend8_eq (ws : WordSize) (v : BitVec 8) : (signExtend8 ws v).toNat = (v.signExtend ws.bits).toNat := by
  have h := toNat_signExtend8 ws v
  rw [BitVec.signExtend, BitVec.toNat_ofInt]
  rw [ws.modulus_eq] at h
  omega

/-- Below bit 8 the byte, from there on its bit 7. -/
theorem getLsbD_signExtend8 (ws : WordSize) (v : BitVec 8) (k : Nat) (hk : k < ws.bits) :
    (signExtend8 ws v).getLsbD k = if k < 8 then v.getLsbD k else v.getLsbD 7 := by
  have hbits : (signExtend8 ws v).getLsbD k = (v.signExtend ws.bits).getLsbD k :=
    congrArg (Nat.testBit · k) (toNat_signExtend8_eq ws v)
  rw [hbits, BitVec.getLsbD_signExtend, decide_eq_true hk, Bool.true_and, BitVec.msb_eq_getLsbD_last]

/-- The low byte of a register. -/
theorem getLsbD_lowByte (a : Word) (k : Nat) (hk : k < 8) : (BitVec.ofNat 8 a.toNat).getLsbD k = a.getLsbD k := by
  rw [BitVec.getLsbD_ofNat, decide_eq_true hk, Bool.true_and]
  rfl

section
variable (s : State) (src d : Reg)

theorem exec_rlb (h : s.params.hasRlbExt = true) :
    exec (.rlb src d) s = .next (s.finishLogic d (rotateLeft4 s.ws (s.reg src))) :=
  if_pos h

theorem exec_ext (h : s.params.hasRlbExt = true) :
    exec (.ext src d) s = .next (s.finishLogic d (signExtend8 s.ws (BitVec.ofNat 8 (s.reg src).toNat))) :=
  if_pos h

/-- A machine without RLB and EXT refuses both (R100 item 8). -/
theorem exec_rlb_ext_refused (h : s.params.hasRlbExt = false) :
    exec (.rlb src d) s = .refused (.reservedEncoding .notImplemented) ∧
      exec (.ext src d) s = .refused (.reservedEncoding .notImplemented) :=
  ⟨if_neg (Bool.eq_false_iff.mp h), if_neg (Bool.eq_false_iff.mp h)⟩

end

/-- Settles O40: each finishes with a logic result whose bits are known. -/
theorem byteMovesBitByBit : Obligations.ByteMovesBitByBit := by
  refine fun s src d => ⟨?swb, fun h => ⟨?rlb, ?ext⟩, exec_rlb_ext_refused s src d⟩
  case swb =>
    exact putsBits_of_finishLogic s (swapBytes_lt s.ws _) rfl fun k hk => getLsbD_swapBytes s.ws _ k hk (s.reg_lt src)
  case rlb =>
    exact putsBits_of_finishLogic s (s.ws.narrow_lt _) (exec_rlb s src d h)
      fun k hk => getLsbD_rotateLeft4 s.ws _ k hk (s.reg_lt src)
  case ext =>
    refine putsBits_of_finishLogic s (signExtend8_lt s.ws _) (exec_ext s src d h) fun k hk => ?_
    rw [getLsbD_signExtend8 s.ws _ k hk, getLsbD_lowByte _ 7 (by decide)]
    split
    · next hlow => exact getLsbD_lowByte _ k hlow
    · rfl

end Sys2Proof.Machine
end

section
/-! CMP and the orders its flags express (O42). -/

namespace Sys2Proof.Machine

/-- `signed` tells N-bit values apart. -/
theorem signed_inj {ws : WordSize} {a b : Word} (ha : a.toNat < ws.modulus) (hb : b.toNat < ws.modulus) :
    signed ws a = signed ws b ↔ a = b := by
  refine ⟨fun h => BitVec.eq_of_toNat_eq ?_, fun h => h ▸ rfl⟩
  have hmod : (a.toNat : Int) = b.toNat := by rw [← signed_emod ws a ha, ← signed_emod ws b hb, h]
  exact_mod_cast hmod

/-- CF after a comparison is the unsigned order. -/
theorem subFlags_CF_iff (ws : WordSize) (sr : SR) (a b : Word) : (subFlags ws sr a b false).2.CF = true ↔ a.toNat < b.toNat := by
  rw [subFlags_CF, decide_eq_true_iff]
  rfl

section
variable {ws : WordSize} (sr : SR) {a b : Word} (ha : a.toNat < ws.modulus) (hb : b.toNat < ws.modulus)
include ha hb

/-- The difference of two N-bit values wraps at most once. -/
theorem toNat_difference_cases :
    ((ws.narrowInt ((a.toNat : Int) - b.toNat - flagNat false)).toNat : Int) = (a.toNat : Int) - b.toNat ∧
        b.toNat ≤ a.toNat ∨
      ((ws.narrowInt ((a.toNat : Int) - b.toNat - flagNat false)).toNat : Int) = (a.toNat : Int) - b.toNat + ws.modulus ∧
        a.toNat < b.toNat := by
  have hdiff : (a.toNat : Int) - b.toNat - flagNat false = (a.toNat : Int) - b.toNat := Int.sub_zero _
  rw [ws.toNat_narrowInt, hdiff]
  rcases Nat.lt_or_ge a.toNat b.toNat with hlt | hge
  · exact .inr ⟨by rw [← Int.add_emod_right, Int.emod_eq_of_lt (by omega) (by omega)], hlt⟩
  · exact .inl ⟨Int.emod_eq_of_lt (by omega) (by omega), hge⟩

/-- ZF after a comparison is equality. -/
theorem subFlags_ZF_iff : (subFlags ws sr a b false).2.ZF = true ↔ a = b := by
  have hcases := toNat_difference_cases ha hb
  change decide (ws.narrowInt ((a.toNat : Int) - b.toNat - flagNat false) = 0) = true ↔ _
  rw [decide_eq_zero, decide_eq_true_iff, ← BitVec.toNat_inj]
  omega

/-- NF ≠ VF after a comparison is the signed order: where the difference leaves the signed range (VF), its sign bit is the
opposite of its sign. -/
theorem subFlags_NF_xor_VF_iff :
    Bool.xor (subFlags ws sr a b false).2.NF (subFlags ws sr a b false).2.VF = true ↔ signed ws a < signed ws b := by
  have hcases := toNat_difference_cases ha hb
  have hm := ws.modulus_half
  have hsa := signed_cases ws a
  have hsb := signed_cases ws b
  have hdiff : signed ws a - signed ws b - (flagNat false : Int) = signed ws a - signed ws b := Int.sub_zero _
  change Bool.xor (decide (ws.half ≤ (ws.narrowInt ((a.toNat : Int) - b.toNat - flagNat false)).toNat))
    (!inSignedRange ws (signed ws a - signed ws b - (flagNat false : Int))) = true ↔ _
  rw [hdiff, Bool.xor_iff_ne, Ne, Bool.eq_iff_iff, decide_eq_true_iff, Bool.not_eq_true', inSignedRange_eq_false]
  omega

end

/-- The ten orderings, once ZF, CF and NF ≠ VF say what they do after a comparison (R201). -/
theorem holds_of_orders {f : SR} {eq : Prop} {x y : Int} {m n : Nat} (hz : f.ZF = true ↔ eq) (hxy : x = y ↔ eq)
    (hmn : m = n ↔ eq) (hlt : Bool.xor f.NF f.VF = true ↔ x < y) (hbl : f.CF = true ↔ m < n) :
    (f.holds .eq = true ↔ eq) ∧ (f.holds .ne = true ↔ ¬eq) ∧
      (f.holds .ge = true ↔ x ≥ y) ∧ (f.holds .le = true ↔ x ≤ y) ∧
      (f.holds .gt = true ↔ x > y) ∧ (f.holds .lw = true ↔ x < y) ∧
      (f.holds .ae = true ↔ m ≥ n) ∧ (f.holds .be = true ↔ m ≤ n) ∧
      (f.holds .ab = true ↔ m > n) ∧ (f.holds .bl = true ↔ m < n) := by
  simp only [SR.holds, Bool.or_eq_true, Bool.and_eq_true, Bool.not_eq_true', ← Bool.not_eq_true, hz, hlt, hbl, ← hxy]
  rw [← hxy] at hmn
  refine ⟨trivial, trivial, ?ge, ?le, ?gt, trivial, ?ae, ?be, ?ab, trivial⟩
  all_goals omega

/-- Settles O42: CMP keeps the flags of the difference, and each condition reads the order from them. -/
theorem conditionsAfterCompare : Obligations.ConditionsAfterCompare := fun s src d =>
  have ha := s.reg_lt src
  have hb := s.reg_lt d
  ⟨_, rfl, holds_of_orders (subFlags_ZF_iff s.sr ha hb) (signed_inj ha hb) BitVec.toNat_inj
    (subFlags_NF_xor_VF_iff s.sr ha hb) (subFlags_CF_iff s.ws s.sr _ _)⟩

end Sys2Proof.Machine
end

section
/-! LD and ST in every size: the fill of a register bit by bit (R183), the loads (O43) and the stores (O44). -/

namespace Sys2Proof.Machine

/-! ## The sizes of group III (R173) -/

theorem bits_eq_bytes (ws : WordSize) : ws.bits = 8 * ws.bytes := by
  cases ws <;> rfl

theorem pow_bytes_eq (n : Nat) : 256 ^ n = 2 ^ (8 * n) :=
  (Nat.pow_mul 2 8 n).symm

/-- The size of a transfer that the machine has is at least one byte and at most T bytes. -/
theorem size_le_bytes {ws : WordSize} {ra : Reg} {b : Operand} {n : Nat} {i : Instr}
    (h : (n, i) ∈ loadTable ra b ++ storeTable ra b) (hlong : n = 4 → ws = .n32) : 0 < n ∧ n ≤ ws.bytes := by
  have hsize : n = 1 ∨ n = 2 ∨ n = 4 := by
    simp only [loadTable, storeTable, List.mem_append, List.mem_cons, Prod.mk.injEq, List.not_mem_nil, or_false] at h
    tauto
  obtain rfl | rfl | rfl := hsize
  · cases ws <;> decide
  · cases ws <;> decide
  · rw [hlong rfl]
    decide

/-! ## The fill of a register (R183, NARROW_EXT) -/

/-- The bits of a register made of the `n` bytes `low` and a part `high` above them. -/
theorem getLsbD_narrow_fill (ws : WordSize) {n low k : Nat} (high : Nat) (hlow : low < 256 ^ n) (hk : k < ws.bits) :
    (ws.narrow (256 ^ n * high + low)).getLsbD k = if k < 8 * n then low.testBit k else high.testBit (k - 8 * n) := by
  rw [pow_bytes_eq] at hlow ⊢
  rw [ws.getLsbD_narrow _ _ hk, Nat.testBit_two_pow_mul_add _ hlow]

/-- The top bit of an `n`-byte datum as a comparison. -/
theorem testBit_top (n v : Nat) (hn : 0 < n) (hv : v < 256 ^ n) : v.testBit (8 * n - 1) = decide (256 ^ n ≤ v * 2) := by
  have hpow : 256 ^ n = 2 * 2 ^ (8 * n - 1) := by
    rw [pow_bytes_eq, ← Nat.pow_succ']
    congr 1
    omega
  rw [hpow] at hv ⊢
  rw [Nat.testBit_eq_decide_div_mod_eq, decide_eq_decide]
  rcases Nat.lt_or_ge v (2 ^ (8 * n - 1)) with hlt | hge
  · rw [Nat.div_eq_of_lt hlt]
    omega
  · rw [Nat.div_eq_of_lt_le (k := 1) (by omega) (by omega)]
    omega

theorem fillRegister_lt (p : Params) (n : Nat) (old v : Word) : (fillRegister p n old v).toNat < p.wordSize.modulus := by
  rw [fillRegister]
  split
  · exact p.wordSize.narrow_lt _
  · split <;> exact p.wordSize.narrow_lt _
  · exact p.wordSize.narrow_lt _

/-- Above an `n`-byte datum a filled register has zeros, or the ones that make up 2^N - 256^n, or what it held. -/
theorem getLsbD_fillRegister (p : Params) {n : Nat} (old v : Word) {k : Nat} (hn : 0 < n ∧ n ≤ p.wordSize.bytes)
    (hv : v.toNat < 256 ^ n) (hk : k < p.wordSize.bits) :
    (fillRegister p n old v).getLsbD k = filledBit p n old v.toNat k := by
  have hfill := fun high => getLsbD_narrow_fill p.wordSize high hv hk
  have hbits := bits_eq_bytes p.wordSize
  have hzeros : p.wordSize.narrow v.toNat = p.wordSize.narrow (256 ^ n * 0 + v.toNat) := by rw [Nat.mul_zero, Nat.zero_add]
  rw [fillRegister, filledBit]
  cases p.narrowExt
  case zero =>
    simp only [hzeros, hfill, Nat.zero_testBit]
  case sign =>
    have hones : v.toNat + (p.wordSize.modulus - 256 ^ n) =
        256 ^ n * (2 ^ (p.wordSize.bits - 8 * n) - 1) + v.toNat := by
      rw [Nat.add_comm, Nat.mul_sub, pow_bytes_eq, ← Nat.pow_add, p.wordSize.modulus_eq, Nat.mul_one]
      congr 3
      omega
    simp only [testBit_top n _ hn.1 hv]
    split
    · next hpos => rw [hzeros, hfill, Nat.zero_testBit, decide_eq_false (by omega)]
    · next hneg =>
      rw [hones, hfill, Nat.testBit_two_pow_sub_one, decide_eq_true (p := 256 ^ n ≤ _) (by omega)]
      split
      · rfl
      · exact decide_eq_true (by omega)
  case merge =>
    simp only [Nat.mul_comm _ (256 ^ n), hfill]
    split
    · rfl
    · next hhigh =>
      rw [pow_bytes_eq, Nat.testBit_div_two_pow, Nat.sub_add_cancel (by omega)]
      rfl

/-! ## Resolved data and writes -/

/-- Only mode 000 resolves to an immediate datum: the low bytes of its extension word (R92). -/
theorem resolve_eq_imm {s s1 : State} {op : Operand} {n : Nat} {v : Word} (h : resolve s op n = .next (.imm v, s1)) :
    ∃ ie, op = .imm ie ∧ v = lowBytes n ie := by
  cases op <;> simp only [resolve, andThen_eq_next] at h
  case imm ie =>
    cases h
    exact ⟨ie, rfl, rfl⟩
  case preIndexed =>
    obtain ⟨ea, -, e⟩ := h
    cases e
  all_goals cases h

theorem lowBytes_lt (n : Nat) (v : Word) : (lowBytes n v).toNat < 256 ^ n := by
  rw [toNat_lowBytes]
  exact Nat.mod_lt _ (by positivity)

/-- The datum of a resolved operand has the size it was resolved for (R93). -/
theorem datum_lt {s s1 : State} {b : Operand} {n : Nat} {loc : Resolved} (h : resolve s b n = .next (loc, s1)) :
    s1.datum loc n < 256 ^ n := by
  cases loc with
  | imm v =>
    obtain ⟨ie, -, rfl⟩ := resolve_eq_imm h
    exact lowBytes_lt n ie
  | reg r => exact Nat.mod_lt _ (by positivity)
  | mem ea => exact s1.word_lt ea n

theorem size_le_modulus {n : Nat} {ws : WordSize} (hn : n ≤ ws.bytes) : n ≤ ws.modulus :=
  hn.trans (bytes_le_modulus ws)

/-! ## Loads (R171) -/

section
variable {s s1 : State} {ra : Reg} {b : Operand} {n : Nat} {loc : Resolved}
  (hres : resolve s b n = .next (loc, s1))
include hres

/-- A load changes Ra, the register the mode moves and the arithmetic flags only. -/
theorem load_registerFrame (v : Word) :
    RegisterFrame (ra :: autoRegs b) s ((postIncrement (s1.setReg ra v) b n).setSR (logicFlags s.ws s.sr v)) := by
  have hu : Updates [] s ((postIncrement (s1.setReg ra v) b n).setSR (logicFlags s.ws s.sr v)) :=
    (((resolve_updates hres).setReg ra v).postIncrement b n).setSR _
  refine ⟨fun r hr => ?_, fun a _ => ?_, ?_, logicFlags_modes _ _ _, hu.sameLines, hu.outputs_eq (by simp)⟩
  · obtain ⟨hra, hauto⟩ := List.ne_and_not_mem_of_not_mem_cons hr
    have hrb := not_mem_autoRegs hauto
    rw [State.setSR_reg, postIncrement_reg _ _ _ _ hrb, s1.reg_setReg_ne ra r v hra, resolve_reg s s1 b n loc hres r hrb]
  · rw [State.byteAt, hu.mem_eq (by simp), State.byteAt]
  · rw [State.setSR_pc, postIncrement_pc, State.setReg_pc, resolve_pc s s1 b n loc hres]

variable (hmod : modifiedRegister b ≠ some ra)
include hmod

theorem load_of_readable (hread : readable s1 loc n = true) :
    let v := fillRegister s.params n (s.reg ra) (BitVec.ofNat 32 (s1.datum loc n))
    load n ra b s = .next ((postIncrement (s1.setReg ra v) b n).setSR (logicFlags s.ws s.sr v)) := by
  rw [load, if_neg hmod]
  simp only [hres, andThen_next, readOperand_of_readable s1 loc n hread, postIncrement_ws, State.setReg_ws,
    postIncrement_sr, State.setReg_sr, resolve_params s s1 b n loc hres, resolve_ws s s1 b n loc hres,
    resolve_sr s s1 b n loc hres, resolve_reg s s1 b n loc hres ra hmod]

theorem load_autoMoved (hn : n ≤ s.ws.bytes) (v : Word) (sr : SR) :
    AutoMoved b n s ((postIncrement (s1.setReg ra v) b n).setSR sr) :=
  auto_moved s s1 (s1.setReg ra v) b n loc hres (resolve_ws s s1 b n loc hres) (size_le_modulus hn) fun r hr =>
    s1.reg_setReg_ne ra r v fun e => hmod (e ▸ hr)

theorem load_reg (v : Word) (sr : SR) (hv : v.toNat < s.ws.modulus) :
    ((postIncrement (s1.setReg ra v) b n).setSR sr).reg ra = v := by
  rw [State.setSR_reg, postIncrement_reg _ _ _ _ hmod, s1.reg_setReg_self, resolve_ws s s1 b n loc hres,
    s.ws.narrow_of_lt v hv]

end

/-- Settles O43: a load fills Ra with the datum of its operand, and its flags are those of a logic result. -/
theorem loadsFillRa : Obligations.LoadsFillRa := by
  intro s s1 ra b loc n i hi hlong hmod hres hread
  have hn := size_le_bytes (List.mem_append_left (storeTable ra b) hi) hlong
  have hdatum : (BitVec.ofNat 32 (s1.datum loc n)).toNat = s1.datum loc n := by
    have h4 := Nat.pow_le_pow_right (show 0 < 256 by decide) (hn.2.trans (bytes_le_four s.ws))
    rw [BitVec.toNat_ofNat, Nat.mod_eq_of_lt ((datum_lt hres).trans_le h4)]
  have hv := fillRegister_lt s.params n (s.reg ra) (BitVec.ofNat 32 (s1.datum loc n))
  refine ⟨_, (exec_of_mem_loadTable hi hlong).trans (load_of_readable hres hmod hread), fun k hk => ?_, ?_,
    load_autoMoved hres hmod hn.2 _ _, load_registerFrame hres _⟩
  · rw [load_reg hres hmod _ _ hv, getLsbD_fillRegister s.params _ _ hn (by rw [hdatum]; exact datum_lt hres) hk, hdatum]
  · rw [load_reg hres hmod _ _ hv]
    exact logicOutcome_of_logicFlags hv rfl

/-! ## Stores (R172) -/

/-- The operand resolved to `loc` has taken the `n` bytes of `v`: in memory, or in a register filled above them; no other byte
changed, and no other register but the one the mode moves. -/
def TransferTook (n : Nat) (s t : State) (b : Operand) (loc : Resolved) (v : Word) : Prop :=
  (∀ ea, loc = .mem ea → t.word ea n = v.toNat ∧ SameRegs (autoRegs b) s t) ∧
  (∀ r, loc = .reg r → SameRegs [r] s t ∧
    ∀ k, k < s.ws.bits → (t.reg r).getLsbD k = filledBit s.params n (s.reg r) v.toNat k) ∧
  SameBytes (s.locSpan loc n) s t ∧ AutoMoved b n s t ∧ t.pc = s.pc

section
variable {s : State} {n : Nat} {v : Word} (hn : 0 < n ∧ n ≤ s.ws.bytes) (hv : v.toNat < 256 ^ n)
include hn hv

theorem transferTook_mem {s1 : State} {b : Operand} {ea : Word} (sr : SR) (hwf : s.mem.wf = true)
    (hres : resolve s b n = .next (.mem ea, s1)) :
    TransferTook n s ((postIncrement (s1.stored ea n v) b n).setSR sr) b (.mem ea) v := by
  have hp : s1.params = s.params := resolve_params s s1 b n _ hres
  have hmem : s1.mem = s.mem := resolve_mem s s1 b n _ hres
  refine ⟨fun ea' he => ?_, fun r he => (nomatch he), fun x hx => ?_, ?_, ?_⟩
  · cases he
    refine ⟨?_, fun r hr => ?_⟩
    · change (postIncrement (s1.stored ea n v) b n).word ea n = v.toNat
      rw [postIncrement_word, s1.word_stored ea v n (hmem ▸ hwf) (hn.2.trans (bytes_le_four _)), Nat.mod_eq_of_lt hv]
    · have hrb := not_mem_autoRegs hr
      rw [State.setSR_reg, postIncrement_reg _ _ _ _ hrb, State.stored_reg, resolve_reg s s1 b n _ hres r hrb]
  · have hx' : x ∉ s1.span ea n := by rwa [span_congr hp]
    rw [State.setSR_byteAt, postIncrement_byteAt, s1.byteAt_stored ea v n x hx', State.byteAt, hmem, State.byteAt]
  · exact auto_moved s s1 (s1.stored ea n v) b n _ hres (ws_congr hp) (size_le_modulus hn.2) fun _ _ => rfl
  · rw [State.setSR_pc, postIncrement_pc, State.stored_pc, resolve_pc s s1 b n _ hres]

theorem transferTook_reg (r : Reg) (sr : SR) :
    TransferTook n s ((s.setReg r (fillRegister s.params n (s.reg r) v)).setSR sr) (.reg r) (.reg r) v := by
  refine ⟨fun ea he => (nomatch he), fun q he => ?_, fun _ _ => rfl, trivial, rfl⟩
  cases he
  refine ⟨fun q hq => s.reg_setReg_ne r q _ (List.ne_of_not_mem_cons hq), fun k hk => ?_⟩
  rw [State.setSR_reg, s.reg_setReg_self, s.ws.narrow_of_lt _ (fillRegister_lt s.params _ _ _),
    getLsbD_fillRegister s.params _ _ hn hv hk]

end

/-- A store to an operand that can be written completes: the operand takes the low bytes of Ra, which the flags describe. -/
theorem store_of_writable {s s1 : State} {ra : Reg} {b : Operand} {n : Nat} {loc : Resolved} (hn : 0 < n ∧ n ≤ s.ws.bytes)
    (hwf : s.mem.wf = true) (hmod : modifiedRegister b ≠ some ra) (hres : resolve s b n = .next (loc, s1))
    (hw : writableLoc s1 loc n = true) :
    ∃ t, store n ra b s = .next t ∧ t.sr = logicFlags s.ws s.sr (lowBytes n (s.reg ra)) ∧
      TransferTook n s t b loc (lowBytes n (s.reg ra)) := by
  have hv := lowBytes_lt n (s.reg ra)
  have hreg : s1.reg ra = s.reg ra := resolve_reg s s1 b n loc hres ra hmod
  rw [store, if_neg hmod]
  cases loc with
  | imm ie => cases hw
  | reg r =>
    obtain ⟨rfl, rfl⟩ := resolve_eq_reg hres
    have hlow : lowBytes n (lowBytes n (s1.reg ra)) = lowBytes n (s1.reg ra) := by
      apply BitVec.eq_of_toNat_eq
      rw [toNat_lowBytes, Nat.mod_eq_of_lt hv]
    refine ⟨_, ?_, State.setSR_sr _ _, transferTook_reg hn hv r _⟩
    simp only [hres, andThen_next, writeOperand, hlow, postIncrement, State.setReg_ws, State.setReg_sr]
  | mem ea =>
    refine ⟨_, ?_, State.setSR_sr _ _, transferTook_mem hn hv _ hwf hres⟩
    simp only [hres, andThen_next, writeOperand, hreg, memWrite_of_canWrite s1 ea _ n hw, postIncrement_ws, State.stored_ws,
      postIncrement_sr, State.stored_sr, resolve_ws s s1 b n _ hres, resolve_sr s s1 b n _ hres]

/-- Settles O44: the operand takes the low bytes of Ra, and a store does nothing else. -/
theorem storesWriteOperandB : Obligations.StoresWriteOperandB := by
  intro s s1 ra b loc n i hi hlong hwf hmod hres hw
  have hn := size_le_bytes (List.mem_append_right (loadTable ra b) hi) hlong
  obtain ⟨t, hstore, hsr, hmem, hreg, hbytes, hauto, hpc⟩ := store_of_writable hn hwf hmod hres hw
  have hu : Updates [.store] s t := store_updates (.head _) hstore
  have hv : (lowBytes n (s.reg ra)).toNat < s.ws.modulus := by
    rw [toNat_lowBytes]
    exact (Nat.mod_le _ _).trans_lt (s.reg_lt ra)
  exact ⟨t, lowBytes n (s.reg ra), (exec_of_mem_storeTable hi hlong).trans hstore, rfl, hmem, hreg, hbytes, hauto,
    logicOutcome_of_logicFlags hv hsr, hpc, store_sameModes hstore, hu.sameLines, hu.outputs_eq (by simp)⟩

end Sys2Proof.Machine
end

section
/-! The long jumps (O48). -/

namespace Sys2Proof.Machine

/-- The table of jumps gives each Jcc the truth of its condition (R201). -/
theorem eq_holds_of_mem_jumpTable {f : SR} {disp : Operand} {cc : Cond} {taken : Bool}
    (h : (Instr.jcc disp cc, taken) ∈ jumpTable f disp) : taken = f.holds cc := by
  have hsigns : (f.NF == f.VF) = !(Bool.xor f.NF f.VF) := by cases f.NF <;> cases f.VF <;> rfl
  cases cc <;> simpa [jumpTable, Instr.jcc, SR.holds, hsigns] using h

/-- What an operand's mode does to its register does not depend on PC. -/
theorem AutoMoved.setPc {op : Operand} {n : Nat} {s t : State} (h : AutoMoved op n s t) (v : Nat) :
    AutoMoved op n s (t.setPc v) := by
  cases op <;> exact h

section
variable {s s1 : State} {disp : Operand} {loc : Resolved} (hres : resolve s disp s.ws.bytes = .next (loc, s1))
include hres

/-- Reading the displacement has moved the mode's register, PC not yet (R92, R200). -/
theorem displacement_autoMoved : AutoMoved disp s.ws.bytes s (postIncrement s1 disp s.ws.bytes) :=
  auto_moved s s1 s1 disp _ loc hres (resolve_ws s s1 disp _ loc hres) (bytes_le_modulus s.ws) fun _ _ => rfl

theorem displacement_sameRegs : SameRegs (autoRegs disp) s (postIncrement s1 disp s.ws.bytes) := fun r hr => by
  have hmod := not_mem_autoRegs hr
  rw [postIncrement_reg _ _ _ _ hmod, resolve_reg s s1 disp _ loc hres r hmod]

/-- A jump whose displacement is readable completes: only PC depends on the condition (R200). -/
theorem jumpIf_of_readable (cc : Cond) (hread : readable s1 loc s.ws.bytes = true) :
    jumpIf cc disp s = .next (if s.sr.holds cc
      then (postIncrement s1 disp s.ws.bytes).setPc (s.pc.toNat + s1.datum loc s.ws.bytes)
      else postIncrement s1 disp s.ws.bytes) := by
  have hws : s1.ws = s.ws := resolve_ws s s1 disp _ loc hres
  have hdatum := toNat_datum s1 loc
  rw [hws] at hdatum
  simp only [jumpIf, hres, andThen_next, hws, readOperand_of_readable s1 loc _ hread, hdatum, postIncrement_sr,
    postIncrement_pc, resolve_sr s s1 disp _ loc hres, resolve_pc s s1 disp _ loc hres]

/-- Whether its condition holds or not, a jump leaves the registers as its mode does; PC moves where it holds (R200). -/
theorem jumpIf_completes (cc : Cond) (hread : readable s1 loc s.ws.bytes = true) :
    ∃ t, jumpIf cc disp s = .next t ∧
      t.pc = (if s.sr.holds cc then s.ws.narrow (s.pc.toNat + s1.datum loc s.ws.bytes) else s.pc) ∧
      AutoMoved disp s.ws.bytes s t ∧ SameRegs (autoRegs disp) s t := by
  have hauto := displacement_autoMoved hres
  have hregs := displacement_sameRegs hres
  rw [jumpIf_of_readable hres cc hread]
  cases s.sr.holds cc with
  | true =>
    have hws : s1.ws = s.ws := resolve_ws s s1 disp _ loc hres
    refine ⟨_, rfl, ?_, hauto.setPc _, hregs⟩
    rw [if_pos rfl, if_pos rfl, State.setPc_pc, postIncrement_ws, hws]
  | false => exact ⟨_, rfl, (postIncrement_pc s1 disp _).trans (resolve_pc s s1 disp _ loc hres), hauto, hregs⟩

end

/-- Settles O48: a jump moves the mode's register in either case, and PC where its condition holds. -/
theorem jumpsFollowTheConditionTable : Obligations.JumpsFollowTheConditionTable := by
  intro s s1 disp loc i taken hmem hres hread
  obtain ⟨cc, rfl⟩ : ∃ cc, i = Instr.jcc disp cc := eq_jcc_of_mem_jumpTable s.sr disp _ hmem
  obtain rfl : taken = s.sr.holds cc := eq_holds_of_mem_jumpTable hmem
  obtain ⟨t, hjump, hpc, hauto, hregs⟩ := jumpIf_completes hres cc hread
  have hu : Updates [] s t := jumpIf_updates hjump
  have hbytes : SameBytes [] s t := fun a _ => congrArg (Memory.read · a) (hu.mem_eq (by simp))
  exact ⟨t, (exec_jcc disp cc s).trans hjump, hpc, jumpIf_sr hjump, hauto, hregs, hbytes, hu.sameLines,
    hu.outputs_eq (by simp)⟩

end Sys2Proof.Machine
end

section
/-! A push where the slot below SP can be written, and the jumps of group V: JEA (O50), JSR (O51), and RTS after it (O52). -/

namespace Sys2Proof.Machine

/-! ## A push (R23) -/

/-- The state a push leaves. -/
def State.pushed (s : State) (v : Word) : State :=
  (s.setReg sp (s.slotBelow 1)).stored (s.slotBelow 1) s.ws.bytes v

section
variable (s : State) (v : Word)

theorem push_eq_pushed (h : canWrite s (s.slotBelow 1) s.ws.bytes = true) : push s v = .next (s.pushed v) :=
  push_of_canWrite s v h

@[simp] theorem pushed_ws : (s.pushed v).ws = s.ws := rfl

@[simp] theorem pushed_reg_sp : (s.pushed v).reg sp = s.slotBelow 1 :=
  (s.reg_setReg_self sp _).trans (s.ws.narrow_narrow _)

theorem pushed_reg {r : Reg} (hr : r ≠ sp) : (s.pushed v).reg r = s.reg r :=
  s.reg_setReg_ne sp r _ hr

theorem pushed_sameBytes : SameBytes (s.span (s.slotBelow 1) s.ws.bytes) s (s.pushed v) :=
  fun x hx => (s.setReg sp (s.slotBelow 1)).byteAt_stored _ v _ x hx

theorem pushed_wf (hwf : s.mem.wf = true) : (s.pushed v).mem.wf = true :=
  (s.setReg sp (s.slotBelow 1)).wf_stored _ v _ hwf

/-- The slot holds the N low bits of what was pushed. -/
theorem pushed_word (hwf : s.mem.wf = true) :
    (s.pushed v).word (s.slotBelow 1) s.ws.bytes = v.toNat % 2 ^ s.ws.bits := by
  rw [← s.ws.modulus_eq, s.ws.modulus_bytes]
  exact (s.setReg sp (s.slotBelow 1)).word_stored _ v _ hwf (bytes_le_four _)

end

/-- A pop undoes the move of SP by a push. -/
theorem slotAbove_of_pushed (s t : State) (hp : t.params = s.params) (h : t.reg sp = s.slotBelow 1) :
    t.slotAbove = s.reg sp := by
  apply BitVec.eq_of_toNat_eq
  have hreg := s.reg_lt sp
  have hle := bytes_le_modulus s.ws
  rw [State.slotAbove, h, ws_congr hp, s.ws.toNat_narrow, toNat_slotBelow, Nat.one_mul, Nat.mod_add_mod, Nat.add_assoc,
    Nat.sub_add_cancel hle, Nat.add_mod_right, Nat.mod_eq_of_lt hreg]

/-! ## Operands -/

/-- Updates without a store change no byte. -/
theorem Updates.sameBytes {es : List Effect} {s t : State} (h : Updates es s t) (hstore : .store ∉ es) : SameBytes [] s t :=
  fun x _ => congrArg (Memory.read · x) (h.mem_eq hstore)

theorem postIncrement_setPc (s : State) (op : Operand) (n v : Nat) :
    postIncrement (s.setPc v) op n = (postIncrement s op n).setPc v := by
  cases op <;> rfl

/-- What an operand's mode has done to its register does not change where that register does not. -/
theorem AutoMoved.of_reg {op : Operand} {n : Nat} {s t u : State} (h : AutoMoved op n s t)
    (hreg : ∀ r, modifiedRegister op = some r → u.reg r = t.reg r) : AutoMoved op n s u := by
  cases op
  case postInc r | preDec r => exact (congrArg BitVec.toNat (hreg r rfl)).trans h
  all_goals trivial

/-- Resolution leaves the stack slots where they are, unless the mode moves SP. -/
theorem resolve_slotBelow {s s1 : State} {a : Operand} {n : Nat} {loc : Resolved} (hres : resolve s a n = .next (loc, s1))
    (hsp : modifiedRegister a ≠ some sp) (k : Nat) : s1.slotBelow k = s.slotBelow k :=
  slotBelow_congr (resolve_params s s1 a n loc hres) (resolve_reg s s1 a n loc hres sp hsp) k

/-! ## JEA and JSR (R231, R232) -/

section
variable {s s1 : State} {a : Operand} {ea : Word} (hres : resolve s a s.ws.bytes = .next (.mem ea, s1))
include hres

/-- An operand's address is not cut when it is loaded into PC. -/
theorem narrow_address : s.ws.narrow ea.toNat = ea :=
  s.ws.narrow_of_lt ea (resolve_address_lt s s1 a _ _ hres ea rfl)

theorem exec_jea_of_address : exec (.jea a) s = .next ((postIncrement s1 a s.ws.bytes).setPc ea.toNat) := by
  change execJea a s = _
  simp only [execJea, hres, andThen_next, addressOf, resolve_ws s s1 a _ _ hres, postIncrement_setPc]

/-- The return address is pushed from the state before the post-increment, which does not concern SP. -/
theorem exec_jsr_of_address (hsp : modifiedRegister a ≠ some sp)
    (hw : canWrite s (s.slotBelow 1) s.ws.bytes = true) :
    exec (.jsr a) s = .next ((postIncrement (s1.pushed s.pc) a s.ws.bytes).setPc ea.toNat) := by
  have hp : s1.params = s.params := resolve_params s s1 a _ _ hres
  have hws : s1.ws = s.ws := ws_congr hp
  have hpush := push_eq_pushed s1 s.pc (by rw [resolve_slotBelow hres hsp, hws, canWrite_congr s s1 _ _ hp, hw])
  change execJsr a s = _
  simp only [execJsr, if_neg hsp, hres, andThen_next, addressOf, resolve_pc s s1 a _ _ hres, hpush, pushed_ws, hws,
    postIncrement_setPc]

end

/-- Settles O50: the mode moves its register, and PC takes the address. -/
theorem jeaJumpsToTheAddress : Obligations.JeaJumpsToTheAddress := by
  intro s s1 a ea hres
  have hexec := exec_jea_of_address hres
  have hu : Updates [] s _ := exec_updates hexec
  refine ⟨_, hexec, ?_, execJea_sr hexec, (displacement_autoMoved hres).setPc _, displacement_sameRegs hres,
    hu.sameBytes (by simp), hu.sameLines, hu.outputs_eq (by simp)⟩
  rw [State.setPc_pc, postIncrement_ws, resolve_ws s s1 a _ _ hres, narrow_address hres]

/-- Settles O51: a push from the resolved state, then the post-increment and the jump, which leave the stack alone. -/
theorem jsrPushesTheReturnAddress : Obligations.JsrPushesTheReturnAddress := by
  intro s s1 a ea hwf hsp hres hw
  have hp : s1.params = s.params := resolve_params s s1 a _ _ hres
  have hws : s1.ws = s.ws := ws_congr hp
  have hmem : s1.mem = s.mem := resolve_mem s s1 a _ _ hres
  have hslot := resolve_slotBelow hres hsp 1
  have hexec := exec_jsr_of_address hres hsp hw
  have hu : Updates [.store] s _ := exec_updates hexec
  refine ⟨_, hexec, ?_, execJsr_sr hexec, ?_, ?_, AutoMoved.setPc ?_ _, fun r hr => ?_, fun x hx => ?_, hu.sameLines,
    hu.outputs_eq (by simp)⟩
  · rw [State.setPc_pc, postIncrement_ws, pushed_ws, hws, narrow_address hres]
  · rw [State.setPc_reg, postIncrement_reg _ _ _ _ hsp, pushed_reg_sp, hslot]
  · change (postIncrement (s1.pushed s.pc) a s.ws.bytes).word _ _ = _
    rw [postIncrement_word, ← hslot, ← hws, pushed_word s1 s.pc (hmem ▸ hwf)]
  · exact auto_moved s s1 (s1.pushed s.pc) a _ _ hres hws (bytes_le_modulus _) fun r hr =>
      pushed_reg s1 s.pc fun e => hsp (e ▸ hr)
  · obtain ⟨hrsp, hauto⟩ := List.ne_and_not_mem_of_not_mem_cons hr
    have hmod := not_mem_autoRegs hauto
    rw [State.setPc_reg, postIncrement_reg _ _ _ _ hmod, pushed_reg s1 s.pc hrsp, resolve_reg s s1 a _ _ hres r hmod]
  · rw [State.setPc_byteAt, postIncrement_byteAt, pushed_sameBytes s1 s.pc x (by rwa [hslot, hws, span_congr hp]),
      State.byteAt, hmem, State.byteAt]

/-! ## RTS in the state a JSR left (R253) -/

/-- JSR completes only on an operand with an address, and with a stack that can be written. -/
theorem jsr_needs_address_and_stack {s t : State} {a : Operand} (h : exec (.jsr a) s = .next t) :
    ∃ ea s1, modifiedRegister a ≠ some sp ∧ resolve s a s.ws.bytes = .next (.mem ea, s1) ∧
      canWrite s (s.slotBelow 1) s.ws.bytes = true := by
  obtain ⟨hsp, h⟩ := unlessRefused_eq_next h
  simp only [andThen_eq_next] at h
  obtain ⟨⟨loc, s1⟩, hres, target, haddress, s2, hpush, -⟩ := h
  have hp : s1.params = s.params := resolve_params s s1 a _ _ hres
  obtain ⟨hw, -⟩ := (push_eq_next _ _ _).mp hpush
  rw [s1.pushAddress_eq, resolve_slotBelow hres hsp, ws_congr hp, canWrite_congr s s1 _ _ hp] at hw
  cases loc with
  | imm v => cases haddress
  | reg r => cases haddress
  | mem ea => exact ⟨ea, s1, hsp, hres, hw⟩

/-- Settles O52: RTS pops the word that JSR pushed. -/
theorem rtsReturnsPastJsr : Obligations.RtsReturnsPastJsr := by
  intro s t a hwf hjsr
  obtain ⟨ea, s1, hsp, hres, hw⟩ := jsr_needs_address_and_stack hjsr
  obtain ⟨t', hjsr', -, -, hslot, hword, -, -, -, hlines, -⟩ := jsrPushesTheReturnAddress s s1 a ea hwf hsp hres hw
  obtain rfl : t = t' := by rw [hjsr] at hjsr'; cases hjsr'; rfl
  have hp : t.params = s.params := hlines.1
  have hread : canRead t (t.reg sp) t.ws.bytes = true := by
    rw [hslot, ws_congr hp, canRead_congr s t _ _ hp]
    exact canRead_of_canWrite s _ _ hw
  refine ⟨_, execRts_of_canRead t hread, ?_, ?_, rfl⟩
  · change (t.ws.narrow _).toNat = _
    rw [toNat_narrow_word, hslot, ws_congr hp, hword]
  · rw [State.setPc_reg, popped_reg_sp, slotAbove_of_pushed s t hp hslot]

end Sys2Proof.Machine
end

section
/-! The entry of an exception whose accesses have a meaning (R303), and TRP (O53). -/

namespace Sys2Proof.Machine

/-! ## The entry of an exception (R303) -/

/-- The two pushes of an entry: SR as it was, then, with IF cleared, the return address. -/
def State.frameSaved (s : State) (ret : Word) : State :=
  ((s.pushed s.sr.image).setSR { s.sr with IF := false }).pushed ret

section
variable (s : State) (ret : Word)

/-- SR saved and IF cleared, the slot below SP is the second slot. -/
theorem slotBelow_pushed_setSR (sr : SR) (v : Word) : ((s.pushed v).setSR sr).slotBelow 1 = s.slotBelow 2 :=
  slotBelow_of_pushed s _ rfl (pushed_reg_sp s v)

theorem frameSaved_reg_sp : (s.frameSaved ret).reg sp = s.slotBelow 2 :=
  (pushed_reg_sp _ ret).trans (slotBelow_pushed_setSR s _ _)

theorem frameSaved_sameRegs : SameRegs [sp] s (s.frameSaved ret) := fun _ hr =>
  have hrsp := List.ne_of_not_mem_cons hr
  (pushed_reg _ ret hrsp).trans (pushed_reg s s.sr.image hrsp)

/-- The second push leaves alone what is outside the second slot. -/
theorem frameSaved_byteAt_outside {x : Nat} (hx : x ∉ s.span (s.slotBelow 2) s.ws.bytes) :
    (s.frameSaved ret).byteAt x = (s.pushed s.sr.image).byteAt x := by
  rw [← slotBelow_pushed_setSR s { s.sr with IF := false } s.sr.image] at hx
  exact pushed_sameBytes _ ret x hx

theorem frameSaved_sameBytes :
    SameBytes (s.span (s.slotBelow 1) s.ws.bytes ++ s.span (s.slotBelow 2) s.ws.bytes) s (s.frameSaved ret) := by
  intro x hx
  obtain ⟨h1, h2⟩ := not_or.mp (List.mem_append.not.mp hx)
  rw [frameSaved_byteAt_outside s ret h2, pushed_sameBytes s _ x h1]

/-- The first slot holds SR, which the second push leaves alone. -/
theorem frameSaved_word_one (hwf : s.mem.wf = true) :
    (s.frameSaved ret).word (s.slotBelow 1) s.ws.bytes = srNumber s.sr := by
  have hfits := (srNumber_lt s.sr).trans_le (sixtyFour_le_two_pow s.ws)
  rw [State.word_congr (s.pushed s.sr.image) (s.frameSaved ret) _ _ rfl fun x hx =>
      frameSaved_byteAt_outside s ret (slotBelow_disjoint s x hx),
    pushed_word s _ hwf, SR.toNat_image, Nat.mod_eq_of_lt hfits]

theorem frameSaved_word_two (hwf : s.mem.wf = true) :
    (s.frameSaved ret).word (s.slotBelow 2) s.ws.bytes = ret.toNat % 2 ^ s.ws.bits := by
  rw [← slotBelow_pushed_setSR s { s.sr with IF := false } s.sr.image]
  exact pushed_word ((s.pushed s.sr.image).setSR { s.sr with IF := false }) ret (pushed_wf s _ hwf)

/-- The handler's address is at most its vector word, so that PC takes it uncut (R302). -/
theorem toNat_narrow_handlerOf (a : Word) :
    (s.ws.narrow (handlerOf (BitVec.ofNat 32 (s.word a s.ws.bytes)))).toNat = s.word a s.ws.bytes / 2 * 2 := by
  have hword := s.word_lt a s.ws.bytes
  rw [← s.ws.modulus_bytes] at hword
  rw [handlerOf, toNat_word, s.ws.toNat_narrow, Nat.mod_eq_of_lt (by omega)]

theorem enter_of_canEnter {n : Nat} (h : canEnter s n = true) :
    enter s n ret = .next ((s.frameSaved ret).setPc
      (handlerOf (BitVec.ofNat 32 ((s.frameSaved ret).word (s.ws.narrow (4 * n)) s.ws.bytes)))) := by
  simp only [canEnter, Bool.and_eq_true] at h
  obtain ⟨⟨hslot1, hslot2⟩, hvector⟩ := h
  have hpush : push ((s.pushed s.sr.image).setSR { s.sr with IF := false }) ret = .next (s.frameSaved ret) :=
    push_eq_pushed _ ret (by rw [slotBelow_pushed_setSR]; exact hslot2)
  have hread : memRead (s.frameSaved ret) (s.ws.narrow (4 * n)) s.ws.bytes = .next _ :=
    memRead_of_canRead (s.frameSaved ret) _ _ hvector
  rw [enter_eq_next]
  exact ⟨_, _, _, push_eq_pushed s _ hslot1, hpush, hread, rfl⟩

end

/-- An entry whose accesses have a meaning completes, as R303 says. -/
theorem enter_entered (s : State) {n : Nat} (ret : Word) (hwf : s.mem.wf = true) (h : canEnter s n = true) :
    ∃ t, enter s n ret = .next t ∧ Entered s t s.sr n ret.toNat [] ∧ t.pending = s.pending :=
  ⟨_, enter_of_canEnter s ret h,
    ⟨frameSaved_reg_sp s ret, frameSaved_word_one s ret hwf, frameSaved_word_two s ret hwf,
      toNat_narrow_handlerOf (s.frameSaved ret) _, rfl, frameSaved_sameRegs s ret, frameSaved_sameBytes s ret, rfl, rfl, rfl⟩,
    rfl⟩

/-- An entry changes SP and the registers moved before it only. -/
theorem Entered.reg {s t : State} {saved : SR} {n ret : Nat} {moved : List Reg} {r : Reg} (h : Entered s t saved n ret moved)
    (hrsp : r ≠ sp) (hmoved : r ∉ moved) : t.reg r = s.reg r := by
  obtain ⟨-, -, -, -, -, hregs, -⟩ := h
  exact hregs r (List.not_mem_cons_of_ne_of_not_mem hrsp hmoved)

/-- An entry from `u` is an entry from `s` where `u` differs from `s` in PC, SR and the registers `moved` only. -/
theorem Entered.of_moved {s u t : State} {saved : SR} {n ret : Nat} {moved : List Reg} (hp : u.params = s.params)
    (hsp : u.reg sp = s.reg sp) (hregs : SameRegs moved s u) (hbytes : SameBytes [] s u) (hrst : u.rstLow = s.rstLow)
    (hout : u.outputs = s.outputs) (h : Entered u t saved n ret []) : Entered s t saved n ret moved := by
  simp only [Entered, slotBelow_congr hp hsp, ws_congr hp, span_congr hp, hp, hrst, hout] at h
  obtain ⟨htop, hsaved, hret, hpc, hsr, htregs, htbytes, hrest⟩ := h
  refine ⟨htop, hsaved, hret, hpc, hsr, fun r hr => ?_, fun x hx => ?_, hrest⟩
  · obtain ⟨hrsp, hmoved⟩ := List.ne_and_not_mem_of_not_mem_cons hr
    exact (htregs r (List.mem_singleton.not.mpr hrsp)).trans (hregs r hmoved)
  · exact (htbytes x hx).trans (hbytes x List.not_mem_nil)

/-! ## TRP (R233) -/

/-- The datum of a resolved operand of T bytes fits its container. -/
theorem toNat_resolved_datum {s s1 : State} {a : Operand} {loc : Resolved}
    (hres : resolve s a s.ws.bytes = .next (loc, s1)) :
    (BitVec.ofNat 32 (s1.datum loc s.ws.bytes)).toNat = s1.datum loc s.ws.bytes := by
  rw [← resolve_ws s s1 a _ _ hres, toNat_datum]

/-- The trap is entered from the state in which the operand has been read and its mode has moved its register. -/
theorem exec_trp_of_readable {s s1 : State} {a : Operand} {loc : Resolved} (hsp : modifiedRegister a ≠ some sp)
    (hres : resolve s a s.ws.bytes = .next (loc, s1)) (hread : readable s1 loc s.ws.bytes = true) :
    exec (.trp a) s = enter (postIncrement s1 a s.ws.bytes) (s1.datum loc s.ws.bytes) s.pc := by
  change execTrp a s = _
  simp only [execTrp, if_neg hsp, hres, andThen_next, resolve_ws s s1 a _ _ hres, readOperand_of_readable s1 loc _ hread,
    toNat_resolved_datum hres, postIncrement_pc, resolve_pc s s1 a _ _ hres]

/-- Settles O53: the entry is made from the state after the post-increment, which has the stack and memory of `s`. -/
theorem trpEntersTheException : Obligations.TrpEntersTheException := by
  intro s s1 a loc hwf hsp hres hread henter
  have hu : Updates [] s (postIncrement s1 a s.ws.bytes) := (resolve_updates hres).postIncrement a _
  have hmem := hu.mem_eq (by simp)
  have hregs := displacement_sameRegs hres
  obtain ⟨hp, hpending, hrst⟩ := hu.sameLines
  have hreg : (postIncrement s1 a s.ws.bytes).reg sp = s.reg sp :=
    hregs sp (by rwa [autoRegs, Option.mem_toList])
  have hsr : (postIncrement s1 a s.ws.bytes).sr = s.sr := (postIncrement_sr _ _ _).trans (resolve_sr s s1 a _ _ hres)
  obtain ⟨t, hexec, hentered, hpend⟩ := enter_entered (postIncrement s1 a s.ws.bytes) s.pc (hmem ▸ hwf)
    ((canEnter_congr hp hreg _).trans henter)
  have hmoved : AutoMoved a s.ws.bytes s t := (displacement_autoMoved hres).of_reg fun r hr =>
    hentered.reg (fun e => hsp (e ▸ hr)) List.not_mem_nil
  rw [hsr] at hentered
  exact ⟨t, (exec_trp_of_readable hsp hres hread).trans hexec,
    hentered.of_moved hp hreg hregs (hu.sameBytes (by simp)) hrst (hu.outputs_eq (by simp)), hmoved,
    hpend.trans hpending⟩

end Sys2Proof.Machine
end

section
/-! The two tests of group V: TST (O54) and TSR (O55). -/

namespace Sys2Proof.Machine

/-- The operand of a test has N bits. -/
theorem toNat_tested_lt {s s1 : State} {a : Operand} {loc : Resolved}
    (hres : resolve s a s.ws.bytes = .next (loc, s1)) :
    (BitVec.ofNat 32 (s1.datum loc s.ws.bytes)).toNat < s.ws.modulus := by
  rw [toNat_resolved_datum hres, s.ws.modulus_bytes]
  exact datum_lt hres

/-! ## TST (R234) -/

theorem exec_tst_of_readable {s s1 : State} {a : Operand} {loc : Resolved}
    (hres : resolve s a s.ws.bytes = .next (loc, s1)) (hread : readable s1 loc s.ws.bytes = true) :
    exec (.tst a) s = .next ((postIncrement s1 a s.ws.bytes).setSR
      (logicFlags s.ws s.sr (BitVec.ofNat 32 (s1.datum loc s.ws.bytes)))) := by
  change execTst a s = _
  simp only [execTst, hres, andThen_next, resolve_ws s s1 a _ _ hres, readOperand_of_readable s1 loc _ hread,
    State.testFlags, postIncrement_ws, postIncrement_sr, resolve_sr s s1 a _ _ hres]

theorem AutoMoved.setSR {op : Operand} {n : Nat} {s t : State} (h : AutoMoved op n s t) (sr : SR) :
    AutoMoved op n s (t.setSR sr) :=
  h.of_reg fun _ _ => rfl

theorem encodedAs_word5 {i : Instr} (k : Fin 8) (a : Operand) (h : i.word = word5 k a) : EncodedAs i (word5 k a) :=
  encodedAs_of_word ⟨h, .inr (by have := a.mode_lt; have := a.code_lt; unfold word5; omega)⟩

/-- Settles O54: TST reads its operand, moves the mode's register and sets the flags of a logic result. -/
theorem tstSetsFlagsFromTheOperand : Obligations.TstSetsFlagsFromTheOperand := by
  intro s s1 a loc hres hread
  have hexec := exec_tst_of_readable hres hread
  have hu : Updates [] s _ := exec_updates hexec
  have hpc : (postIncrement s1 a s.ws.bytes).pc = s.pc := (postIncrement_pc _ _ _).trans (resolve_pc s s1 a _ _ hres)
  exact ⟨_, hexec, logicOutcome_of_logicFlags (toNat_tested_lt hres) rfl, (displacement_autoMoved hres).setSR _,
    ⟨displacement_sameRegs hres, hu.sameBytes (by simp), hpc, execTst_sameModes hexec,
      hu.sameLines, hu.outputs_eq (by simp)⟩,
    encodedAs_word5 4 a rfl⟩

/-! ## TSR (R235) -/

/-- Resolution does not depend on the flags. -/
theorem resolve_setSR {s s1 : State} {op : Operand} {n : Nat} {loc : Resolved} (h : resolve s op n = .next (loc, s1))
    (sr : SR) : resolve (s.setSR sr) op n = .next (loc, s1.setSR sr) := by
  cases op
  case preIndexed ie r =>
    simp only [resolve, andThen_eq_next] at h ⊢
    obtain ⟨ea, hread, e⟩ := h
    cases e
    exact ⟨ea, hread, rfl⟩
  all_goals
    cases h
    rfl

/-- TSR stores 0 in its operand, from the state whose flags are those of the old value. -/
theorem exec_tsr_of_readable {s s1 : State} {a : Operand} {loc : Resolved}
    (hres : resolve s a s.ws.bytes = .next (loc, s1)) (hread : readable s1 loc s.ws.bytes = true) :
    exec (.tsr a) s =
      storeOperand a (fun _ => 0) (s.setSR (logicFlags s.ws s.sr (BitVec.ofNat 32 (s1.datum loc s.ws.bytes)))) := by
  change execTsr a s = _
  simp only [execTsr, storeOperand, hres, State.setSR_ws, resolve_setSR hres, andThen_next, resolve_ws s s1 a _ _ hres,
    readOperand_of_readable s1 loc _ hread, State.testFlags, resolve_sr s s1 a _ _ hres]

/-- Settles O55: the operand takes 0 after the flags were set from its old value. -/
theorem tsrTestsThenClears : Obligations.TsrTestsThenClears := by
  intro s s1 a loc hwf hres hread hw
  obtain ⟨t, hstore, hmem, hreg, hbytes, hauto, hpc⟩ := storeOperand_of_writable (fun _ => 0)
    (s := s.setSR (logicFlags s.ws s.sr (BitVec.ofNat 32 (s1.datum loc s.ws.bytes)))) hwf (resolve_setSR hres _) hw
  have hexec := (exec_tsr_of_readable hres hread).trans hstore
  have hu : Updates [.store] s t := exec_updates hexec
  refine ⟨t, hexec, logicOutcome_of_logicFlags (toNat_tested_lt hres) (storeOperand_sr hstore), fun ea he => ?_,
    fun r he => ?_, hbytes, ?_, hpc, execTsr_sameModes hexec, hu.sameLines, hu.outputs_eq (by simp)⟩
  · obtain ⟨hword, hregs⟩ := hmem ea he
    exact ⟨by simpa using hword, hregs⟩
  · obtain ⟨hzero, hregs⟩ := hreg r he
    exact ⟨BitVec.eq_of_toNat_eq (by simpa using hzero), hregs⟩
  · cases a <;> exact hauto

end Sys2Proof.Machine
end

section
/-! Group VI: RTI in the state an exception was entered into (O19), and the instructions that change one flag (O57). -/

namespace Sys2Proof.Machine

/-! ## An entry that completed had a meaning (R303, R321) -/

theorem ReadStop.ne_next {α : Type} {s : State} {a : Word} {n : Nat} {o : Answer α} {x : α} (h : ReadStop s a n o) :
    o ≠ .next x := by
  obtain ⟨-, rfl⟩ | ⟨-, -, rfl⟩ := h <;> nofun

theorem WriteStop.ne_next {α : Type} {s : State} {a : Word} {n : Nat} {o : Answer α} {x : α} (h : WriteStop s a n o) :
    o ≠ .next x := by
  obtain ⟨-, rfl⟩ | ⟨-, ⟨-, rfl⟩ | ⟨-, -, rfl⟩⟩ := h <;> nofun

theorem EntryStop.ne_next {s t : State} {n : Nat} {o : Answer State} (h : EntryStop s n o) : o ≠ .next t := by
  obtain hpush | ⟨-, hpush⟩ | ⟨-, -, hvector⟩ := h
  · exact hpush.ne_next
  · exact hpush.ne_next
  · exact hvector.ne_next

theorem canEnter_of_enter {s t : State} {n : Nat} {ret : Word} (h : enter s n ret = .next t) : canEnter s n = true :=
  eq_true_of_ne_false fun hstop => (enter_stop s n ret hstop).ne_next h

/-- What R303 says holds of every entry that completes. -/
theorem entered_of_enter {s t : State} {n : Nat} {ret : Word} (hwf : s.mem.wf = true) (h : enter s n ret = .next t) :
    Entered s t s.sr n ret.toNat [] ∧ t.pending = s.pending := by
  obtain ⟨t', h', hentered⟩ := enter_entered s ret hwf (canEnter_of_enter h)
  cases h.symm.trans h'
  exact hentered

/-! ## The two pops of RTI in the state of an entry (R254, R312) -/

theorem srNumber_injective : Function.Injective srNumber := fun f g h => by
  have himage : f.image = g.image := BitVec.eq_of_toNat_eq (by rw [f.toNat_image, g.toNat_image, h])
  rw [← f.ofImage_image, himage, g.ofImage_image]

section
variable {s t : State} (hp : t.params = s.params) (hsp : t.reg sp = s.slotBelow 2)
include hp hsp

/-- Above the return address stands the slot of the saved SR. -/
theorem slotAbove_of_two_pushed : t.slotAbove = s.slotBelow 1 := by
  have hslot := slotBelow_pushed_setSR s s.sr 0
  exact (slotAbove_of_pushed ((s.pushed 0).setSR s.sr) t hp (hsp.trans hslot.symm)).trans (pushed_reg_sp s 0)

/-- Two pops undo the move of SP by two pushes. -/
theorem slotAbove_popped_of_two_pushed : t.popped.slotAbove = s.reg sp :=
  slotAbove_of_pushed s t.popped hp ((popped_reg_sp t).trans (slotAbove_of_two_pushed hp hsp))

end

/-- Settles O19: the two pops of RTI read the two slots that the entry wrote. -/
theorem rtiUndoesEntry : Obligations.RtiUndoesEntry := by
  intro s t n ret hwf henter
  have hcan := canEnter_of_enter henter
  simp only [canEnter, Bool.and_eq_true] at hcan
  obtain ⟨⟨hwrite1, hwrite2⟩, -⟩ := hcan
  obtain ⟨⟨hsp, hsaved, hret, -, -, hentry, -, hp, hrst, -⟩, hpending⟩ := entered_of_enter hwf henter
  have hws : t.ws = s.ws := ws_congr hp
  have habove : t.slotAbove = s.slotBelow 1 := slotAbove_of_two_pushed hp hsp
  have hread2 : canRead t (t.reg sp) t.ws.bytes = true := by
    rw [hsp, hws, canRead_congr s t _ _ hp, canRead_of_canWrite s _ _ hwrite2]
  have hread1 : canRead t t.slotAbove t.ws.bytes = true := by
    rw [habove, hws, canRead_congr s t _ _ hp, canRead_of_canWrite s _ _ hwrite1]
  obtain ⟨u, hexec, hpc, hregsp, hsr, hregs, -, ⟨hup, hupending, hurst⟩, -⟩ := (returnsPopTheStack t).2 hread2 hread1
  have hu : Updates [] t u := exec_updates hexec
  refine ⟨u, hexec, ?_, srNumber_injective ?_, fun r _ => ?_,
    ⟨hup.trans hp, hupending.trans hpending, hurst.trans hrst⟩, hu.mem_eq (by simp)⟩
  · rw [hpc, hsp, hws, hret]
  · change srNumber u.sr = t.word t.slotAbove t.ws.bytes % 64 at hsr
    rw [hsr, habove, hws, hsaved, Nat.mod_eq_of_lt (srNumber_lt s.sr)]
  · by_cases hr : r = sp
    · subst hr
      rw [← slotAbove_popped_of_two_pushed hp hsp]
      exact BitVec.eq_of_toNat_eq (hregsp.trans (toNat_slotAbove_popped t).symm)
    · have hr' : r ∉ [sp] := List.mem_singleton.not.mpr hr
      exact (hregs r hr').trans (hentry r hr')

/-! ## The instructions of one flag (R251, R252, R255 to R258) -/

theorem encodedAs_word6 {i : Instr} (k : Fin 8) (h : i.word = word6 k) : EncodedAs i (word6 k) :=
  encodedAs_of_word ⟨h, .inr (by unfold word6; omega)⟩

/-- Settles O57: each meaning is one write to SR, or none, and each word is its code in format VI. -/
theorem oneFlagInstructions : Obligations.OneFlagInstructions := by
  refine fun s => ⟨?nop, ?hlt, ?clc, ?stc, ?dsi, ?eni, encodedAs_word6 0 rfl, encodedAs_word6 1 rfl, encodedAs_word6 4 rfl,
    encodedAs_word6 5 rfl, encodedAs_word6 6 rfl, encodedAs_word6 7 rfl⟩
  case nop => exact (rfl : execNop s = _)
  case hlt => exact (rfl : execHlt s = _)
  case clc => exact (rfl : execClc s = _)
  case stc => exact (rfl : execStc s = _)
  case dsi => exact (rfl : execDsi s = _)
  case eni => exact (rfl : execEni s = _)

end Sys2Proof.Machine
end

section
/-! Boundaries and interrupts: the order at a boundary (O8), the entry of an interrupt (O15, O18), the line accepted (O16), and
the edges of the lines (O17). -/

namespace Sys2Proof.Machine

/-! ## The other boundaries of a step (R310, R35) -/

theorem step_of_acceptable (s : State) {i : Nat} (hr : s.rstLow = false) (ha : s.acceptable = some i) :
    step s = takeInterrupt s i := by
  simp only [step, hr, ha, Bool.false_eq_true, if_false]

theorem step_of_stopped (s : State) (hr : s.rstLow = false) (ha : s.acceptable = none) (hw : s.sr.WF = true) :
    step s = .next s := by
  simp only [step, hr, ha, hw, Bool.false_eq_true, if_false, if_true]

/-- Settles O8, by one equation of `step` per kind of boundary. -/
theorem boundaryOrder : Obligations.BoundaryOrder := fun s =>
  ⟨step_of_rstLow s, fun hr _ => step_of_acceptable s hr, step_of_stopped s, step_of_fetches s⟩

/-! ## The entry of an interrupt (R305) -/

/-- An interrupt is entered from the state acknowledged, which has the stack, memory and vectors of `s`. -/
theorem takeInterrupt_entered (s : State) {i : Nat} (hwf : s.mem.wf = true) (h : canEnter s (i + 32) = true) :
    ∃ t, takeInterrupt s i = .next t ∧ Entered s t { s.sr with WF := false } (i + 32) s.pc.toNat [] ∧
      t.pending = s.pending.erase i :=
  enter_entered { s with pending := s.pending.erase i, sr := { s.sr with WF := false } } s.pc hwf h

/-- Settles O15: the step is the entry from the acknowledged state. -/
theorem interruptEntry : Obligations.InterruptEntry := by
  intro s i hr hwf ha henter
  rw [step_of_acceptable s hr ha]
  exact takeInterrupt_entered s hwf henter

/-- Settles O18: PC takes a handler address, which is even and stays even modulo 2^N. -/
theorem handlerAddressIsEven : Obligations.HandlerAddressIsEven := by
  intro s t n ret henter
  obtain ⟨-, s2, v, -, -, -, rfl⟩ := (enter_eq_next s t n ret).mp henter
  exact narrow_even s2.ws (handlerOf v) (handlerOf_even v)

/-! ## The line accepted (R309, R310) -/

section
variable (priority pending : List Nat)

/-- Where the list prefers no pending line, the lowest pending line is the line. -/
theorem selectLine_of_none_preferred (h : ∀ j ∈ priority, j ∉ pending) :
    selectLine priority pending = pending.min? := by
  have hfind : priority.find? (fun j => pending.contains j) = none := by simpa using h
  rw [selectLine, hfind]

/-- The first preferred line that is pending is the line. -/
theorem selectLine_of_first_preferred {before after : List Nat} {i : Nat} (hi : i ∈ pending)
    (hbefore : ∀ j ∈ before, j ∉ pending) : selectLine (before ++ i :: after) pending = some i := by
  have hfind : (before ++ i :: after).find? (fun j => pending.contains j) = some i :=
    List.find?_eq_some_iff_append.mpr ⟨by simpa using hi, before, after, rfl, by simpa using hbefore⟩
  rw [selectLine, hfind]

/-- Either the list prefers no pending line, or it has a first line that is pending. -/
theorem preferred_cases : (∀ j ∈ priority, j ∉ pending) ∨
    ∃ i before after, priority = before ++ i :: after ∧ i ∈ pending ∧ ∀ j ∈ before, j ∉ pending := by
  cases hfind : priority.find? fun j => pending.contains j with
  | none => exact .inl (by simpa using hfind)
  | some i =>
    obtain ⟨hi, before, after, heq, hbefore⟩ := List.find?_eq_some_iff_append.mp hfind
    exact .inr ⟨i, before, after, heq, by simpa using hi, by simpa using hbefore⟩

theorem selectLine_eq_none : selectLine priority pending = none ↔ pending = [] := by
  obtain hnone | ⟨i, before, after, rfl, hi, hbefore⟩ := preferred_cases priority pending
  · rw [selectLine_of_none_preferred _ _ hnone, List.min?_eq_none_iff]
  · rw [selectLine_of_first_preferred _ hi hbefore]
    exact iff_of_false nofun (List.ne_nil_of_mem hi)

/-- Under the default list the lowest pending line is the line. -/
theorem selectLine_nil (i : Nat) : selectLine [] pending = some i ↔ i ∈ pending ∧ ∀ j ∈ pending, i ≤ j := by
  rw [selectLine_of_none_preferred _ _ (List.forall_mem_nil _), List.min?_eq_some_iff]

theorem selectLine_eq_some (i : Nat) : selectLine priority pending = some i ↔ i ∈ pending ∧
    ((∃ before after, priority = before ++ i :: after ∧ ∀ j ∈ before, j ∉ pending) ∨
      ((∀ j ∈ priority, j ∉ pending) ∧ ∀ j ∈ pending, i ≤ j)) := by
  constructor
  · intro hsel
    obtain hnone | ⟨k, before, after, heq, hk, hbefore⟩ := preferred_cases priority pending
    · rw [selectLine_of_none_preferred _ _ hnone, List.min?_eq_some_iff] at hsel
      obtain ⟨hi, hleast⟩ := hsel
      exact ⟨hi, .inr ⟨hnone, hleast⟩⟩
    · rw [heq, selectLine_of_first_preferred _ hk hbefore] at hsel
      cases hsel
      exact ⟨hk, .inl ⟨before, after, heq, hbefore⟩⟩
  · rintro ⟨hi, ⟨before, after, rfl, hbefore⟩ | ⟨hnone, hleast⟩⟩
    · exact selectLine_of_first_preferred _ hi hbefore
    · rw [selectLine_of_none_preferred _ _ hnone, List.min?_eq_some_iff]
      exact ⟨hi, hleast⟩

end

theorem acceptable_eq_none (s : State) : s.acceptable = none ↔ s.sr.IF = false ∨ s.pending = [] := by
  cases hif : s.sr.IF <;> simp [State.acceptable, hif, selectLine_eq_none]

theorem acceptable_eq_some (s : State) (i : Nat) :
    s.acceptable = some i ↔ s.sr.IF = true ∧ selectLine s.params.irqPriority s.pending = some i := by
  cases hif : s.sr.IF <;> simp [State.acceptable, hif]

/-- Settles O16: with IF = 1 the line accepted is the one `selectLine` answers. -/
theorem lowestLineFirst : Obligations.LowestLineFirst := by
  refine fun s => ⟨acceptable_eq_none s, fun hdefault i => ?_, fun i => ?_⟩
  · rw [acceptable_eq_some, hdefault, selectLine_nil]
  · rw [acceptable_eq_some, selectLine_eq_some]

/-! ## Edges (R309) -/

/-- A line that is in the list already is not put into it again, whatever the order of the list. -/
theorem insertLine_insertLine (i : Nat) (l : List Nat) : insertLine i (insertLine i l) = insertLine i l := by
  induction l with
  | nil => simp [insertLine]
  | cons k ks ih =>
    obtain hlt | rfl | hgt := lt_trichotomy i k
    · simp [insertLine, hlt]
    · simp [insertLine]
    · simp [insertLine, hgt.not_gt, hgt.ne', ih]

theorem afterEvent_irqEdge (s : State) {i : Nat} (hi : i < s.params.nirq) :
    s.afterEvent (.irqEdge i) = { s with pending := insertLine i s.pending } :=
  if_pos hi

/-- Settles O17: the edge is an insertion into the list of pending lines. -/
theorem edgeSetsOnePendingBit : Obligations.EdgeSetsOnePendingBit := by
  intro s i hi
  rw [afterEvent_irqEdge s hi]
  refine ⟨fun j => mem_insertLine i j s.pending, rfl, ?_⟩
  rw [afterEvent_irqEdge { s with pending := insertLine i s.pending } hi, insertLine_insertLine]

end Sys2Proof.Machine
end

section
/-! The end of a run (R345): once the CPU is stopped with IF = 0, edges and steps change pending bits only (O20). -/

namespace Sys2Proof.Machine

theorem ended_iff (s : State) : s.ended = true ↔ s.sr.WF = true ∧ s.sr.IF = false := by
  rw [State.ended, Bool.and_eq_true, Bool.not_eq_true']

/-- Pending bits do not decide whether a run has ended. -/
theorem ended_with_pending (s : State) (ps : List Nat) : State.ended { s with pending := ps } = s.ended := rfl

/-- The step of an ended run changes nothing: with IF = 0 no line is accepted (R305), and with WF = 1 nothing is fetched (R35). -/
theorem step_of_ended (s : State) (hend : s.ended = true) (hr : s.rstLow = false) : step s = .next s := by
  obtain ⟨hwf, hif⟩ := (ended_iff s).mp hend
  exact step_of_stopped s hr (acceptable_of_IF_false s hif) hwf

/-- An ended run does not stop, and changes pending bits only, however many edges come before each step. -/
theorem runUnder_of_ended (events : List (List EnvEvent)) (s : State) (hend : s.ended = true) (hr : s.rstLow = false)
    (hedges : ∀ es ∈ events, ∀ e ∈ es, e.isEdge = true) : ∃ ps, runUnder events s = .next { s with pending := ps } := by
  induction events generalizing s with
  | nil => exact ⟨s.pending, rfl⟩
  | cons es rest ih =>
    obtain ⟨hes, hrest⟩ := List.forall_mem_cons.mp hedges
    obtain ⟨ps, hs⟩ := afterEvents_of_edges es s hes
    have hend' : State.ended { s with pending := ps } = true := (ended_with_pending s ps).trans hend
    have hstep : step (s.afterEvents es) = .next { s with pending := ps } := by
      rw [hs]
      exact step_of_ended _ hend' hr
    obtain ⟨qs, hrun⟩ := ih { s with pending := ps } hend' hr hrest
    exact ⟨qs, by rw [runUnder, hstep, andThen_next, hrun]⟩

/-- Settles O20: the state the run reaches is the first one with other pending bits. -/
theorem endedRunStaysEnded : Obligations.EndedRunStaysEnded := by
  intro events s hend hr hedges
  obtain ⟨ps, hrun⟩ := runUnder_of_ended events s hend hr hedges
  exact ⟨{ s with pending := ps }, hrun, rfl⟩

end Sys2Proof.Machine
end
